-- ==== Sys2Proof/Word.lean ====
section
/-! DEFINITION. Word.lean: the widths of the block's data (R10, R12, R21). -/

namespace Sys2Proof

/-- One byte of TEXT or WBUF, and the unit of host addressing (R60, R61). -/
abbrev Byte := BitVec 8

/-- A 32-bit register, bus datum, CTAB entry or command word (R21, R90, R96). -/
abbrev Word := BitVec 32

/-- An IEEE 754 binary32 pattern: a sample word or a gain (R12, R97). -/
abbrev F32 := BitVec 32

/-- An IEEE 754 binary64 pattern: a PITCH entry or a value of the datapath (R12, R98). -/
abbrev F64 := BitVec 64

end Sys2Proof
end

