-- ==== Sys2Proof/Syntax.lean ====
section
/-! DEFINITION. Syntax.lean: the command set ASSY-CMD (R2, R91) and the fields of a command word (R90). -/

namespace Sys2Proof

/-- The nine legal commands, one constructor per row of the opcode map (R91). No command carries an
operand in its word (R93); the operand select SEL is part of the row. -/
inductive Instr where
  /-- NOP (R213). -/
  | nop
  /-- PTEMPO: parse the tempo (R117). -/
  | ptempo
  /-- PCHORD: parse the chord progression (R118). -/
  | pchord
  /-- SYNTH: synthesize the backing track into IBUF (R152). -/
  | synth
  /-- MIX I: mix VBUF with IBUF into MBUF (R177). -/
  | mixI
  /-- MIX V: mix VBUF with itself into MBUF (R177). -/
  | mixV
  /-- ENCODE M: serialize MBUF into WBUF (R196). -/
  | encodeM
  /-- ENCODE V: serialize VBUF into WBUF (R196). -/
  | encodeV
  /-- ENCODE I: serialize IBUF into WBUF (R196). -/
  | encodeI
  deriving DecidableEq, Repr

/-- The fields of a command word (R90): `op` is bits [7:0], `sel` bits [9:8], `rsv` bits [31:10]. -/
structure CommandFields where
  op : BitVec 8
  sel : BitVec 2
  rsv : BitVec 22
  deriving DecidableEq, Repr

end Sys2Proof
end

