-- ==== Sys2Proof/WellFormed.lean ====
section
/-! DEFINITION. WellFormed.lean: which fields of a command word name a command (R91, R92, R94). -/

namespace Sys2Proof

/-- The operations of R91. -/
def opKnown (op : BitVec 8) : Bool :=
  op == 0x00 || op == 0x01 || op == 0x02 || op == 0x10 || op == 0x20 || op == 0x30

/-- The operand selects of R92: 0 or 1 for MIX (SEL[1] must be 0), 0 to 2 for ENCODE, 0 for every other operation. -/
def selLegal (op : BitVec 8) (sel : BitVec 2) : Bool :=
  if op == 0x20 then sel == 0 || sel == 1
  else if op == 0x30 then sel == 0 || sel == 1 || sel == 2
  else sel == 0

/-- A command word's fields are well formed: reserved bits 0, a known operation, a legal select (R90, R92, R94). -/
def CommandFields.wellFormed (f : CommandFields) : Bool :=
  f.rsv == 0 && opKnown f.op && selLegal f.op f.sel

/-- The fields that the opcode map gives a command (R91). -/
def Instr.fields : Instr → CommandFields
  | .nop => ⟨0x00, 0, 0⟩
  | .ptempo => ⟨0x01, 0, 0⟩
  | .pchord => ⟨0x02, 0, 0⟩
  | .synth => ⟨0x10, 0, 0⟩
  | .mixI => ⟨0x20, 0, 0⟩
  | .mixV => ⟨0x20, 1, 0⟩
  | .encodeM => ⟨0x30, 0, 0⟩
  | .encodeV => ⟨0x30, 1, 0⟩
  | .encodeI => ⟨0x30, 2, 0⟩

/-- An instruction is well formed when the fields of its word are. -/
def Instr.wellFormed (i : Instr) : Bool := i.fields.wellFormed

end Sys2Proof
end

