-- ==== Sys2Proof/Decode.lean ====
section
/-! DEFINITION. Decode.lean: from a command word to an instruction or a named rejection, and back (R90 to R95). -/

namespace Sys2Proof

/-- Why a command word, or a string of bytes, is no command (R94). -/
inductive Illegal where
  /-- Not exactly the four bytes of one command word (R95). -/
  | notOneWord
  /-- A nonzero RSV bit. -/
  | reservedBits
  /-- An OP that R91 does not list. -/
  | unknownOp
  /-- A SEL that the operation does not admit: SEL not 0 for NOP, PTEMPO, PCHORD or SYNTH, SEL[1] = 1 for MIX, SEL = 3 for
  ENCODE. -/
  | illegalSelect
  deriving DecidableEq, Repr

/-- The fields of a word (R90). -/
def fieldsOf (w : Word) : CommandFields where
  op := w.extractLsb' 0 8
  sel := w.extractLsb' 8 2
  rsv := w.extractLsb' 10 22

/-- The word made of given fields (R90). -/
def wordOf (f : CommandFields) : Word := f.rsv ++ f.sel ++ f.op

/-- The commands without operand select: SEL must be 0 (R92). -/
def decodeNoSelect (i : Instr) (sel : BitVec 2) : Except Illegal Instr :=
  if sel = 0 then .ok i else .error .illegalSelect

/-- MIX: SEL[0] is ISEL, SEL[1] must be 0 (R92). -/
def decodeMix (sel : BitVec 2) : Except Illegal Instr :=
  if sel = 0 then .ok .mixI else if sel = 1 then .ok .mixV else .error .illegalSelect

/-- ENCODE: SEL is SRC, 3 is illegal (R92). -/
def decodeEncode (sel : BitVec 2) : Except Illegal Instr :=
  if sel = 0 then .ok .encodeM else if sel = 1 then .ok .encodeV
  else if sel = 2 then .ok .encodeI else .error .illegalSelect

/-- Decoding of the three fields (R91, R92, R94). -/
def decodeFields (f : CommandFields) : Except Illegal Instr :=
  if f.rsv ≠ 0 then .error .reservedBits
  else if f.op = 0x00 then decodeNoSelect .nop f.sel
  else if f.op = 0x01 then decodeNoSelect .ptempo f.sel
  else if f.op = 0x02 then decodeNoSelect .pchord f.sel
  else if f.op = 0x10 then decodeNoSelect .synth f.sel
  else if f.op = 0x20 then decodeMix f.sel
  else if f.op = 0x30 then decodeEncode f.sel
  else .error .unknownOp

/-- `decode(w)` of R94, total on all 2^32 words. -/
def decodeWord (w : Word) : Except Illegal Instr := decodeFields (fieldsOf w)

/-- The little-endian 32-bit word that four bytes make (R62). -/
def wordOfBytes (b0 b1 b2 b3 : Byte) : Word := b3 ++ b2 ++ b1 ++ b0

/-- A command from the bytes of its word in address order. There is one length, 32 bits (R95). -/
def decodeBytes : List Byte → Except Illegal Instr
  | [b0, b1, b2, b3] => decodeWord (wordOfBytes b0 b1 b2 b3)
  | _ => .error .notOneWord

/-- Byte `k` of a number, in little-endian order (R62). -/
def byteOfNat (v k : Nat) : Byte := BitVec.ofNat 8 (v >>> (8 * k))

/-- The `n` bytes of a number in little-endian order: byte j is bits [8j+7 : 8j] (R62, R64). -/
def bytesOfNat (n v : Nat) : List Byte := (List.range n).map (byteOfNat v)

/-- The number whose little-endian bytes are given: the sum of byte(j)·2^(8j) (R64). -/
def natOfBytes : List Byte → Nat
  | [] => 0
  | b :: rest => b.toNat + 256 * natOfBytes rest

/-- The word of an instruction, from the opcode map (R91). -/
def encode (i : Instr) : Word := wordOf i.fields

/-- The bytes of an instruction's word in address order (R62). -/
def encodeBytes (i : Instr) : List Byte := bytesOfNat 4 (encode i).toNat

/-- The instruction that the decoder reads from a row of spec/opcode_table.json whose bits are `w`: every row has 32 bits
(R95), stored as the four little-endian bytes of the CMD register. Bits of `w` at or above bit 32 make it no command. -/
def decodeTableWord (nbits w : Nat) : Option Instr :=
  if nbits ≤ 32 ∧ w < 2 ^ nbits then (decodeBytes (bytesOfNat 4 w)).toOption else none

end Sys2Proof
end

