-- ==== Sys2Proof/Config.lean ====
section
/-! DEFINITION. Config.lean: what an implementation fixes (R7, R8), and the values the spec leaves open as
opaque constants without a body (93_implementation_defined.md, part 2). -/

namespace Sys2Proof

/-- The parameters of R7 that are data. A model takes them as arguments: they stand in State, no step changes them, and
a statement about every state is a statement about every choice of them. `sinImpl` names the sine the
block was built with: 0 is the default (the correctly rounded sine), any other number an implementation's own (R7, D7).
LATENCY is not here: see `HostEvent.afterCompletion`. -/
structure Params where
  /-- TEXT_CAP: bytes in the TEXT memory. -/
  textCap : Nat
  /-- CHORD_CAP: entries of the chord table CTAB. -/
  chordCap : Nat
  /-- SAMPLE_CAP: binary32 samples in each of VBUF, IBUF and MBUF. -/
  sampleCap : Nat
  /-- PITCH_HZ[0..11]: the reference-octave pitch table, binary64 patterns (R140, R141). -/
  pitch : Vector F64 12
  /-- IP_ID: the value of the ID register. -/
  ipId : Word
  /-- Which SIN the implementation has: 0 the default, k + 1 the k-th other admissible function. -/
  sinImpl : Nat
  deriving DecidableEq, Repr

/-- A positive finite binary64 pattern: sign 0, not zero, exponent not all ones (R8). -/
def positiveFinite (x : F64) : Bool :=
  decide (0 < x.toNat ∧ x.toNat < 0x7FF0000000000000)

/-- The pitch table in pitch-class order is strictly increasing. Positive binary64 patterns are ordered as the
numbers they stand for (R8). -/
def strictlyRising : List F64 → Bool
  | [] => true
  | [_] => true
  | x :: y :: rest => decide (x.toNat < y.toNat) && strictlyRising (y :: rest)

/-- `pitch_ok` of R8: every entry finite and positive, and each less than the next. -/
def pitchOk (pitch : Vector F64 12) : Bool :=
  pitch.toList.all positiveFinite && strictlyRising pitch.toList

/-- The legal values of R7. -/
def Params.legal (p : Params) : Bool :=
  decide (1 ≤ p.textCap ∧ p.textCap ≤ 4096) &&
  decide (4 ≤ p.chordCap ∧ p.chordCap ≤ 1024) &&
  decide (1 ≤ p.sampleCap ∧ p.sampleCap ≤ 4194304) &&
  pitchOk p.pitch

/-- The default pitch table of R141: 12-tone equal temperament with A4 = 440 Hz, octave 4. -/
def defaultPitch : Vector F64 12 :=
  #v[0x40705A0250C2B956, 0x407152EC0E758E6F, 0x40725AA2E3AF0B21, 0x4073720820155764,
     0x40749A0A791E127B, 0x4075D3A6D600CABC, 0x40771FE927CA0DE9, 0x40787FED4E47ADFF,
     0x4079F4E00A91D08E, 0x407B800000000000, 0x407D229EC465C8A2, 0x407EDE22007F791A]

/-- The default parameters of R7. -/
def Params.default : Params where
  textCap := 1024
  chordCap := 256
  sampleCap := 4194304
  pitch := defaultPitch
  ipId := 0x53594E07
  sinImpl := 0

/-- FREE VALUE. The byte that draw number `draw` gives at a byte address: the memories' contents at power-on (R45, R73,
U1), a read of the running command's output (R75, U2), the output range of an abandoned command (R263, U3). Log
entries 2 and 3. -/
opaque Config.freeByte (draw addr : Nat) : Byte

/-- FREE VALUE. An implementation's own sine, by number (R7, D7). Only admissible results are used: see
`Sys2Proof.Machine.sinOf`. Log entry 9. -/
opaque Config.sinOther (impl : Nat) (x : F64) : F64

/-- FREE VALUE. What SIN gives at an infinity or a NaN: R7 speaks of finite arguments only. Only values within the limits
that R153 and R154 set are used: see `Sys2Proof.Machine.sinOf`. Log entry 9. -/
opaque Config.sinNonFinite (impl : Nat) (x : F64) : F64

end Sys2Proof
end

