-- ==== Sys2Proof/Machine/State.lean ====
section
/-! DEFINITION. Machine/State.lean: the whole state of the block as plain data (10_state.md), the events the outside world
offers it, and the machine after reset. -/

namespace Sys2Proof.Machine

/-- The size of a bus access: 1, 2 or 4 bytes (R60). -/
inductive AccessSize where
  | one
  | two
  | four
  deriving DecidableEq, Repr

/-- What the outside world can do to the block: a host read, a host write (R60), or the assertion of the block's
reset input (R260). A write carries a 32-bit datum of which its size's low bytes are used (R60). -/
inductive BusEvent where
  | read (addr : Word) (size : AccessSize)
  | write (addr : Word) (size : AccessSize) (data : Word)
  | powerOn
  deriving DecidableEq, Repr

/-- One pending event. `afterCompletion` is the draw of LATENCY (R7, R270): if a command is in flight when this event comes
up, the command completes before it when the flag is set, and after it otherwise. A run from an accepted command has
at most one completion between two events, so these flags give every order R272 allows. -/
structure HostEvent where
  event : BusEvent
  afterCompletion : Bool
  deriving DecidableEq, Repr

/-- The stored fields of STATUS (R24, R25). BUSY is not stored (R43); the reserved bits read 0. -/
structure Status where
  /-- DONE [1]. -/
  done : Bool
  /-- ERR [2]. -/
  err : Bool
  /-- NAN [3], sticky. -/
  nan : Bool
  /-- OVR [4], sticky. -/
  ovr : Bool
  /-- WBUSY [5], sticky. -/
  wbusy : Bool
  /-- ADDRERR [6], sticky. -/
  addrerr : Bool
  /-- ERRCODE [15:8]. -/
  errcode : Byte
  deriving DecidableEq, Repr

/-- STATUS after reset: every field 0 (R261). -/
def Status.clear : Status where
  done := false
  err := false
  nan := false
  ovr := false
  wbusy := false
  addrerr := false
  errcode := 0

/-- The written bytes of the host-addressed memories TEXT, CTAB, VBUF, IBUF, MBUF and WBUF, by byte address (R61).
Canonical form: addresses strictly rising (`Memory.wf`). An address that is not listed holds no written value; what a read of
it returns is `State.byteAt` (a byte of the power-on draw, R73). -/
abbrev Memory := List Host.Cell

/-- The state of the block (R46: exhaustive), and the model's own five fields. -/
structure State where
  /-- CTRL.IE (R23). -/
  ctrlIE : Bool
  /-- STATUS but BUSY (R24, R25). -/
  status : Status
  /-- LAST_CMD: what a read of CMD returns (R26). -/
  lastCmd : Word
  /-- ENG: `none` is IDLE, `some w` is BUSY(w) (R43). -/
  eng : Option Word
  /-- TEXT_LEN (R27). -/
  textLen : Word
  /-- BPM (R28). -/
  bpm : Word
  /-- CHORD_COUNT (R29). -/
  chordCount : Word
  /-- GAIN_V (R30). -/
  gainV : F32
  /-- GAIN_I (R30). -/
  gainI : F32
  /-- VBUF_LEN (R31). -/
  vbufLen : Word
  /-- VBUF_SR (R31). -/
  vbufSr : Word
  /-- IBUF_LEN (R32). -/
  ibufLen : Word
  /-- IBUF_SR (R32). -/
  ibufSr : Word
  /-- MBUF_LEN (R33). -/
  mbufLen : Word
  /-- MBUF_SR (R33). -/
  mbufSr : Word
  /-- WAV_LEN (R34). -/
  wavLen : Word
  /-- The contents of TEXT, CTAB, VBUF, IBUF, MBUF and WBUF (R38 to R42). -/
  mem : Memory
  /-- Model's own: the parameters of R7, among them the constants that ID, CAP_TEXT, CAP_CHORD, CAP_SAMPLE and PITCH read
  (R22, R35, R40). No step changes them. -/
  params : Params
  /-- Model's own: the events still to come, in issue order (R60, R272). -/
  queue : List HostEvent
  /-- Model's own: the data of the reads performed so far, newest first, zero-extended to 32 bits (R60). -/
  busReads : List Word
  /-- Model's own: the number of the next draw of unspecified bytes (`Config.freeByte`). -/
  draws : Nat
  /-- Model's own: the number of the draw that filled the memories at power-on (R73). -/
  powerOnDraw : Nat
  deriving DecidableEq, Repr

/-- Why a step could stop the machine. The block has no such reason: a refused access sets ADDRERR (R69), a failing command
completes with a code (R232), every command completes (R217). So there is no constructor, and no step faults (safe: it
claims nothing that a rule does not say). -/
inductive Fault where
  deriving DecidableEq, Repr

/-- Why an instruction has no meaning. -/
inductive Refusal where
  /-- Raised by an arm of `exec` for an instruction that is not modelled yet, and by nothing else. Safe: the machine stops. No
  arm of this model raises it. -/
  | notModelled (mnemonic : String)
  deriving DecidableEq, Repr

/-- The machine after power-on reset (R45, R260 to R262, R264): every register at its reset value, ENG idle, nothing written to
the memories since power-on, the default parameters of R7, and nothing offered from outside yet. -/
def State.reset : State where
  ctrlIE := false
  status := Status.clear
  lastCmd := 0
  eng := none
  textLen := 0
  bpm := 120
  chordCount := 0
  gainV := 0x3F800000
  gainI := 0x3F800000
  vbufLen := 0
  vbufSr := 24000
  ibufLen := 0
  ibufSr := 24000
  mbufLen := 0
  mbufSr := 24000
  wavLen := 0
  mem := []
  params := Params.default
  queue := []
  busReads := []
  draws := 1
  powerOnDraw := 0

end Sys2Proof.Machine
end

