-- ==== Sys2Proof/Machine/Ops.lean ====
section
/-! DEFINITION. Machine/Ops.lean: the named operations over memory and registers (20_memory.md, 10_state.md), and the two ways
a command completes (45_control.md R212, 60_exceptions.md R232). -/

namespace Sys2Proof.Machine

/-! ## The list of written bytes -/

/-- The byte written at an address, if one was written since power-on. -/
def memRead? : Memory → Nat → Option Byte
  | [], _ => none
  | (k, v) :: rest, a => if k = a then some v else memRead? rest a

/-- Consecutive bytes from an address upwards. -/
def cellsFrom : Nat → List Byte → Memory
  | _, [] => []
  | a, b :: rest => (a, b) :: cellsFrom (a + 1) rest

/-- `MemWrite` (R64): the bytes at `base`, `base + 1`, ... become the given ones, every other byte keeps its content. -/
def memWrite (m : Memory) (base : Nat) (bytes : List Byte) : Memory :=
  m.filter (fun c => decide (c.1 < base)) ++ cellsFrom base bytes ++
    m.filter (fun c => decide (base + bytes.length ≤ c.1))

/-- The canonical form of memory: addresses strictly rising. -/
def Memory.wf : Memory → Bool
  | [] => true
  | [_] => true
  | c :: d :: rest => decide (c.1 < d.1) && Memory.wf (d :: rest)

/-! ## The address map (R61) -/

/-- Base of TEXT. -/
def textBase : Nat := 0x00001000
/-- Base of CTAB. -/
def ctabBase : Nat := 0x00002000
/-- Base of PITCH. -/
def pitchBase : Nat := 0x00003000
/-- Base of VBUF. -/
def vbufBase : Nat := 0x01000000
/-- Base of IBUF. -/
def ibufBase : Nat := 0x02000000
/-- Base of MBUF. -/
def mbufBase : Nat := 0x03000000
/-- Base of WBUF. -/
def wbufBase : Nat := 0x04000000
/-- One past the last byte of the register block REGS. -/
def regsEnd : Nat := 0x00001000

/-- The populated part of a memory window: its base, its length in bytes, and whether the host may only read it. -/
structure Window where
  base : Nat
  size : Nat
  readOnly : Bool
  deriving DecidableEq, Repr

/-- The memory windows of R61 with their populated parts: TEXT, CTAB, PITCH, VBUF, IBUF, MBUF, WBUF. PITCH and WBUF are read-only
to the host (R67). -/
def windows (p : Params) : List Window :=
  [⟨textBase, p.textCap, false⟩,
   ⟨ctabBase, 4 * p.chordCap, false⟩,
   ⟨pitchBase, 96, true⟩,
   ⟨vbufBase, 4 * p.sampleCap, false⟩,
   ⟨ibufBase, 4 * p.sampleCap, false⟩,
   ⟨mbufBase, 4 * p.sampleCap, false⟩,
   ⟨wbufBase, 44 + 2 * p.sampleCap, true⟩]

/-- All of [a, a + n) lies in the populated part of a window. -/
def Window.holds (w : Window) (a n : Nat) : Bool := decide (w.base ≤ a ∧ a + n ≤ w.base + w.size)

/-- The window whose populated part holds all of [a, a + n), if there is one (R66). -/
def windowOf (p : Params) (a n : Nat) : Option Window := (windows p).find? (fun w => w.holds a n)

/-- How many bytes an access has (R60). -/
def AccessSize.bytes : AccessSize → Nat
  | .one => 1
  | .two => 2
  | .four => 4

/-- What a host access reaches: a register offset, or memory bytes. -/
inductive Target where
  | register (offset : Nat)
  | memory
  deriving DecidableEq, Repr

/-- Where a host access of `n` bytes at `a` goes; `none` where R69 refuses it: misaligned (R63), not 4 bytes wide in REGS (R65), a
byte outside every populated part or unmapped (R66, R68), a write to a read-only window (R67). -/
def accessTarget (p : Params) (isWrite : Bool) (a n : Nat) : Option Target :=
  if a % n ≠ 0 then none
  else if a < regsEnd then (if n = 4 then some (.register a) else none)
  else match windowOf p a n with
    | none => none
    | some w => if isWrite && w.readOnly then none else some .memory

/-! ## The current content of a byte, and `MemRead` (R64) -/

/-- Byte of the PITCH window at `a`: entry n is at 0x3000 + 8n, low word first (R40, R62, R98). -/
def pitchByte (p : Params) (a : Nat) : Byte :=
  byteOfNat ((p.pitch.toList.getD ((a - pitchBase) / 8) 0).toNat) ((a - pitchBase) % 8)

/-- The current content of the byte at `a`: a PITCH byte (R40), else the byte last written there, else the byte of the
power-on draw, the same at every read (R73). What an address that memory does not list reads as is this last case. -/
def State.byteAt (s : State) (a : Nat) : Byte :=
  if pitchBase ≤ a ∧ a < pitchBase + 96 then pitchByte s.params a
  else (memRead? s.mem a).getD (Config.freeByte s.powerOnDraw a)

/-- The `n` bytes at `a` upwards. -/
def State.bytesAt (s : State) (a n : Nat) : List Byte := (List.range n).map (fun k => s.byteAt (a + k))

/-- `MemRead(a, 4)` of R64, the ENGINE's element read of CTAB and the sample memories (R13). -/
def State.wordAt (s : State) (a : Nat) : Word := BitVec.ofNat 32 (natOfBytes (s.bytesAt a 4))

/-- `MemWrite` on the state. -/
def State.writeBytes (s : State) (base : Nat) (bytes : List Byte) : State :=
  { s with mem := memWrite s.mem base bytes }

/-! ## Command errors and completion -/

/-- The error codes of R231 but NONE. -/
inductive CmdError where
  | illegalCmd
  | lenRange
  | zeroLength
  | badRate
  | rateMismatch
  | emptyChords
  | badChord
  | chordOverflow
  deriving DecidableEq, Repr

/-- The number of an error in STATUS.ERRCODE (R231). -/
def CmdError.code : CmdError → Byte
  | .illegalCmd => 0x01
  | .lenRange => 0x02
  | .zeroLength => 0x03
  | .badRate => 0x04
  | .rateMismatch => 0x05
  | .emptyChords => 0x06
  | .badChord => 0x07
  | .chordOverflow => 0x08

/-- Completion with an error, the block's way of taking an exception (R232): ERRCODE, ERR, DONE, BUSY and ENG are written and
nothing else. There is no saved pc, no mode and no vector (R238). -/
def failCommand (e : CmdError) (s : State) : State :=
  { s with status := { s.status with done := true, err := true, errcode := e.code }, eng := none }

/-- Completion with code NONE (R212): applied to the state in which the command's outputs and its sticky flag are
written. -/
def finishCommand (s : State) : State :=
  { s with status := { s.status with done := true, err := false, errcode := 0 }, eng := none }

/-- The completion step's end (R212): `result` is what the command's pseudocode made of the state `s`, its outputs written, or
the CmdError it raised, of which no output is written (R13). -/
def complete (s : State) (result : Except CmdError State) : State :=
  match result with
  | .ok t => finishCommand t
  | .error e => failCommand e s

/-! ## Legality used by several commands (R37) -/

/-- `rate_ok(r)`: 1 ≤ r ≤ 0x7FFFFFFF (R37). -/
def rateOk (r : Word) : Bool := decide (1 ≤ r.toNat ∧ r.toNat ≤ 0x7FFFFFFF)

/-- `len_ok(n)`: n ≤ SAMPLE_CAP (R37). -/
def lenOk (p : Params) (n : Word) : Bool := decide (n.toNat ≤ p.sampleCap)

/-- `clamp(v, lo, hi)` on integers (R11). -/
def clampInt (v lo hi : Int) : Int := min (max v lo) hi

/-- `clamp(v, 60, 200)`, the tempo's legal range (R9, R28). -/
def clampBpm (v : Nat) : Word := BitVec.ofNat 32 (min (max v 60) 200)

end Sys2Proof.Machine
end

