-- ==== Sys2Proof/Machine/Flags.lean ====
section
/-! DEFINITION. Machine/Flags.lean: STATUS as software sees it, its W1C write, the sticky flags, and irq (R24, R25, R214, R236). -/

namespace Sys2Proof.Machine

/-- STATUS.BUSY: 1 exactly when ENG is BUSY(w) (R43). -/
def State.busy (s : State) : Bool := s.eng.isSome

/-- The 32 bits a read of STATUS returns (R24, R25): [15:8] ERRCODE, [6] ADDRERR, [5] WBUSY, [4] OVR, [3] NAN, [2] ERR, [1] DONE,
[0] BUSY, every other bit 0. -/
def State.statusWord (s : State) : Word :=
  (0 : BitVec 16) ++ s.status.errcode ++ (0 : BitVec 1) ++ BitVec.ofBool s.status.addrerr ++
    BitVec.ofBool s.status.wbusy ++ BitVec.ofBool s.status.ovr ++ BitVec.ofBool s.status.nan ++
    BitVec.ofBool s.status.err ++ BitVec.ofBool s.status.done ++ BitVec.ofBool s.busy

/-- The W1C write of STATUS (R214): each of bits 1 to 6 is cleared where the value written has a 1. BUSY and ERRCODE stay. This is
also the block's return from its one exception and the interrupt's acknowledge (R237, R238). -/
def Status.clearBits (st : Status) (w : Word) : Status :=
  { st with
    done := st.done && !w.getLsbD 1
    err := st.err && !w.getLsbD 2
    nan := st.nan && !w.getLsbD 3
    ovr := st.ovr && !w.getLsbD 4
    wbusy := st.wbusy && !w.getLsbD 5
    addrerr := st.addrerr && !w.getLsbD 6 }

/-- Set STATUS.NAN where a completing command met a NaN (R175, R193); leave it otherwise. -/
def State.noteNan (s : State) (met : Bool) : State :=
  { s with status := { s.status with nan := s.status.nan || met } }

/-- Set STATUS.OVR: a CMD write was dropped (R211). -/
def State.setOvr (s : State) : State := { s with status := { s.status with ovr := true } }

/-- Set STATUS.WBUSY: another host write was dropped (R76). -/
def State.setWbusy (s : State) : State := { s with status := { s.status with wbusy := true } }

/-- Set STATUS.ADDRERR: a host access was refused (R69). -/
def State.setAddrErr (s : State) : State := { s with status := { s.status with addrerr := true } }

/-- The irq output: STATUS.DONE and CTRL.IE (R44, R236). -/
def State.irq (s : State) : Bool := s.status.done && s.ctrlIE

/-- The 32 bits a read of CTRL returns: IE in bit 0, every other bit 0 (R23, R215). -/
def State.ctrlWord (s : State) : Word := if s.ctrlIE then 1 else 0

end Sys2Proof.Machine
end

