-- ==== Sys2Proof/Machine/Control.lean ====
section
/-! DEFINITION. Machine/Control.lean: NOP, the issue of a command, overrun, and the completion of a word that is no command
(45_control.md). -/

namespace Sys2Proof.Machine

/-- NOP's pseudocode: nothing (R213). -/
def runNop (s : State) : Except CmdError State := .ok s

/-- NOP (R213), completed (R212). -/
def execNop (s : State) : Host.Outcome State Fault Refusal := .next (complete s (runNop s))

/-- Acceptance of a command word by an idle ENGINE (R210): LAST_CMD, DONE, ERR, ERRCODE, BUSY and ENG in one step. The sticky flags
stay. Every word is accepted, legal or not (R94). -/
def issue (w : Word) (s : State) : State :=
  { s with
    lastCmd := w
    status := { s.status with done := false, err := false, errcode := 0 }
    eng := some w }

/-- A host write of CMD: accepted while IDLE (R210), dropped with OVR while BUSY (R211). -/
def writeCmd (w : Word) (s : State) : State := if s.busy then s.setOvr else issue w s

/-- Completion of a word that decodes to ILLEGAL (R94, R212, R233): ILLEGAL_CMD, and nothing else changes. -/
def completeIllegal (s : State) : Host.Outcome State Fault Refusal := .next (failCommand .illegalCmd s)

end Sys2Proof.Machine
end

