-- ==== Sys2Proof/Machine/Float.lean ====
section
/-! DEFINITION. Machine/Float.lean: IEEE 754 binary32 and binary64 arithmetic on patterns, round to nearest even, subnormals
kept, no exception flags (R12; the formats are general knowledge, 93_implementation_defined.md G1). Every operation is
computed exactly on integers and rounded once. -/

namespace Sys2Proof.Machine

/-- What a pattern stands for: a NaN, an infinity, or the finite number (-1)^neg · mag · 2^exp. -/
inductive Datum where
  | nan
  | inf (neg : Bool)
  | fin (neg : Bool) (mag : Nat) (exp : Int)
  deriving DecidableEq, Repr

/-- The number that the low bits of a pattern stand for, in the binary format with `fb` fraction bits and `eb` exponent bits
(R97: binary32 is 23 and 8; R98: binary64 is 52 and 11). -/
def datumOf (fb eb pattern : Nat) : Datum :=
  let frac := pattern % 2 ^ fb
  let bexp := pattern / 2 ^ fb % 2 ^ eb
  let neg := decide (pattern / 2 ^ (fb + eb) % 2 = 1)
  let qmin : Int := 2 - 2 ^ (eb - 1) - fb
  if bexp = 2 ^ eb - 1 then (if frac = 0 then .inf neg else .nan)
  else if bexp = 0 then .fin neg frac qmin
  else .fin neg (2 ^ fb + frac) (qmin + (bexp - 1 : Nat))

/-- The datum of a binary64 pattern: `F64(b)` of R12. -/
def datum64 (x : F64) : Datum := datumOf 52 11 x.toNat

/-- The datum of a binary32 pattern: `F32(b)` of R12. -/
def datum32 (x : F32) : Datum := datumOf 23 8 x.toNat

/-- floor(log2(num / den)) for positive `num` and `den`. -/
def floorLog2 (num den : Nat) : Int :=
  let e : Int := (num.log2 : Int) - (den.log2 : Int)
  if den * 2 ^ e.toNat ≤ num * 2 ^ (-e).toNat then e else e - 1

/-- num / den rounded to the nearest integer, ties to even. -/
def roundEven (num den : Nat) : Nat :=
  let k := num / den
  let r := num % den
  if den < 2 * r ∨ (2 * r = den ∧ k % 2 = 1) then k + 1 else k

/-- The pattern (sign bit 0) of num / den rounded to nearest even in the format with `fb` fraction and `eb` exponent bits,
with gradual underflow, overflowing to infinity: `rne64(r)` and `rne32(r)` of R12 for r ≥ 0. The quantum 2^q is the weight of
the last bit kept; consecutive patterns are consecutive numbers, so the pattern is (q - qmin)·2^fb plus the rounded multiple of
the quantum, also where rounding carries into the next binade. -/
def roundMag (fb eb num den : Nat) : Nat :=
  if num = 0 then 0
  else
    let qmin : Int := 2 - 2 ^ (eb - 1) - fb
    let q : Int := max (floorLog2 num den - fb) qmin
    let k := roundEven (num * 2 ^ (-q).toNat) (den * 2 ^ q.toNat)
    min ((q - qmin).toNat * 2 ^ fb + k) ((2 ^ eb - 1) * 2 ^ fb)

/-- The binary64 pattern with a given sign and magnitude pattern. -/
def signed64 (neg : Bool) (mag : Nat) : F64 := BitVec.ofNat 64 (if neg then 2 ^ 63 + mag else mag)

/-- The binary32 pattern with a given sign and magnitude pattern. -/
def signed32 (neg : Bool) (mag : Nat) : F32 := BitVec.ofNat 32 (if neg then 2 ^ 31 + mag else mag)

/-- `rne64` of (-1)^neg · num / den. -/
def rne64 (neg : Bool) (num den : Nat) : F64 := signed64 neg (roundMag 52 11 num den)

/-- `rne32` of (-1)^neg · num / den. -/
def rne32 (neg : Bool) (num den : Nat) : F32 := signed32 neg (roundMag 23 8 num den)

/-- The magnitude mag · 2^exp as a fraction: its numerator. -/
def numOf (mag : Nat) (exp : Int) : Nat := mag * 2 ^ exp.toNat

/-- The magnitude mag · 2^exp as a fraction: its denominator. -/
def denOf (exp : Int) : Nat := 2 ^ (-exp).toNat

/-- The binary64 NaN an operation answers. R12: no rule depends on a NaN's payload or sign. -/
def nan64 : F64 := 0x7FF8000000000000

/-- The binary64 infinities. -/
def inf64 (neg : Bool) : F64 := signed64 neg 0x7FF0000000000000

/-- `isNaN` of R12. -/
def isNaN64 (x : F64) : Bool := decide (datum64 x = .nan)

/-- The integer (-1)^neg · mag. -/
def signedInt (neg : Bool) (mag : Nat) : Int := if neg then -(mag : Int) else (mag : Int)

/-- `add64` of R12: the exact sum rounded once. A zero sum is +0 unless both operands are negative zeros. -/
def add64 (x y : F64) : F64 :=
  match datum64 x, datum64 y with
  | .nan, _ => nan64
  | _, .nan => nan64
  | .inf a, .inf b => if a = b then inf64 a else nan64
  | .inf a, .fin _ _ _ => inf64 a
  | .fin _ _ _, .inf b => inf64 b
  | .fin a m p, .fin b n q =>
    let e := min p q
    let v := signedInt a (m * 2 ^ (p - e).toNat) + signedInt b (n * 2 ^ (q - e).toNat)
    if v = 0 then signed64 (a && b) 0
    else rne64 (decide (v < 0)) (numOf v.natAbs e) (denOf e)

/-- `mul64` of R12: the exact product rounded once; 0 × ∞ is NaN; signs combine by exclusive or. -/
def mul64 (x y : F64) : F64 :=
  match datum64 x, datum64 y with
  | .nan, _ => nan64
  | _, .nan => nan64
  | .inf a, .inf b => inf64 (a ^^ b)
  | .inf a, .fin b n _ => if n = 0 then nan64 else inf64 (a ^^ b)
  | .fin a m _, .inf b => if m = 0 then nan64 else inf64 (a ^^ b)
  | .fin a m p, .fin b n q => rne64 (a ^^ b) (numOf (m * n) (p + q)) (denOf (p + q))

/-- `div64` of R12: the exact quotient rounded once; 0 / 0 and ∞ / ∞ are NaN, a nonzero number / 0 is an infinity (IEEE 754). -/
def div64 (x y : F64) : F64 :=
  match datum64 x, datum64 y with
  | .nan, _ => nan64
  | _, .nan => nan64
  | .inf _, .inf _ => nan64
  | .inf a, .fin b _ _ => inf64 (a ^^ b)
  | .fin a _ _, .inf b => signed64 (a ^^ b) 0
  | .fin a m p, .fin b n q =>
    if n = 0 then (if m = 0 then nan64 else inf64 (a ^^ b))
    else rne64 (a ^^ b) (numOf m (p - q)) (n * denOf (p - q))

/-- The binary64 value of a non-negative integer, rounded to nearest even (exact below 2^53, R147, R148). -/
def nat64 (n : Nat) : F64 := rne64 false n 1

/-- `f32to64` of R12: exact widening, keeping the sign of zeros and infinities and NaN-ness. -/
def f32to64 (x : F32) : F64 :=
  match datum32 x with
  | .nan => nan64
  | .inf a => inf64 a
  | .fin a m e => rne64 a (numOf m e) (denOf e)

/-- `f64to32` of R12: `rne32` of a binary64 value. A NaN gives a NaN. -/
def f64to32 (x : F64) : F32 :=
  match datum64 x with
  | .nan => 0x7FC00000
  | .inf a => signed32 a 0x7F800000
  | .fin a m e => rne32 a (numOf m e) (denOf e)

/-- x < y as real numbers, with the infinities at the ends. False where either is a NaN. -/
def lt64 (x y : F64) : Bool :=
  match datum64 x, datum64 y with
  | .nan, _ => false
  | _, .nan => false
  | .inf a, .inf b => a && !b
  | .inf a, .fin _ _ _ => a
  | .fin _ _ _, .inf b => !b
  | .fin a m p, .fin b n q =>
    let e := min p q
    decide (signedInt a (m * 2 ^ (p - e).toNat) < signedInt b (n * 2 ^ (q - e).toNat))

/-- A finite binary64 pattern. -/
def isFinite64 (x : F64) : Bool := decide (x.toNat % 2 ^ 63 < 0x7FF0000000000000)

/-- A finite binary64 pattern of magnitude at most 1. -/
def magAtMostOne64 (x : F64) : Bool := decide (x.toNat % 2 ^ 63 ≤ 0x3FF0000000000000)

end Sys2Proof.Machine
end

