-- ==== Sys2Proof/Machine/Operands.lean ====
section
/-! DEFINITION. Machine/Operands.lean: how a command assembles its operands from registers and memories (R71, R93). -/

namespace Sys2Proof.Machine

/-- TEXT[0 .. TEXT_LEN), the parse commands' input (R110). -/
def State.text (s : State) : List Byte := s.bytesAt textBase s.textLen.toNat

/-- CTAB[k] (R13, R96). -/
def State.chord (s : State) (k : Nat) : Word := s.wordAt (ctabBase + 4 * k)

/-- PITCH_HZ[n] (R13, R40). -/
def State.pitchHz (s : State) (n : Nat) : F64 := s.params.pitch.toList.getD n 0

/-- The three sample memories as operands (R41, R92): the vocal, the instrumental and the mix. -/
inductive Wave where
  | vbuf
  | ibuf
  | mbuf
  deriving DecidableEq, Repr

/-- Host address of sample 0 (R61). -/
def Wave.base : Wave → Nat
  | .vbuf => vbufBase
  | .ibuf => ibufBase
  | .mbuf => mbufBase

/-- The LEN register of a waveform (R31 to R33). -/
def Wave.len (s : State) : Wave → Word
  | .vbuf => s.vbufLen
  | .ibuf => s.ibufLen
  | .mbuf => s.mbufLen

/-- The SR register of a waveform (R31 to R33). -/
def Wave.rate (s : State) : Wave → Word
  | .vbuf => s.vbufSr
  | .ibuf => s.ibufSr
  | .mbuf => s.mbufSr

/-- Sample i of a waveform's memory, as a binary32 pattern (R13, R97). -/
def Wave.sample (s : State) (w : Wave) (i : Nat) : F32 := s.wordAt (w.base + 4 * i)

/-- The bytes of a list of 32-bit elements in address order (R62). -/
def wordBytes (ws : List Word) : List Byte := ws.flatMap (fun w => bytesOfNat 4 w.toNat)

end Sys2Proof.Machine
end

