-- ==== Sys2Proof/Machine/Mixer.lean ====
section
/-! DEFINITION. Machine/Mixer.lean: MIX in its two forms (43_mixer.md). -/

namespace Sys2Proof.Machine

/-- +1.0, the limiter's upper bound (R9, R174). -/
def plusOne64 : F64 := 0x3FF0000000000000

/-- -1.0, the limiter's lower bound (R9, R174). -/
def minusOne64 : F64 := 0xBFF0000000000000

/-- Sample i of an operand as binary64, +0.0 beyond its length (R172). -/
def paddedSample (s : State) (w : Wave) (i : Nat) : F64 :=
  if i < (w.len s).toNat then f32to64 (w.sample s i) else 0

/-- The gained sum s(i) = add64(mul64(v, gv), mul64(x, gi)) (R173). -/
def mixSum (v gv x gi : F64) : F64 := add64 (mul64 v gv) (mul64 x gi)

/-- The limiter: -1.0 below -1, +1.0 above 1, the sum itself between (R174). -/
def limit (x : F64) : F64 :=
  if lt64 x minusOne64 then minusOne64 else if lt64 plusOne64 x then plusOne64 else x

/-- y(i): +0.0 for a NaN sum (R175), else the limited sum (R174). -/
def mixLimited (x : F64) : F64 := if isNaN64 x then 0 else limit x

/-- The sum at sample i of VBUF and the operand `x` with the two gain registers (R170 to R173). -/
def mixSumAt (s : State) (x : Wave) (i : Nat) : F64 :=
  mixSum (paddedSample s .vbuf i) (f32to64 s.gainV) (paddedSample s x i) (f32to64 s.gainI)

/-- Output length: N = max(NV, NX) (R171). -/
def mixLength (s : State) (x : Wave) : Nat := max s.vbufLen.toNat (x.len s).toNat

/-- The first error that MIX's checks meet, in the order of R177 and R234. -/
def mixError (s : State) (x : Wave) : Option CmdError :=
  if !lenOk s.params s.vbufLen || !lenOk s.params (x.len s) then some .lenRange
  else if !rateOk s.vbufSr || !rateOk (x.rate s) then some .badRate
  else if s.vbufSr ≠ x.rate s then some .rateMismatch
  else none

/-- MBUF[0 .. N) as MIX computes it (R176). -/
def mixSamples (s : State) (x : Wave) : List F32 :=
  (List.range (mixLength s x)).map (fun i => f64to32 (mixLimited (mixSumAt s x i)))

/-- Some sum was a NaN (R175). -/
def mixMetNan (s : State) (x : Wave) : Bool :=
  (List.range (mixLength s x)).any (fun i => isNaN64 (mixSumAt s x i))

/-- MIX's pseudocode with instrumental operand `x` (R177): MBUF[0 .. N), MBUF_LEN, MBUF_SR, STATUS.NAN. -/
def runMix (x : Wave) (s : State) : Except CmdError State :=
  match mixError s x with
  | some e => .error e
  | none =>
    .ok ({ s.writeBytes mbufBase (wordBytes (mixSamples s x)) with
            mbufLen := BitVec.ofNat 32 (mixLength s x)
            mbufSr := s.vbufSr }.noteNan (mixMetNan s x))

/-- MIX I (R177): the instrumental operand is IBUF; completed (R212). -/
def execMixI (s : State) : Host.Outcome State Fault Refusal := .next (complete s (runMix .ibuf s))

/-- MIX V (R177): the vocal mixed with itself; completed (R212). -/
def execMixV (s : State) : Host.Outcome State Fault Refusal := .next (complete s (runMix .vbuf s))

end Sys2Proof.Machine
end

