-- ==== Sys2Proof/Machine/Parser.lean ====
section
/-! DEFINITION. Machine/Parser.lean: PTEMPO and PCHORD (41_parser.md). Bytes are characters; the codes are ASCII (R13, R110). -/

namespace Sys2Proof.Machine

/-! ## Characters and tokens -/

/-- A delimiter (R111): whitespace 0x09 to 0x0D and 0x20, or one of hyphen, vertical bar, comma. -/
def isDelimiter (b : Byte) : Bool :=
  decide (0x09 ≤ b.toNat ∧ b.toNat ≤ 0x0D) || b == 0x20 || b == 0x2D || b == 0x7C || b == 0x2C

/-- An ASCII digit, 0x30 to 0x39 (R117). -/
def isDigit (b : Byte) : Bool := decide (0x30 ≤ b.toNat ∧ b.toNat ≤ 0x39)

/-- The tokens of a text that begins inside a token whose bytes so far are `cur`. -/
def tokensFrom (cur : List Byte) : List Byte → List (List Byte)
  | [] => if cur = [] then [] else [cur]
  | b :: rest =>
    if isDelimiter b then
      (if cur = [] then tokensFrom [] rest else cur :: tokensFrom [] rest)
    else tokensFrom (cur ++ [b]) rest

/-- tokens(S) of R112: the maximal non-empty runs of non-delimiter bytes, in order. -/
def tokens (s : List Byte) : List (List Byte) := tokensFrom [] s

/-! ## Roots and qualities -/

/-- The pitch class of a natural root name: C 0, D 2, E 4, F 5, G 7, A 9, B 11 (R113). -/
def naturalClass (b : Byte) : Option Nat :=
  if b = 0x43 then some 0
  else if b = 0x44 then some 2
  else if b = 0x45 then some 4
  else if b = 0x46 then some 5
  else if b = 0x47 then some 7
  else if b = 0x41 then some 9
  else if b = 0x42 then some 11
  else none

/-- The pitch class of a root name with a sharp: C#, D#, F#, G#, A#. E# and B# are no names (R113). -/
def sharpClass (b : Byte) : Option Nat :=
  if b = 0x43 then some 1
  else if b = 0x44 then some 3
  else if b = 0x46 then some 6
  else if b = 0x47 then some 8
  else if b = 0x41 then some 10
  else none

/-- The pitch class of a root name with a flat: Db, Eb, Gb, Ab, Bb. Fb and Cb are no names (R113). -/
def flatClass (b : Byte) : Option Nat :=
  if b = 0x44 then some 1
  else if b = 0x45 then some 3
  else if b = 0x47 then some 6
  else if b = 0x41 then some 8
  else if b = 0x42 then some 10
  else none

/-- The root of a token, if it has one (R114): anchored at the first byte, one accidental taken greedily, never given back. -/
def tokenRoot : List Byte → Option Nat
  | [] => none
  | [t0] => naturalClass t0
  | t0 :: t1 :: _ =>
    if t1 = 0x23 then sharpClass t0
    else if t1 = 0x62 then flatClass t0
    else naturalClass t0

/-- The 3 bytes "maj" stand somewhere in a token. -/
def containsMaj : List Byte → Bool
  | [] => false
  | b :: rest => (b :: rest).take 3 == [0x6D, 0x61, 0x6A] || containsMaj rest

/-- A token is minor iff it contains "m" and does not contain "maj" (R115). -/
def tokenMinor (t : List Byte) : Bool := t.contains 0x6D && !containsMaj t

/-- A CTAB entry: ROOT in [3:0], MINOR in [4], zeros above (R96). -/
def chordEntry (root : Nat) (minor : Bool) : Word := BitVec.ofNat 32 ((if minor then 16 else 0) + root)

/-- The CTAB entry of a token with a root; a token without one is dropped (R114, R118). -/
def tokenEntry (t : List Byte) : Option Word := (tokenRoot t).map (fun r => chordEntry r (tokenMinor t))

/-- FALLBACK: C major, G major, A minor, F major (R116). -/
def fallbackChords : List Word := [0x00, 0x07, 0x19, 0x05]

/-- The chords recognised in a text, in order, before the fallback (R118). -/
def recognisedChords (text : List Byte) : List Word := (tokens text).filterMap tokenEntry

/-- The ChordSequence of a text: the recognised chords, or FALLBACK if there are none (R116, R118). -/
def chordSequence (text : List Byte) : List Word :=
  if recognisedChords text = [] then fallbackChords else recognisedChords text

/-! ## The tempo -/

/-- The first maximal run of digits (R117). -/
def firstDigits (text : List Byte) : List Byte := (text.dropWhile (fun b => !isDigit b)).takeWhile isDigit

/-- The exact number a run of digits spells, most significant first, after the number `acc` (R117). -/
def decimalFrom (acc : Nat) : List Byte → Nat
  | [] => acc
  | d :: rest => decimalFrom (10 * acc + (d.toNat - 0x30)) rest

/-- `parseTempo` (R117): 120 without a digit, else the first run's number; clamped to [60, 200]. -/
def parseTempo (text : List Byte) : Word :=
  clampBpm (if firstDigits text = [] then 120 else decimalFrom 0 (firstDigits text))

/-! ## The two commands -/

/-- TEXT_LEN exceeds the TEXT memory (R110). -/
def textTooLong (s : State) : Bool := decide (s.params.textCap < s.textLen.toNat)

/-- PTEMPO's pseudocode (R117). -/
def runPtempo (s : State) : Except CmdError State :=
  if textTooLong s then .error .lenRange
  else .ok { s with bpm := parseTempo s.text }

/-- Write a chord sequence: CTAB[0 .. m) and CHORD_COUNT (R118). -/
def writeChords (s : State) (seq : List Word) : State :=
  { s.writeBytes ctabBase (wordBytes seq) with chordCount := BitVec.ofNat 32 seq.length }

/-- PCHORD's pseudocode (R118): LEN_RANGE first, then CHORD_OVERFLOW (R234). -/
def runPchord (s : State) : Except CmdError State :=
  if textTooLong s then .error .lenRange
  else if s.params.chordCap < (chordSequence s.text).length then .error .chordOverflow
  else .ok (writeChords s (chordSequence s.text))

/-- PTEMPO (R117), completed (R212). -/
def execPtempo (s : State) : Host.Outcome State Fault Refusal := .next (complete s (runPtempo s))

/-- PCHORD (R118), completed (R212). -/
def execPchord (s : State) : Host.Outcome State Fault Refusal := .next (complete s (runPchord s))

end Sys2Proof.Machine
end

