-- ==== Sys2Proof/Machine/InFlight.lean ====
section
/-! DEFINITION. Machine/InFlight.lean: the memory bytes that a command in flight may be writing (R71 right column, R75, R263). -/

namespace Sys2Proof.Machine

/-- How many CTAB entries PCHORD would write: the length of the sequence it forms, none where TEXT_LEN keeps it from forming
one (R118). -/
def pchordCount (s : State) : Nat := if textTooLong s then 0 else (chordSequence s.text).length

/-- The output range of a command: base and length in bytes of CTAB[0 .. m), IBUF[0 .. N), MBUF[0 .. N) or WBUF[0 .. 44 + 2N), cut at
the end of the populated part; empty for NOP and PTEMPO (R71, R263). Whether the command will succeed is not asked
(log entry 4). -/
def outputRange (i : Instr) (s : State) : Nat × Nat :=
  match i with
  | .nop => (0, 0)
  | .ptempo => (0, 0)
  | .pchord => (ctabBase, 4 * min (pchordCount s) s.params.chordCap)
  | .synth => (ibufBase, 4 * min s.ibufLen.toNat s.params.sampleCap)
  | .mixI => (mbufBase, 4 * min (mixLength s .ibuf) s.params.sampleCap)
  | .mixV => (mbufBase, 4 * min (mixLength s .vbuf) s.params.sampleCap)
  | .encodeM => (wbufBase, 44 + 2 * min s.mbufLen.toNat s.params.sampleCap)
  | .encodeV => (wbufBase, 44 + 2 * min s.vbufLen.toNat s.params.sampleCap)
  | .encodeI => (wbufBase, 44 + 2 * min s.ibufLen.toNat s.params.sampleCap)

/-- The output range of the word in flight: empty while IDLE and for an ILLEGAL word (R263). -/
def State.inFlightRange (s : State) : Nat × Nat :=
  match s.eng with
  | none => (0, 0)
  | some w =>
    match decodeWord w with
    | .ok i => outputRange i s
    | .error _ => (0, 0)

/-- The byte at `a` belongs to the output range of the word in flight (R75). -/
def State.inFlight (s : State) (a : Nat) : Bool :=
  decide (s.inFlightRange.1 ≤ a ∧ a < s.inFlightRange.1 + s.inFlightRange.2)

end Sys2Proof.Machine
end

