-- ==== Sys2Proof/Machine/Reset.lean ====
section
/-! DEFINITION. Machine/Reset.lean: power-on reset and soft reset (70_reset_and_hazards.md). -/

namespace Sys2Proof.Machine

/-- Every register of R21 at its reset value, LAST_CMD 0, ENG IDLE (R261): what both resets do. Memory is not touched. -/
def resetRegisters (s : State) : State :=
  { s with
    ctrlIE := false
    status := Status.clear
    lastCmd := 0
    eng := none
    textLen := 0
    bpm := 120
    chordCount := 0
    gainV := 0x3F800000
    gainI := 0x3F800000
    vbufLen := 0
    vbufSr := 24000
    ibufLen := 0
    ibufSr := 24000
    mbufLen := 0
    mbufSr := 24000
    wavLen := 0 }

/-- The bytes of draw number `draw` at `base` upwards (log entry 3). -/
def freeBytes (draw base n : Nat) : List Byte := (List.range n).map (fun k => Config.freeByte draw (base + k))

/-- The output range of an abandoned command becomes unspecified: each byte of it a fresh draw, stable until written (R263). -/
def abandonOutput (s : State) : State :=
  { s.writeBytes s.inFlightRange.1 (freeBytes s.draws s.inFlightRange.1 s.inFlightRange.2) with draws := s.draws + 1 }

/-- Soft reset (R260, R261, R263): the registers reset; while BUSY the command in flight is abandoned and its output range
becomes unspecified; while IDLE no memory changes. -/
def softReset (s : State) : State := resetRegisters (if s.busy then abandonOutput s else s)

/-- Power-on reset (R260 to R262), also when the system asserts the block's reset input in the middle of a run: the registers
reset and every memory byte is drawn anew. -/
def powerOnReset (s : State) : State :=
  { resetRegisters s with mem := [], powerOnDraw := s.draws, draws := s.draws + 1 }

end Sys2Proof.Machine
end

