-- ==== Sys2Proof/Machine/Bus.lean ====
section
/-! DEFINITION. Machine/Bus.lean: the host's reads and writes (20_memory.md, 45_control.md section 3, R271). -/

namespace Sys2Proof.Machine

/-! ## The register block (R21) -/

/-- The registers of R21 by name. -/
inductive Reg where
  | id | ctrl | status | cmd | textLen | bpm | chordCount | gainV | gainI | vbufLen | vbufSr
  | ibufLen | ibufSr | mbufLen | mbufSr | wavLen | capText | capChord | capSample
  deriving DecidableEq, Repr

/-- The register at each offset from 0x000 in steps of 4 (R21). -/
def regList : List Reg :=
  [.id, .ctrl, .status, .cmd, .textLen, .bpm, .chordCount, .gainV, .gainI, .vbufLen, .vbufSr,
   .ibufLen, .ibufSr, .mbufLen, .mbufSr, .wavLen, .capText, .capChord, .capSample]

/-- The register at an aligned offset; none at the reserved offsets 0x04C to 0xFFC (R36). -/
def regAt (offset : Nat) : Option Reg := regList[offset / 4]?

/-- What a read of a register returns (R22 to R35). Reads have no side effects (R70). -/
def readReg (s : State) : Reg → Word
  | .id => s.params.ipId
  | .ctrl => s.ctrlWord
  | .status => s.statusWord
  | .cmd => s.lastCmd
  | .textLen => s.textLen
  | .bpm => s.bpm
  | .chordCount => s.chordCount
  | .gainV => s.gainV
  | .gainI => s.gainI
  | .vbufLen => s.vbufLen
  | .vbufSr => s.vbufSr
  | .ibufLen => s.ibufLen
  | .ibufSr => s.ibufSr
  | .mbufLen => s.mbufLen
  | .mbufSr => s.mbufSr
  | .wavLen => s.wavLen
  | .capText => BitVec.ofNat 32 s.params.textCap
  | .capChord => BitVec.ofNat 32 s.params.chordCap
  | .capSample => BitVec.ofNat 32 s.params.sampleCap

/-- A CTRL write, idle or busy (R215): soft reset if bit 1 is set, with IE 0 whatever bit 0 holds (R23), else IE becomes bit 0. -/
def writeCtrl (v : Word) (s : State) : State :=
  if v.getLsbD 1 then softReset s else { s with ctrlIE := v.getLsbD 0 }

/-- A STATUS write, idle or busy (R214). -/
def writeStatus (v : Word) (s : State) : State := { s with status := s.status.clearBits v }

/-- A write of a register while IDLE (R22 to R35): plain storage, but for CTRL, STATUS and CMD, the clamp of BPM (R28), and the
read-only registers, which ignore it and set no flag (R36). -/
def writeReg (v : Word) (s : State) : Reg → State
  | .id => s
  | .ctrl => writeCtrl v s
  | .status => writeStatus v s
  | .cmd => writeCmd v s
  | .textLen => { s with textLen := v }
  | .bpm => { s with bpm := clampBpm v.toNat }
  | .chordCount => { s with chordCount := v }
  | .gainV => { s with gainV := v }
  | .gainI => { s with gainI := v }
  | .vbufLen => { s with vbufLen := v }
  | .vbufSr => { s with vbufSr := v }
  | .ibufLen => { s with ibufLen := v }
  | .ibufSr => { s with ibufSr := v }
  | .mbufLen => { s with mbufLen := v }
  | .mbufSr => { s with mbufSr := v }
  | .wavLen => s
  | .capText => s
  | .capChord => s
  | .capSample => s

/-- A performed write at a register offset. While BUSY only CTRL and STATUS are written; a CMD write sets OVR, a write to any other
register or reserved offset sets WBUSY (R76, R211, R36, C11). While IDLE a reserved offset ignores it (R36). -/
def writeOffset (offset : Nat) (v : Word) (s : State) : State :=
  match regAt offset with
  | some .ctrl => writeCtrl v s
  | some .status => writeStatus v s
  | some .cmd => writeCmd v s
  | some r => if s.busy then s.setWbusy else writeReg v s r
  | none => if s.busy then s.setWbusy else s

/-! ## Memory windows -/

/-- What a read of a memory byte returns: a fresh draw inside the output range of the command in flight (R75), its content
elsewhere. -/
def State.seenByte (s : State) (a : Nat) : Byte :=
  if s.inFlight a then Config.freeByte s.draws a else s.byteAt a

/-- The bytes a read of `n` bytes at `a` returns (R64, R75). -/
def State.seenBytes (s : State) (a n : Nat) : List Byte := (List.range n).map (fun k => s.seenByte (a + k))

/-- A draw was used by a read of `n` bytes at `a`. -/
def State.readsInFlight (s : State) (a n : Nat) : Bool := (List.range n).any (fun k => s.inFlight (a + k))

/-- A performed write to a memory window: dropped with WBUSY while BUSY (R76), else the bytes are stored together (R66, R70). -/
def writeMemory (a n : Nat) (v : Word) (s : State) : State :=
  if s.busy then s.setWbusy else s.writeBytes a (bytesOfNat n v.toNat)

/-! ## One access -/

/-- The data of a read, zero-extended, given to the host. -/
def State.answer (s : State) (v : Word) : State := { s with busReads := v :: s.busReads }

/-- A host read of `n` bytes at `a`: refused with ADDRERR and 0 (R69), or performed. -/
def hostRead (a n : Nat) (s : State) : State :=
  match accessTarget s.params false a n with
  | none => s.setAddrErr.answer 0
  | some (.register offset) =>
    s.answer (match regAt offset with
      | some r => readReg s r
      | none => 0)
  | some .memory =>
    { s.answer (BitVec.ofNat 32 (natOfBytes (s.seenBytes a n))) with
      draws := if s.readsInFlight a n then s.draws + 1 else s.draws }

/-- A host write of the low `n` bytes of `v` at `a`: refused with ADDRERR (R69, decided before the busy check), or performed. -/
def hostWrite (a n : Nat) (v : Word) (s : State) : State :=
  match accessTarget s.params true a n with
  | none => s.setAddrErr
  | some (.register offset) => writeOffset offset v s
  | some .memory => writeMemory a n v s

/-- What one event of the outside world does. -/
def perform (e : BusEvent) (s : State) : State :=
  match e with
  | .read a size => hostRead a.toNat size.bytes s
  | .write a size v => hostWrite a.toNat size.bytes v s
  | .powerOn => powerOnReset s

end Sys2Proof.Machine
end

