-- ==== Sys2Proof/Machine/Encoder.lean ====
section
/-! DEFINITION. Machine/Encoder.lean: ENCODE in its three forms (44_encoder.md). -/

namespace Sys2Proof.Machine

/-- 32768.0, the quantizer's scale (R191). -/
def scale64 : F64 := 0x40E0000000000000

/-- floor(mag · 2^exp + 1/2), exact (R192). -/
def roundHalfUp (mag : Nat) (exp : Int) : Nat :=
  if 0 ≤ exp then mag * 2 ^ exp.toNat else (2 * mag + 2 ^ (-exp).toNat) / 2 ^ ((-exp).toNat + 1)

/-- The integer of a scaled sample y: sign(y)·floor(|y| + 1/2) clamped to [-32768, 32767], the extremes for the infinities, 0 for
a NaN (R192, R193). -/
def quantizeScaled (y : F64) : Int :=
  match datum64 y with
  | .nan => 0
  | .inf neg => if neg then -32768 else 32767
  | .fin neg mag exp => clampInt (signedInt neg (roundHalfUp mag exp)) (-32768) 32767

/-- The scaled sample y = mul64(f32to64(x), 32768.0) (R191). -/
def scaleSample (x : F32) : F64 := mul64 (f32to64 x) scale64

/-- The quantizer (R191 to R193). -/
def quantize (x : F32) : Int := quantizeScaled (scaleSample x)

/-- The two payload bytes of a sample: `u16(q)`, low byte first (R10, R195). -/
def sampleBytes (x : F32) : List Byte := bytesOfNat 2 (BitVec.ofInt 16 (quantize x)).toNat

/-- The 44-byte header for N samples at rate R (R194): RIFF, chunk size, WAVE, fmt , its size, format, channels, rate, byte rate,
block align, bits per sample, data, data length. -/
def wavHeader (n r : Nat) : List Byte :=
  bytesOfNat 4 0x46464952 ++ bytesOfNat 4 (36 + 2 * n) ++ bytesOfNat 4 0x45564157 ++
  bytesOfNat 4 0x20746D66 ++ bytesOfNat 4 16 ++ bytesOfNat 2 1 ++ bytesOfNat 2 1 ++
  bytesOfNat 4 r ++ bytesOfNat 4 (2 * r) ++ bytesOfNat 2 2 ++ bytesOfNat 2 16 ++
  bytesOfNat 4 0x61746164 ++ bytesOfNat 4 (2 * n)

/-- The samples of the source waveform, in index order (R190). -/
def waveSamples (s : State) (src : Wave) : List F32 :=
  (List.range (src.len s).toNat).map (src.sample s)

/-- The whole stream: header, then payload (R194, R195). -/
def wavStream (s : State) (src : Wave) : List Byte :=
  wavHeader (src.len s).toNat (src.rate s).toNat ++ (waveSamples s src).flatMap sampleBytes

/-- The first error that ENCODE's checks meet, in the order of R196 and R234. -/
def encodeError (s : State) (src : Wave) : Option CmdError :=
  if !lenOk s.params (src.len s) then some .lenRange
  else if src.len s = 0 then some .zeroLength
  else if !rateOk (src.rate s) then some .badRate
  else none

/-- Some scaled sample was a NaN (R193). -/
def encodeMetNan (s : State) (src : Wave) : Bool :=
  (waveSamples s src).any (fun x => isNaN64 (scaleSample x))

/-- ENCODE's pseudocode with source `src` (R196): WBUF[0 .. 44 + 2N), WAV_LEN, STATUS.NAN. -/
def runEncode (src : Wave) (s : State) : Except CmdError State :=
  match encodeError s src with
  | some e => .error e
  | none =>
    .ok ({ s.writeBytes wbufBase (wavStream s src) with
            wavLen := BitVec.ofNat 32 (44 + 2 * (src.len s).toNat) }.noteNan (encodeMetNan s src))

/-- ENCODE M (R196): the source is MBUF; completed (R212). -/
def execEncodeM (s : State) : Host.Outcome State Fault Refusal := .next (complete s (runEncode .mbuf s))

/-- ENCODE V (R196): the source is VBUF; completed (R212). -/
def execEncodeV (s : State) : Host.Outcome State Fault Refusal := .next (complete s (runEncode .vbuf s))

/-- ENCODE I (R196): the source is IBUF; completed (R212). -/
def execEncodeI (s : State) : Host.Outcome State Fault Refusal := .next (complete s (runEncode .ibuf s))

end Sys2Proof.Machine
end

