-- ==== Sys2Proof/Machine/Sine.lean ====
section
/-! DEFINITION. Machine/Sine.lean: SIN, the sine of the oscillator bank (R7, D7): by default the correctly rounded sine,
otherwise any admissible function. -/

namespace Sys2Proof.Machine

/-- floor(π · 2^2000), computed (by Machin's formula), not quoted. The guide value 2π of R142 is another constant: this one is
only used to reduce the argument of the default sine. -/
def piBits : Nat :=
  0x3243F6A8885A308D313198A2E03707344A4093822299F31D0082EFA98EC4E6C89452821E638D01377BE5466CF34E90C6CC0AC29B7C97C50DD3F84D5B5B54709179216D5D98979FB1BD1310BA698DFB5AC2FFD72DBD01ADFB7B8E1AFED6A267E96BA7C9045F12C7F9924A19947B3916CF70801F2E2858EFC16636920D871574E69A458FEA3F4933D7E0D95748F728EB658718BCD5882154AEE7B54A41DC25A59B59C30D5392AF26013C5D1B023286085F0CA417918B8DB38EF8E79DCB0603A180E6C9E0E8BB01E8A3ED71577C1BD314B2778AF2FDA55605C60E65525F3AA55AB945748986263E8144055CA396A2AAB10B6B4CC5C341141E8CEA154

/-- π / 2 scaled by 2^w, rounded down, for w ≤ 2001. -/
def halfPiScaled (w : Nat) : Nat := piBits >>> (2001 - w)

/-- An alternating Taylor sum at scale 2^p: `term`, minus `term`·sq / (n·(n+1)), plus ..., where `sq` is the scaled square of the
argument. It ends when a term has become 0, or with the fuel. -/
def taylorSum (p sq : Nat) : Nat → Nat → Nat → Int
  | 0, _, _ => 0
  | fuel + 1, n, term =>
    if term = 0 then 0
    else (term : Int) - taylorSum p sq fuel (n + 2) ((term * sq) >>> p / (n * (n + 1)))

/-- sin(mag · 2^exp) at scale 2^p, for p ≥ -exp and mag > 0, with an error below 2^16 in the last place: the argument is
reduced by the nearest multiple of π/2 at a scale that the multiple does not spoil, then summed. -/
def sinScaled (p mag : Nat) (exp : Int) : Int :=
  let w := p + ((mag.log2 : Int) + exp).toNat + 8
  let x := mag * 2 ^ ((w : Int) + exp).toNat
  let half := halfPiScaled w
  let k := (2 * x + half) / (2 * half)
  let below := decide (x < k * half)
  let r := (if below then k * half - x else x - k * half) >>> (w - p)
  let sq := (r * r) >>> p
  match k % 4 with
  | 0 => if below then -taylorSum p sq p 2 r else taylorSum p sq p 2 r
  | 1 => taylorSum p sq p 1 (2 ^ p)
  | 2 => if below then taylorSum p sq p 2 r else -taylorSum p sq p 2 r
  | _ => -taylorSum p sq p 1 (2 ^ p)

/-- The binary64 pattern nearest ±sin(mag · 2^exp): at each precision of the list the two ends of the error interval are
rounded, and where they agree that is the answer. (Where even the last precision leaves them apart the lower end is
answered; UNVERIFIED that this never happens, log entry 10.) -/
def sinSearch (neg : Bool) (mag : Nat) (exp : Int) : List Nat → F64
  | [] => 0
  | level :: rest =>
    let p := level + (-exp).toNat
    let s := sinScaled p mag exp
    let lo := roundMag 52 11 (s.natAbs - 2 ^ 16) (2 ^ p)
    let hi := roundMag 52 11 (s.natAbs + 2 ^ 16) (2 ^ p)
    if lo = hi ∨ rest = [] then signed64 (neg ^^ decide (s < 0)) lo
    else sinSearch neg mag exp rest

/-- The correctly rounded sine, rne64 of the real sin x, of a finite argument (R7's default SIN). -/
def sinCorrect (x : F64) : F64 :=
  match datum64 x with
  | .fin neg mag exp => if mag = 0 then 0 else sinSearch neg mag exp [192, 384, 768]
  | _ => nan64

/-- What R7 asks of SIN(x) for a finite x: finite and in [-1, 1], and +0 at +0. -/
def sinAdmissible (x y : F64) : Bool :=
  isFinite64 y && magAtMostOne64 y && (x != 0 || y == 0)

/-- What the rules on SYNTH's samples leave of SIN at an infinity or a NaN, which only a phase that overflows (a custom pitch
table) asks for: finite and in [-1, 1], so that every sample stays finite and below 0.5 (R153); and at a NaN, which is the
phase 0 · ∞ of sample 0 alone, not negative, so that IBUF[0] is +0.0 (R154). DEDUCED: log entry 9. -/
def sinNonFiniteOk (x y : F64) : Bool :=
  isFinite64 y && magAtMostOne64 y && (!isNaN64 x || !y.getLsbD 63)

/-- SIN of the implementation with number `impl` (R7): the default for 0, else its own function where that function's value is
admissible and +0 elsewhere, so that every number names an admissible SIN and every admissible SIN can be named. At an
infinity or a NaN R7 states no value: a free one, within the limits of R153 and R154. -/
def sinOf (impl : Nat) (x : F64) : F64 :=
  if isFinite64 x then
    let y := if impl = 0 then sinCorrect x else Config.sinOther (impl - 1) x
    if sinAdmissible x y then y else 0
  else
    let y := Config.sinNonFinite impl x
    if sinNonFiniteOk x y then y else 0

end Sys2Proof.Machine
end

