-- ==== Sys2Proof/Machine/Synthesizer.lean ====
section
/-! DEFINITION. Machine/Synthesizer.lean: SYNTH (42_synthesizer.md). Every sample is the spec's fixed sequence of binary64
operations, rounded once more at the store. -/

namespace Sys2Proof.Machine

/-! ## Constants of the datapath (R142) -/

/-- RAT3: rne64(2^(3/12)), the minor third. -/
def rat3 : F64 := 0x3FF306FE0A31B715
/-- RAT4: rne64(2^(4/12)), the major third. -/
def rat4 : F64 := 0x3FF428A2F98D728B
/-- RAT7: rne64(2^(7/12)), the fifth. -/
def rat7 : F64 := 0x3FF7F910D768CFB0
/-- TWO_PI: rne64(2π). -/
def twoPi : F64 := 0x401921FB54442D18
/-- HALF: the harmonic's amplitude and the master attenuation. -/
def half64 : F64 := 0x3FE0000000000000
/-- NORM: 3 × 1.5 = 4.5. -/
def norm64 : F64 := 0x4012000000000000
/-- RAMP: 2000.0, the attack and release length. -/
def ramp64 : F64 := 0x409F400000000000
/-- 1.0. -/
def one64 : F64 := 0x3FF0000000000000
/-- 2.0. -/
def two64 : F64 := 0x4000000000000000

/-! ## Chords and time -/

/-- ROOT of a CTAB entry, bits [3:0] (R96). -/
def entryRoot (e : Word) : Nat := e.toNat % 16

/-- MINOR of a CTAB entry, bit [4] (R96). -/
def entryMinor (e : Word) : Bool := e.getLsbD 4

/-- `entry_ok(e)`: e[3:0] ≤ 11 and e[31:5] = 0 (R144). -/
def entryOk (e : Word) : Bool := decide (entryRoot e ≤ 11 ∧ e.toNat < 32)

/-- freqs(e) of R143: root, third, fifth, from the root's table entry. -/
def chordFreqs (rootHz : F64) (minor : Bool) : F64 × F64 × F64 :=
  let f1 := div64 rootHz two64
  (f1, mul64 f1 (if minor then rat3 else rat4), mul64 f1 rat7)

/-- SPC = (240 · SR) div B, exact (R145). -/
def samplesPerChord (rate bpm : Nat) : Nat := 240 * rate / bpm

/-- The envelope env(p, SPC): attack first, then release, else 1.0 (R147). -/
def envelope (p spc : Nat) : F64 :=
  if p < 2000 then div64 (nat64 p) ramp64
  else if spc ≤ p + 2000 then div64 (nat64 (spc - p)) ramp64
  else one64

/-- t(i) = div64(i, SR) (R148). -/
def sampleTime (i rate : Nat) : F64 := div64 (nat64 i) (nat64 rate)

/-! ## The oscillator bank -/

/-- One note of frequency f at time t: the fundamental plus the octave at half amplitude (R149). -/
def note (sinImpl : Nat) (f t : F64) : F64 :=
  add64 (sinOf sinImpl (mul64 (mul64 twoPi f) t))
    (mul64 half64 (sinOf sinImpl (mul64 (mul64 twoPi (mul64 two64 f)) t)))

/-- The three notes summed from +0 in the order root, third, fifth, and normalised (R150). -/
def chordValue (sinImpl : Nat) (freqs : F64 × F64 × F64) (t : F64) : F64 :=
  div64 (add64 (add64 (add64 0 (note sinImpl freqs.1 t)) (note sinImpl freqs.2.1 t))
    (note sinImpl freqs.2.2 t)) norm64

/-- Value times envelope times master attenuation, before the store (R151). -/
def sampleOut64 (value env : F64) : F64 := mul64 (mul64 value env) half64

/-- The CTAB entry that sounds at sample i: chord c(i) = (i div SPC) mod K (R146). -/
def chordAt (s : State) (i : Nat) : Word :=
  s.chord (i / samplesPerChord s.ibufSr.toNat s.bpm.toNat % s.chordCount.toNat)

/-- IBUF[i] as SYNTH computes it (R146 to R151). -/
def synthSample (s : State) (i : Nat) : F32 :=
  let spc := samplesPerChord s.ibufSr.toNat s.bpm.toNat
  let e := chordAt s i
  let freqs := chordFreqs (s.pitchHz (entryRoot e)) (entryMinor e)
  f64to32 (sampleOut64 (chordValue s.params.sinImpl freqs (sampleTime i s.ibufSr.toNat))
    (envelope (i % spc) spc))

/-- The first error that SYNTH's checks meet, in the order of R152 and R234. -/
def synthError (s : State) : Option CmdError :=
  if !lenOk s.params s.ibufLen then some .lenRange
  else if s.params.chordCap < s.chordCount.toNat then some .lenRange
  else if s.ibufLen = 0 then some .zeroLength
  else if s.chordCount = 0 then some .emptyChords
  else if !rateOk s.ibufSr then some .badRate
  else if !(List.range s.chordCount.toNat).all (fun k => entryOk (s.chord k)) then some .badChord
  else none

/-- SYNTH's output, IBUF[0 .. N) (R152). -/
def synthSamples (s : State) : List F32 := (List.range s.ibufLen.toNat).map (synthSample s)

/-- SYNTH's pseudocode (R152): the checks, then IBUF[0 .. N). -/
def runSynth (s : State) : Except CmdError State :=
  match synthError s with
  | some e => .error e
  | none => .ok (s.writeBytes ibufBase (wordBytes (synthSamples s)))

/-- SYNTH (R152), completed (R212). -/
def execSynth (s : State) : Host.Outcome State Fault Refusal := .next (complete s (runSynth s))

end Sys2Proof.Machine
end

