-- ==== Sys2Proof/Machine/Dispatch.lean ====
section
/-! DEFINITION. Machine/Dispatch.lean: one instruction, one meaning. exec is the ENGINE's completion step (R212) of a decoded
command on a state. -/

namespace Sys2Proof.Machine

def exec (i : Instr) (s : State) : Host.Outcome State Fault Refusal :=
  match i with
  | .nop => Sys2Proof.Machine.execNop s
  | .ptempo => Sys2Proof.Machine.execPtempo s
  | .pchord => Sys2Proof.Machine.execPchord s
  | .synth => Sys2Proof.Machine.execSynth s
  | .mixI => Sys2Proof.Machine.execMixI s
  | .mixV => Sys2Proof.Machine.execMixV s
  | .encodeM => Sys2Proof.Machine.execEncodeM s
  | .encodeV => Sys2Proof.Machine.execEncodeV s
  | .encodeI => Sys2Proof.Machine.execEncodeI s

end Sys2Proof.Machine
end

