-- ==== Sys2Proof/Machine/Engine.lean ====
section
/-! DEFINITION. Machine/Engine.lean: one element of the total order of R74: an ENGINE completion, or one event of the outside
world. -/

namespace Sys2Proof.Machine

/-- The ENGINE's only step, with word `w` in flight (R212): the decoded command's meaning, or ILLEGAL_CMD (R94). -/
def engineStep (w : Word) (s : State) : Host.Outcome State Fault Refusal :=
  match decodeWord w with
  | .ok i => exec i s
  | .error _ => completeIllegal s

/-- The completion of a command in flight comes before the next event: that event says so, or there is none (R270, R272). -/
def State.engineFirst (s : State) : Bool :=
  match s.queue with
  | [] => true
  | e :: _ => e.afterCompletion

/-- The next event of the outside world happens; with none left, and nothing in flight, nothing happens (R264, R272). -/
def hostStep (s : State) : State :=
  match s.queue with
  | [] => s
  | e :: rest => perform e.event { s with queue := rest }

/-- One step: the completion of the command in flight if it is due, else the next event. -/
def advance (s : State) : Host.Outcome State Fault Refusal :=
  match s.eng with
  | none => .next (hostStep s)
  | some w => if s.engineFirst then engineStep w s else .next (hostStep s)

/-- Let the command in flight complete before the next event. -/
def completionDue : List HostEvent → List HostEvent
  | [] => []
  | e :: rest => { e with afterCompletion := true } :: rest

/-- The state in which a command word has just been accepted (R210) and its completion is the next step. -/
def offerWord (w : Word) (s : State) : State :=
  issue w { s with queue := completionDue s.queue }

end Sys2Proof.Machine
end

