-- ==== Sys2Proof/Machine/Step.lean ====
section
/-! DEFINITION. Machine/Step.lean: the machine's step, and the state whose next step runs a given command word. -/

namespace Sys2Proof.Machine

/-- One step of the machine: one element of the total order of R74. -/
def step (s : State) : Host.Outcome State Fault Refusal := advance s

/-- `s` with the command word whose bits are `w` accepted by the ENGINE (R210) and its completion due. The block fetches no
instructions (R79): a command reaches the ENGINE as the data of a CMD write, and this stands for that write. -/
def State.withFetchWord (s : State) (nbits w : Nat) : State := offerWord (BitVec.ofNat 32 (w % 2 ^ nbits)) s

end Sys2Proof.Machine
end

