-- ==== Sys2Proof/Machine/HostProgram.lean ====
section
/-! DEFINITION. Machine/HostProgram.lean: the host's program syntax and pseudo-operations as lists of events for `State.queue`
(R100, R101), and the length a host computes from a duration (R268). These are the host's doing, not the block's. -/

namespace Sys2Proof.Machine

/-! ## R100 -/

/-- `W32 a, v`. -/
def w32 (a v : Word) : BusEvent := .write a .four v
/-- `W16 a, v`. -/
def w16 (a v : Word) : BusEvent := .write a .two v
/-- `W8 a, v`. -/
def w8 (a v : Word) : BusEvent := .write a .one v
/-- `R32 a`. -/
def r32 (a : Word) : BusEvent := .read a .four
/-- `R16 a`. -/
def r16 (a : Word) : BusEvent := .read a .two
/-- `R8 a`. -/
def r8 (a : Word) : BusEvent := .read a .one

/-- A register's name stands for its address (R21, R100). -/
def regAddr (r : Reg) : Word := BitVec.ofNat 32 (4 * regList.idxOf r)

/-- A command's name: `W32 CMD, <word>`. -/
def issueCommand (i : Instr) : BusEvent := w32 (regAddr .cmd) (encode i)

/-- `CMDW w`. -/
def cmdw (w : Word) : BusEvent := w32 (regAddr .cmd) w

/-- An event before which a command in flight does not complete. -/
def promptly (e : BusEvent) : HostEvent := ⟨e, false⟩

/-- An event before which a command in flight completes. -/
def afterwards (e : BusEvent) : HostEvent := ⟨e, true⟩

/-! ## R101 -/

/-- `WAIT`, with `polls` reads of STATUS before the completion and one after it. -/
def waitDone (polls : Nat) : List HostEvent :=
  List.replicate polls (promptly (r32 (regAddr .status))) ++ [afterwards (r32 (regAddr .status))]

/-- `ACK`: clear DONE and ERR. -/
def ackDone : BusEvent := w32 (regAddr .status) 0x00000006

/-- `CLRFLAGS`: clear DONE, ERR, NAN, OVR, WBUSY and ADDRERR. -/
def clrFlags : BusEvent := w32 (regAddr .status) 0x0000007E

/-- `RUN op`. -/
def run (i : Instr) (polls : Nat) : List HostEvent := promptly (issueCommand i) :: waitDone polls

/-- `le32` of four bytes. -/
def le32 (b0 b1 b2 b3 : Byte) : Word := b3 ++ b2 ++ b1 ++ b0

/-- One `W8` per byte, from offset `k` of TEXT. -/
def textBytes (k : Nat) : List Byte → List BusEvent
  | [] => []
  | b :: rest => w8 (BitVec.ofNat 32 (textBase + k)) (b.setWidth 32) :: textBytes (k + 1) rest

/-- The writes of `TEXT "s"` from offset `k`: words, the last padded with zeros, or bytes where the pad would pass TEXT_CAP. -/
def textWrites (cap : Nat) : Nat → List Byte → List BusEvent
  | _, [] => []
  | k, b0 :: b1 :: b2 :: b3 :: rest =>
    w32 (BitVec.ofNat 32 (textBase + k)) (le32 b0 b1 b2 b3) :: textWrites cap (k + 4) rest
  | k, b0 :: rest =>
    if k + 4 ≤ cap then
      [w32 (BitVec.ofNat 32 (textBase + k)) (le32 b0 (rest.getD 0 0) (rest.getD 1 0) 0)]
    else textBytes k (b0 :: rest)

/-- `TEXT "s"`: the bytes, then TEXT_LEN. -/
def loadText (cap : Nat) (s : List Byte) : List BusEvent :=
  textWrites cap 0 s ++ [w32 (regAddr .textLen) (BitVec.ofNat 32 s.length)]

/-- `F32 buf, k, x`. -/
def loadSample (buf : Wave) (k : Nat) (x : F32) : BusEvent := w32 (BitVec.ofNat 32 (buf.base + 4 * k)) x

/-! ## R268 -/

/-- IBUF_LEN for a duration of num / den seconds at a sample rate: ceil(d × SR), exact. -/
def lengthForDuration (num den rate : Nat) : Nat := (num * rate + den - 1) / den

end Sys2Proof.Machine
end

