-- ==== Sys2Proof/Machine/Value.lean ====
section
/-! DEFINITION. Machine/Value.lean: the real number (a rational one) that a pattern stands for: `F64(b)` and `F32(b)` of R12 where they
are finite. The machine computes without it; statements speak of it. -/

namespace Sys2Proof.Machine

/-- The number of a finite datum: (-1)^neg · mag · 2^exp. For an infinity or a NaN there is none; 0 stands there. -/
def datumValue : Datum → ℚ
  | .fin neg mag exp => (if neg then -1 else 1) * ((mag : ℚ) * 2 ^ exp)
  | .inf _ => 0
  | .nan => 0

/-- The number of a finite binary64 pattern. -/
def value64 (x : F64) : ℚ := datumValue (datum64 x)

/-- The number of a finite binary32 pattern. -/
def value32 (x : F32) : ℚ := datumValue (datum32 x)

/-- A finite binary32 pattern. -/
def isFinite32 (x : F32) : Bool := decide (x.toNat % 2 ^ 31 < 0x7F800000)

/-- A binary32 NaN. -/
def isNaN32 (x : F32) : Bool := decide (datum32 x = .nan)

end Sys2Proof.Machine
end

