-- ==== Sys2Proof/Safety.lean ====
section
/-! DEFINITION. Safety.lean: what holds of every state a run from reset reaches, and what it means that two states are the same block. -/

namespace Sys2Proof.Machine

/-- A byte address inside the populated part of one of the writable memories TEXT, CTAB, VBUF, IBUF, MBUF, WBUF (R61, R66). -/
def ramAddress (p : Params) (a : Nat) : Bool :=
  (windows p).any (fun w => w.holds a 1 && w.base != pitchBase)

/-- The invariant of the block. -/
structure State.Inv (s : State) : Prop where
  /-- The parameters are legal (R7, R8). -/
  params : s.params.legal = true
  /-- Memory is in canonical form. -/
  memory : Memory.wf s.mem = true
  /-- Only populated bytes of the writable memories were ever written (R66). -/
  populated : ∀ c ∈ s.mem, ramAddress s.params c.1 = true
  /-- "A read returns the stored value, always in [60, 200]" (R28). -/
  tempo : 60 ≤ s.bpm.toNat ∧ s.bpm.toNat ≤ 200
  /-- While BUSY(w) the last accepted word is w, and DONE, ERR and ERRCODE are as its acceptance left them (R210, R212). -/
  inFlight : ∀ w, s.eng = some w →
    s.lastCmd = w ∧ s.status.done = false ∧ s.status.err = false ∧ s.status.errcode = 0
  /-- ERR stands beside a nonzero code (R24). -/
  error : s.status.err = true → s.status.errcode ≠ 0
  /-- Codes 0x09 to 0xFF are never written (R231). -/
  code : s.status.errcode.toNat ≤ 8
  /-- WAV_LEN is 0 or the length of a stream with at least one sample that fits WBUF (R34, R196). -/
  stream : s.wavLen = 0 ∨ 46 ≤ s.wavLen.toNat ∧ s.wavLen.toNat ≤ 44 + 2 * s.params.sampleCap
  /-- The power-on draw is one of the draws made (model's own, log entry 3). -/
  drawn : s.powerOnDraw < s.draws

/-- The registers, flags, ENG and memory of two states agree: they are the same block, whatever is offered to it, was read from
it, or was drawn so far. -/
def State.SameBlock (s t : State) : Prop :=
  { s with queue := [], busReads := [], draws := 0 } = { t with queue := [], busReads := [], draws := 0 }

end Sys2Proof.Machine
end

