-- ==== Sys2Proof/Certificates/Slice0/Obligations.lean ====
section
/-! DEFINITION. Certificates/Slice0/Obligations.lean: the statements about the model, from the numbered rules of spec/. Those marked
'derived' in OBLIGATIONS.json state part of a rule, several rules together, or what the spec itself derives. -/

namespace Sys2Proof.Claim

open Sys2Proof.Machine

/-! ## Words the statements share -/

/-- STATUS after a completion with code NONE (R212), NAN set where a NaN was met (R175, R193). -/
def succeeded (st : Status) (metNan : Bool) : Status :=
  { st with done := true, err := false, errcode := 0, nan := st.nan || metNan }

/-- STATUS after a completion with an error code (R232). -/
def failed (st : Status) (code : Byte) : Status := { st with done := true, err := true, errcode := code }

/-- A completion with an error code changes STATUS and ENG and nothing else (R232). -/
def errorCompletion (s : State) (code : Byte) : Host.Outcome State Fault Refusal :=
  .next { s with status := failed s.status code, eng := none }

/-- The next step performs the event `e`: it is the first of the queue, and no completion comes before it (R74, R272). -/
def offers (s : State) (e : BusEvent) (rest : List HostEvent) : Prop :=
  ∃ flag, s.queue = ⟨e, flag⟩ :: rest ∧ (s.eng = none ∨ flag = false)

/-- The completion of word `w` is the next step (R212). -/
def completes (s : State) (w : Word) : Prop := s.eng = some w ∧ s.engineFirst = true

/-- Every byte outside [base, base + len) reads as before. -/
def keepsBytesOutside (s t : State) (base len : Nat) : Prop :=
  ∀ a, ¬(base ≤ a ∧ a < base + len) → t.byteAt a = s.byteAt a

/-- `rate_ok` in the words of R37. -/
def legalRate (r : Word) : Prop := 1 ≤ r.toNat ∧ r.toNat ≤ 0x7FFFFFFF

/-- The populated parts of the memory windows (R61). -/
def populatedParts (p : Params) : List (Nat × Nat) :=
  [(0x00001000, p.textCap), (0x00002000, 4 * p.chordCap), (0x00003000, 96), (0x01000000, 4 * p.sampleCap),
   (0x02000000, 4 * p.sampleCap), (0x03000000, 4 * p.sampleCap), (0x04000000, 44 + 2 * p.sampleCap)]

/-- The bytes of an access lie in the populated part of one window (R66). -/
def populated (p : Params) (a n : Nat) : Prop := ∃ w ∈ populatedParts p, w.1 ≤ a ∧ a + n ≤ w.1 + w.2

/-- The accesses that are refused: misaligned (R63), of a width other than 4 bytes in REGS (R65), with a byte that is not populated or
not mapped (R66, R68), writes to PITCH or WBUF (R67). -/
def refused (p : Params) (isWrite : Bool) (a n : Nat) : Prop :=
  a % n ≠ 0 ∨ (a < 0x1000 ∧ n ≠ 4) ∨ (0x1000 ≤ a ∧ ¬populated p a n) ∨
  (isWrite = true ∧ ((0x3000 ≤ a ∧ a ≤ 0x3FFF) ∨ (0x04000000 ≤ a ∧ a ≤ 0x04FFFFFF)))

/-- The 17 root names with their pitch classes (R113), in ASCII: '#' is 0x23, 'b' is 0x62. -/
def alias17 : List (List Byte × Nat) :=
  [([0x43], 0), ([0x43, 0x23], 1), ([0x44, 0x62], 1), ([0x44], 2), ([0x44, 0x23], 3), ([0x45, 0x62], 3), ([0x45], 4),
   ([0x46], 5), ([0x46, 0x23], 6), ([0x47, 0x62], 6), ([0x47], 7), ([0x47, 0x23], 8), ([0x41, 0x62], 8), ([0x41], 9),
   ([0x41, 0x23], 10), ([0x42, 0x62], 10), ([0x42], 11)]

/-- The candidate name of a token (R114): its first two bytes if the second is '#' or 'b', else its first byte. -/
def candidateName : List Byte → List Byte
  | [] => []
  | [t0] => [t0]
  | t0 :: t1 :: _ => if t1 = 0x23 ∨ t1 = 0x62 then [t0, t1] else [t0]

/-- The number that a run of digits spells: the sum over k of (digit k - 0x30)·10^(length - 1 - k) (R117). -/
def decimalValue (digits : List Byte) : Nat :=
  ((List.range digits.length).map (fun k => ((digits.getD k 0).toNat - 0x30) * 10 ^ (digits.length - 1 - k))).sum

/-- `freqs(e)`, `t(i)`, the notes and value(i), written out from R143, R146 and R148 to R150. -/
def synthValue64 (s : State) (i : Nat) : F64 :=
  let sr := s.ibufSr.toNat
  let spc := 240 * sr / s.bpm.toNat
  let e := s.wordAt (0x00002000 + 4 * (i / spc % s.chordCount.toNat))
  let f1 := div64 (s.params.pitch.toList.getD (e.toNat % 16) 0) 0x4000000000000000
  let f3 := mul64 f1 (if e.getLsbD 4 then 0x3FF306FE0A31B715 else 0x3FF428A2F98D728B)
  let f5 := mul64 f1 0x3FF7F910D768CFB0
  let t := div64 (nat64 i) (nat64 sr)
  let oneNote := fun f : F64 =>
    add64 (sinOf s.params.sinImpl (mul64 (mul64 0x401921FB54442D18 f) t))
      (mul64 0x3FE0000000000000
        (sinOf s.params.sinImpl (mul64 (mul64 0x401921FB54442D18 (mul64 0x4000000000000000 f)) t)))
  div64 (add64 (add64 (add64 0 (oneNote f1)) (oneNote f3)) (oneNote f5)) 0x4012000000000000

/-- The output sample before its store: value(i) times the envelope times 0.5 (R147, R151). -/
def synthOut64 (s : State) (i : Nat) : F64 :=
  let spc := 240 * s.ibufSr.toNat / s.bpm.toNat
  mul64 (mul64 (synthValue64 s i) (envelope (i % spc) spc)) 0x3FE0000000000000

/-- SYNTH's operands meet every check of R152. -/
def synthOperandsOk (s : State) : Prop :=
  (1 ≤ s.ibufLen.toNat ∧ s.ibufLen.toNat ≤ s.params.sampleCap) ∧
  (1 ≤ s.chordCount.toNat ∧ s.chordCount.toNat ≤ s.params.chordCap) ∧ legalRate s.ibufSr ∧
  ∀ k, k < s.chordCount.toNat →
    (s.wordAt (0x00002000 + 4 * k)).toNat % 16 ≤ 11 ∧ (s.wordAt (0x00002000 + 4 * k)).toNat < 32

/-- The sample i of a padded operand (R172). -/
def padded (s : State) (base : Nat) (len : Word) (i : Nat) : F64 :=
  if i < len.toNat then f32to64 (s.wordAt (base + 4 * i)) else 0

/-- s(i) of R173 with instrumental operand at `base` of length `len`. -/
def sumAt (s : State) (base : Nat) (len : Word) (i : Nat) : F64 :=
  add64 (mul64 (padded s 0x01000000 s.vbufLen i) (f32to64 s.gainV)) (mul64 (padded s base len i) (f32to64 s.gainI))

/-- y(i) of R174 and R175: +0.0 for a NaN, else the sum clamped to [-1, 1]. -/
def limitedAt (s : State) (base : Nat) (len : Word) (i : Nat) : F64 :=
  let x := sumAt s base len i
  if isNaN64 x then 0
  else if lt64 x 0xBFF0000000000000 then 0xBFF0000000000000
  else if lt64 0x3FF0000000000000 x then 0x3FF0000000000000
  else x

/-- What MIX with the instrumental operand at `base` with length `len` does to `s`, ending in `t` (R171 to R177). -/
def mixed (s t : State) (base : Nat) (len : Word) : Prop :=
  t = { s with
    mem := t.mem
    mbufLen := BitVec.ofNat 32 (max s.vbufLen.toNat len.toNat)
    mbufSr := s.vbufSr
    status := succeeded s.status ((List.range (max s.vbufLen.toNat len.toNat)).any (fun i => isNaN64 (sumAt s base len i)))
    eng := none } ∧
  keepsBytesOutside s t 0x03000000 (4 * max s.vbufLen.toNat len.toNat) ∧
  ∀ i, i < max s.vbufLen.toNat len.toNat → t.wordAt (0x03000000 + 4 * i) = f64to32 (limitedAt s base len i)

/-- What ENCODE of the waveform at `base` with length `len` and rate `rate` does to `s`, ending in `t`: the header's fields at the
offsets of R194, the payload of R195, WAV_LEN, NAN, and nothing else (R196). -/
def encoded (s t : State) (base : Nat) (len rate : Word) : Prop :=
  t = { s with
    mem := t.mem
    wavLen := BitVec.ofNat 32 (44 + 2 * len.toNat)
    status := succeeded s.status ((List.range len.toNat).any (fun i =>
      isNaN64 (mul64 (f32to64 (s.wordAt (base + 4 * i))) 0x40E0000000000000)))
    eng := none } ∧
  keepsBytesOutside s t 0x04000000 (44 + 2 * len.toNat) ∧
  t.bytesAt 0x04000000 4 = [0x52, 0x49, 0x46, 0x46] ∧
  natOfBytes (t.bytesAt 0x04000004 4) = 36 + 2 * len.toNat ∧
  t.bytesAt 0x04000008 4 = [0x57, 0x41, 0x56, 0x45] ∧
  t.bytesAt 0x0400000C 4 = [0x66, 0x6D, 0x74, 0x20] ∧
  natOfBytes (t.bytesAt 0x04000010 4) = 16 ∧
  natOfBytes (t.bytesAt 0x04000014 2) = 1 ∧
  natOfBytes (t.bytesAt 0x04000016 2) = 1 ∧
  natOfBytes (t.bytesAt 0x04000018 4) = rate.toNat ∧
  natOfBytes (t.bytesAt 0x0400001C 4) = 2 * rate.toNat ∧
  natOfBytes (t.bytesAt 0x04000020 2) = 2 ∧
  natOfBytes (t.bytesAt 0x04000022 2) = 16 ∧
  t.bytesAt 0x04000024 4 = [0x64, 0x61, 0x74, 0x61] ∧
  natOfBytes (t.bytesAt 0x04000028 4) = 2 * len.toNat ∧
  ∀ i, i < len.toNat →
    natOfBytes (t.bytesAt (0x0400002C + 2 * i) 2) =
      (BitVec.ofInt 16 (quantizeScaled (mul64 (f32to64 (s.wordAt (base + 4 * i))) 0x40E0000000000000))).toNat

/-- `y` is a nearest finite binary64 number to `r`, and the one whose last bit is 0 where another is as near (R12). -/
def nearestEven64 (r : ℚ) (y : F64) : Prop :=
  isFinite64 y = true ∧ ∀ z : F64, isFinite64 z = true →
    |value64 y - r| ≤ |value64 z - r| ∧ (|value64 y - r| = |value64 z - r| → value64 z ≠ value64 y → y.toNat % 2 = 0)

/-- The same for binary32 (R12). -/
def nearestEven32 (r : ℚ) (y : F32) : Prop :=
  isFinite32 y = true ∧ ∀ z : F32, isFinite32 z = true →
    |value32 y - r| ≤ |value32 z - r| ∧ (|value32 y - r| = |value32 z - r| → value32 z ≠ value32 y → y.toNat % 2 = 0)

/-- The infinity of a sign. -/
def signedInf (neg : Bool) : F64 := if neg then 0xFFF0000000000000 else 0x7FF0000000000000

/-- A binary64 infinity. -/
def isInf64 (x : F64) : Prop := x = 0x7FF0000000000000 ∨ x = 0xFFF0000000000000

/-- A binary64 zero. -/
def isZero64 (x : F64) : Prop := x = 0x0000000000000000 ∨ x = 0x8000000000000000

/-- add64 on all operands (R12): rne64 of the exact sum; a zero sum is +0 but for two negative zeros; ∞ - ∞ is a NaN. -/
def addRounds (x y : F64) : Prop :=
  (isFinite64 x = true → isFinite64 y = true →
    (value64 x + value64 y = 0 →
      add64 x y = if x = 0x8000000000000000 ∧ y = 0x8000000000000000 then 0x8000000000000000 else 0) ∧
    (value64 x + value64 y ≠ 0 → ∀ num den : Nat, 0 < den → (num : ℚ) / den = |value64 x + value64 y| →
      add64 x y = rne64 (decide (value64 x + value64 y < 0)) num den)) ∧
  (isInf64 x → isInf64 y → x ≠ y → isNaN64 (add64 x y) = true) ∧ (isInf64 x → add64 x x = x) ∧
  (isInf64 x → isFinite64 y = true → add64 x y = x ∧ add64 y x = x) ∧
  (isNaN64 x = true → isNaN64 (add64 x y) = true ∧ isNaN64 (add64 y x) = true)

/-- mul64 on all operands (R12): rne64 of the exact product, the sign the exclusive or of the signs; 0 × ∞ is a NaN. -/
def mulRounds (x y : F64) : Prop :=
  (isFinite64 x = true → isFinite64 y = true →
    ∀ num den : Nat, 0 < den → (num : ℚ) / den = |value64 x * value64 y| →
      mul64 x y = rne64 (x.getLsbD 63 ^^ y.getLsbD 63) num den) ∧
  (isInf64 x → isZero64 y → isNaN64 (mul64 x y) = true ∧ isNaN64 (mul64 y x) = true) ∧
  (isInf64 x → isNaN64 y = false → ¬isZero64 y →
    mul64 x y = signedInf (x.getLsbD 63 ^^ y.getLsbD 63) ∧ mul64 y x = signedInf (x.getLsbD 63 ^^ y.getLsbD 63)) ∧
  (isNaN64 x = true → isNaN64 (mul64 x y) = true ∧ isNaN64 (mul64 y x) = true)

/-- div64 on all operands (R12; the cases with a zero divisor or an infinity are IEEE 754's, log entry 14). -/
def divRounds (x y : F64) : Prop :=
  (isFinite64 x = true → isFinite64 y = true → value64 y ≠ 0 →
    ∀ num den : Nat, 0 < den → (num : ℚ) / den = |value64 x / value64 y| →
      div64 x y = rne64 (x.getLsbD 63 ^^ y.getLsbD 63) num den) ∧
  (isZero64 x → isZero64 y → isNaN64 (div64 x y) = true) ∧ (isInf64 x → isInf64 y → isNaN64 (div64 x y) = true) ∧
  (isFinite64 x = true → ¬isZero64 x → isZero64 y → div64 x y = signedInf (x.getLsbD 63 ^^ y.getLsbD 63)) ∧
  (isInf64 x → isFinite64 y = true → div64 x y = signedInf (x.getLsbD 63 ^^ y.getLsbD 63)) ∧
  (isFinite64 x = true → isInf64 y → isZero64 (div64 x y) ∧ (div64 x y).getLsbD 63 = (x.getLsbD 63 ^^ y.getLsbD 63)) ∧
  (isNaN64 x = true → isNaN64 (div64 x y) = true ∧ isNaN64 (div64 y x) = true)

/-- ENCODE's operands meet every check of R196. -/
def encodeOperandsOk (s : State) (len rate : Word) : Prop :=
  (1 ≤ len.toNat ∧ len.toNat ≤ s.params.sampleCap) ∧ legalRate rate

/-- The output ranges of R71's right column, as base and length in bytes. -/
def outputBytes (i : Instr) (s : State) : Nat × Nat :=
  match i with
  | .nop => (0, 0)
  | .ptempo => (0, 0)
  | .pchord => (0x00002000, 4 * (chordSequence s.text).length)
  | .synth => (0x02000000, 4 * s.ibufLen.toNat)
  | .mixI => (0x03000000, 4 * max s.vbufLen.toNat s.ibufLen.toNat)
  | .mixV => (0x03000000, 4 * s.vbufLen.toNat)
  | .encodeM => (0x04000000, 44 + 2 * s.mbufLen.toNat)
  | .encodeV => (0x04000000, 44 + 2 * s.vbufLen.toNat)
  | .encodeI => (0x04000000, 44 + 2 * s.ibufLen.toNat)

/-- Every register at its reset value, LAST_CMD 0, ENG idle (R261). -/
def registersReset (t : State) : Prop :=
  t.ctrlIE = false ∧ t.statusWord = 0 ∧ t.lastCmd = 0 ∧ t.eng = none ∧ t.textLen = 0 ∧ t.bpm = 120 ∧ t.chordCount = 0 ∧
  t.gainV = 0x3F800000 ∧ t.gainI = 0x3F800000 ∧ t.vbufLen = 0 ∧ t.ibufLen = 0 ∧ t.mbufLen = 0 ∧ t.vbufSr = 24000 ∧
  t.ibufSr = 24000 ∧ t.mbufSr = 24000 ∧ t.wavLen = 0

/-- A reset of any kind: the reset input, or a CTRL write with SRST set. -/
def isReset : BusEvent → Bool
  | .powerOn => true
  | .write a .four v => decide (a = 4) && v.getLsbD 1
  | _ => false

/-- Two states agree in everything a command's result consists of (R212): every register but CTRL, DONE, ERR, ERRCODE, ENG, LAST_CMD,
the memories. The sticky flags and CTRL.IE, which the host may change at any time, are left aside, and the model's own record of
the bus. -/
def sameResult (t u : State) : Prop :=
  { t with
    ctrlIE := false
    status := { t.status with nan := false, ovr := false, wbusy := false, addrerr := false }
    queue := [], busReads := [], draws := 0 } =
  { u with
    ctrlIE := false
    status := { u.status with nan := false, ovr := false, wbusy := false, addrerr := false }
    queue := [], busReads := [], draws := 0 }

end Sys2Proof.Claim

open Sys2Proof Sys2Proof.Machine Sys2Proof.Claim

/-! ## Commands as words -/

/-- R91: the nine words and no other. -/
def Obligations.DecodeIsTheOpcodeMap : Prop := ∀ w : Word,
  (decodeWord w = .ok .nop ↔ w = 0x00000000) ∧ (decodeWord w = .ok .ptempo ↔ w = 0x00000001) ∧
  (decodeWord w = .ok .pchord ↔ w = 0x00000002) ∧ (decodeWord w = .ok .synth ↔ w = 0x00000010) ∧
  (decodeWord w = .ok .mixI ↔ w = 0x00000020) ∧ (decodeWord w = .ok .mixV ↔ w = 0x00000120) ∧
  (decodeWord w = .ok .encodeM ↔ w = 0x00000030) ∧ (decodeWord w = .ok .encodeV ↔ w = 0x00000130) ∧
  (decodeWord w = .ok .encodeI ↔ w = 0x00000230) ∧
  (w ∉ [0x00000000, 0x00000001, 0x00000002, 0x00000010, 0x00000020, 0x00000120, 0x00000030, 0x00000130, 0x00000230] →
    ∃ e, decodeWord w = .error e)

/-- R94: which words are ILLEGAL, by their fields; they are accepted while IDLE, and their completion reports code 0x01 and changes
nothing else. -/
def Obligations.IllegalWordsAreTheListedOnes : Prop := ∀ w : Word,
  ((∃ e, decodeWord w = .error e) ↔
    (w.toNat % 256 ∉ [0x00, 0x01, 0x02, 0x10, 0x20, 0x30] ∨ w.toNat / 1024 ≠ 0 ∨
     (w.toNat % 256 ∈ [0x00, 0x01, 0x02, 0x10] ∧ w.toNat / 256 % 4 ≠ 0) ∨
     (w.toNat % 256 = 0x20 ∧ w.toNat / 512 % 2 = 1) ∨ (w.toNat % 256 = 0x30 ∧ w.toNat / 256 % 4 = 3))) ∧
  ((∃ e, decodeWord w = .error e) → ∀ s : State,
    (s.eng = none → (writeOffset 0x00C w s).eng = some w) ∧ engineStep w s = errorCompletion s 0x01)

/-- R91, R62: a few words written out byte by byte, lowest address first, decode to their commands, a few that are no commands do not
decode, and every command is what the bytes of its encoding decode to. -/
def Obligations.WrittenOutWordsDecode : Prop :=
  (∀ i : Instr, decodeBytes (encodeBytes i) = .ok i) ∧
  decodeBytes [0x00, 0x00, 0x00, 0x00] = .ok .nop ∧ decodeBytes [0x02, 0x00, 0x00, 0x00] = .ok .pchord ∧
  decodeBytes [0x10, 0x00, 0x00, 0x00] = .ok .synth ∧ decodeBytes [0x20, 0x01, 0x00, 0x00] = .ok .mixV ∧
  decodeBytes [0x30, 0x02, 0x00, 0x00] = .ok .encodeI ∧ decodeBytes [0x30, 0x03, 0x00, 0x00] = .error .illegalSelect ∧
  decodeBytes [0x20, 0x04, 0x00, 0x00] = .error .reservedBits ∧ decodeBytes [0x03, 0x00, 0x00, 0x00] = .error .unknownOp

/-! ## Steps -/

/-- R212: when the completion of a word is due and the word decodes to a command, the step is exec of that command, nothing added. The
word that `withFetchWord` places (R210, log entry 6) is in that position. -/
def Obligations.StepRunsTheDecodedCommand : Prop :=
  (∀ (s : State) (w : Word) (i : Instr), completes s w → decodeWord w = .ok i → step s = exec i s) ∧
  (∀ (s : State) (w : Nat), w < 2 ^ 32 → completes (s.withFetchWord 32 w) (BitVec.ofNat 32 w))

/-- R233: a word that decodes to ILLEGAL reports ILLEGAL_CMD whatever the registers hold, ENCODE with SRC = 3 among them. -/
def Obligations.StepCompletesAnIllegalWord : Prop :=
  (∀ (s : State) (w : Word) (e : Illegal), completes s w → decodeWord w = .error e → step s = errorCompletion s 0x01) ∧
  (∀ s : State, completes s 0x00000330 → step s = errorCompletion s 0x01)

/-- No step stops the machine: no access faults (R69), every completion goes on (R217, R232). -/
def Obligations.EveryStepGoesOn : Prop := ∀ s : State, ∃ t, step s = .next t

/-- R217: a command in flight is completed, or abandoned by a reset, after at most the pending events and one more step. -/
def Obligations.EveryCommandEnds : Prop := ∀ (s : State) (w : Word), s.eng = some w →
  ∃ k, k ≤ s.queue.length + 1 ∧ ∃ t, Sys2Proof.core.run k s = .next t ∧ t.eng = none

/-! ## Issue and completion -/

/-- R210: a CMD write while IDLE is accepted in one step; the sticky flags stay; irq falls. -/
def Obligations.IdleCmdWriteIsAccepted : Prop := ∀ (s : State) (w : Word) (rest : List HostEvent),
  s.eng = none → offers s (.write 0x0000000C .four w) rest →
  ∃ t, step s = .next t ∧ t.irq = false ∧ t.statusWord.getLsbD 0 = true ∧
    t = { s with
      queue := rest, lastCmd := w, eng := some w
      status := { s.status with done := false, err := false, errcode := 0 } }

/-- R211: a CMD write while BUSY is dropped with OVR; LAST_CMD, ENG and everything else stay. -/
def Obligations.BusyCmdWriteIsDropped : Prop := ∀ (s : State) (w v : Word) (rest : List HostEvent),
  s.eng = some w → offers s (.write 0x0000000C .four v) rest →
  step s = .next { s with queue := rest, status := { s.status with ovr := true } }

/-- R213: NOP completes with code NONE and does nothing else. -/
def Obligations.NopOnlyCompletes : Prop := ∀ s : State,
  exec .nop s = .next { s with status := succeeded s.status false, eng := none }

/-- R232: a command that ends with ERR set has written DONE, ERR, a nonzero ERRCODE, BUSY and ENG, and nothing else; no sticky flag. -/
def Obligations.FailedCommandChangesOnlyStatus : Prop := ∀ (i : Instr) (s t : State),
  exec i s = .next t → t.status.err = true →
  ∃ e : CmdError, t = { s with status := failed s.status e.code, eng := none } ∧ e.code ≠ 0 ∧
    t.statusWord.getLsbD 0 = false

/-- R71, R72: no command changes a byte outside its output range, or a register that R71 does not give it. -/
def Obligations.CommandsWriteOnlyTheirOutputs : Prop := ∀ (i : Instr) (s t : State), exec i s = .next t →
  keepsBytesOutside s t (outputBytes i s).1 (outputBytes i s).2 ∧
  t = { s with
    status := t.status, eng := none, mem := t.mem
    bpm := if i = .ptempo then t.bpm else s.bpm
    chordCount := if i = .pchord then t.chordCount else s.chordCount
    mbufLen := if i = .mixI ∨ i = .mixV then t.mbufLen else s.mbufLen
    mbufSr := if i = .mixI ∨ i = .mixV then t.mbufSr else s.mbufSr
    wavLen := if i = .encodeM ∨ i = .encodeV ∨ i = .encodeI then t.wavLen else s.wavLen }

/-! ## Parser -/

/-- R111: the delimiters. -/
def Obligations.DelimitersAreTheListedBytes : Prop := ∀ b : Byte,
  isDelimiter b = true ↔ b ∈ ([0x09, 0x0A, 0x0B, 0x0C, 0x0D, 0x20, 0x2D, 0x7C, 0x2C] : List Byte)

/-- R112: a text that is delimiters, then runs of non-delimiters each followed by delimiters, then perhaps a last run, has exactly
those runs as its tokens, in order; and every text has that form. -/
def Obligations.TokensAreTheMaximalRuns : Prop :=
  let separated := fun (lead last : List Byte) (parts : List (List Byte × List Byte)) =>
    (∀ b ∈ lead, isDelimiter b = true) ∧ (∀ b ∈ last, isDelimiter b = false) ∧
    (∀ p ∈ parts, p.1 ≠ [] ∧ (∀ b ∈ p.1, isDelimiter b = false) ∧ p.2 ≠ [] ∧ (∀ b ∈ p.2, isDelimiter b = true))
  (∀ lead last parts, separated lead last parts →
    tokens (lead ++ parts.flatMap (fun p => p.1 ++ p.2) ++ last) =
      parts.map Prod.fst ++ (if last = [] then [] else [last])) ∧
  (∀ text : List Byte, ∃ lead last parts, separated lead last parts ∧
    text = lead ++ parts.flatMap (fun p => p.1 ++ p.2) ++ last)

/-- R113, R114: the root of a token is the pitch class of its candidate name, if that is one of the 17 names; the accidental is never
given back; a token without a root is dropped. -/
def Obligations.RootIsTheClassOfTheCandidateName : Prop := ∀ (t : List Byte) (r : Nat),
  (tokenRoot t = some r ↔ (candidateName t, r) ∈ alias17) ∧ (tokenRoot t = none → tokenEntry t = none)

/-- R115: minor iff the token contains "m" and does not contain "maj". -/
def Obligations.MinorIsAnMWithoutMaj : Prop := ∀ t : List Byte,
  tokenMinor t = true ↔ (0x6D ∈ t ∧ ¬∃ before after : List Byte, t = before ++ [0x6D, 0x61, 0x6A] ++ after)

/-- R116: FALLBACK whenever no token has a root, the recognised chords otherwise, and never the empty sequence. -/
def Obligations.FallbackWhenNoTokenHasARoot : Prop := ∀ text : List Byte,
  ((∀ t ∈ tokens text, tokenRoot t = none) → chordSequence text = [0x00000000, 0x00000007, 0x00000019, 0x00000005]) ∧
  ((∃ t ∈ tokens text, tokenRoot t ≠ none) → chordSequence text = (tokens text).filterMap tokenEntry) ∧
  chordSequence text ≠ []

/-- R117: PTEMPO on a text whose first maximal digit run is `digits` sets BPM to its clamped number and nothing else. -/
def Obligations.PtempoReadsTheFirstDigitRun : Prop := ∀ (s : State) (before digits after : List Byte),
  s.textLen.toNat ≤ s.params.textCap → s.text = before ++ digits ++ after →
  (∀ b ∈ before, ¬(0x30 ≤ b.toNat ∧ b.toNat ≤ 0x39)) → digits ≠ [] →
  (∀ b ∈ digits, 0x30 ≤ b.toNat ∧ b.toNat ≤ 0x39) →
  (∀ b, after.head? = some b → ¬(0x30 ≤ b.toNat ∧ b.toNat ≤ 0x39)) →
  exec .ptempo s = .next { s with
    bpm := BitVec.ofNat 32 (min (max (decimalValue digits) 60) 200)
    status := succeeded s.status false, eng := none }

/-- R117: PTEMPO on a text without a digit, the empty one among them, sets BPM to 120 and nothing else. -/
def Obligations.PtempoDefaultsTo120 : Prop := ∀ s : State,
  s.textLen.toNat ≤ s.params.textCap → (∀ b ∈ s.text, ¬(0x30 ≤ b.toNat ∧ b.toNat ≤ 0x39)) →
  exec .ptempo s = .next { s with bpm := 120, status := succeeded s.status false, eng := none }

/-- R117: the BPM that PTEMPO writes is what accumulating acc <- min(10·acc + d, 201) over the first digit run gives, clamped; the
accumulated values stay below 2^12. -/
def Obligations.SaturatingTempoAgrees : Prop := ∀ (s : State) (before digits after : List Byte),
  s.textLen.toNat ≤ s.params.textCap → s.text = before ++ digits ++ after →
  (∀ b ∈ before, ¬(0x30 ≤ b.toNat ∧ b.toNat ≤ 0x39)) → digits ≠ [] →
  (∀ b ∈ digits, 0x30 ≤ b.toNat ∧ b.toNat ≤ 0x39) →
  (∀ b, after.head? = some b → ¬(0x30 ≤ b.toNat ∧ b.toNat ≤ 0x39)) →
  ∃ t, exec .ptempo s = .next t ∧
    t.bpm.toNat = min (max (digits.foldl (fun acc d => min (10 * acc + (d.toNat - 0x30)) 201) 0) 60) 200 ∧
    ∀ run d rest, digits = run ++ d :: rest →
      10 * run.foldl (fun acc d => min (10 * acc + (d.toNat - 0x30)) 201) 0 + (d.toNat - 0x30) < 2 ^ 12

/-- R118: PCHORD writes the sequence to CTAB[0 .. m) and its length to CHORD_COUNT, and nothing else; the entry of a token with root r
is r in bits [3:0], minor in bit [4] and zeros above (R96). -/
def Obligations.PchordWritesTheSequence : Prop :=
  (∀ (token : List Byte) (r : Nat), tokenRoot token = some r →
    r ≤ 11 ∧ ∃ e, tokenEntry token = some e ∧ e.toNat = (if tokenMinor token then 16 else 0) + r) ∧
  ∀ s : State, s.params.legal = true →
  s.textLen.toNat ≤ s.params.textCap → (chordSequence s.text).length ≤ s.params.chordCap →
  ∃ t, exec .pchord s = .next t ∧
    t = { s with
      mem := t.mem, chordCount := BitVec.ofNat 32 (chordSequence s.text).length
      status := succeeded s.status false, eng := none } ∧
    keepsBytesOutside s t 0x00002000 (4 * (chordSequence s.text).length) ∧
    (∀ k (hk : k < (chordSequence s.text).length), t.wordAt (0x00002000 + 4 * k) = (chordSequence s.text)[k]) ∧
    1 ≤ t.chordCount.toNat

/-- R234, parse rows: LEN_RANGE for both commands, and CHORD_OVERFLOW for PCHORD only if the length is in range. -/
def Obligations.ParseCommandsReportErrors : Prop := ∀ s : State,
  (s.params.textCap < s.textLen.toNat → exec .ptempo s = errorCompletion s 0x02 ∧ exec .pchord s = errorCompletion s 0x02) ∧
  (s.textLen.toNat ≤ s.params.textCap → s.params.chordCap < (chordSequence s.text).length →
    exec .pchord s = errorCompletion s 0x08)

/-! ## Synthesizer -/

/-- R145: SPC is the floor of 240·SR / B, at least 1 and below 2^33. -/
def Obligations.SamplesPerChordIsTheFloor : Prop := ∀ sr bpm : Nat,
  1 ≤ sr → sr ≤ 2 ^ 31 - 1 → 60 ≤ bpm → bpm ≤ 200 →
  samplesPerChord sr bpm * bpm ≤ 240 * sr ∧ 240 * sr < (samplesPerChord sr bpm + 1) * bpm ∧
  1 ≤ samplesPerChord sr bpm ∧ samplesPerChord sr bpm < 2 ^ 33

/-- R147: the three cases of the envelope, the attack first; it is +0 at the window's start and never leaves [0, 1]. -/
def Obligations.EnvelopeHasThreeCases : Prop := ∀ p spc : Nat, p < spc →
  (p < 2000 → envelope p spc = div64 (nat64 p) 0x409F400000000000) ∧
  (2000 ≤ p → spc - 2000 ≤ p → envelope p spc = div64 (nat64 (spc - p)) 0x409F400000000000) ∧
  (2000 ≤ p → p < spc - 2000 → envelope p spc = 0x3FF0000000000000) ∧
  envelope 0 spc = 0 ∧ (envelope p spc).toNat ≤ 0x3FF0000000000000

/-- R7: what every SIN admits: +0 at +0, and for a finite argument a finite value in [-1, 1]. At an infinity and a NaN, where R7 states
nothing, the model keeps the limits that R153 and R154 imply: in [-1, 1], and at a NaN not negative (log entry 9). -/
def Obligations.EverySineIsAdmissible : Prop := ∀ (impl : Nat) (x : F64), sinOf impl 0 = 0 ∧
  isFinite64 (sinOf impl x) = true ∧ -1 ≤ value64 (sinOf impl x) ∧ value64 (sinOf impl x) ≤ 1 ∧
  (isNaN64 x = true → (sinOf impl x).getLsbD 63 = false)

/-- R146 to R152: SYNTH writes every sample of IBUF[0 .. N) by the formula, and nothing else; no sample
is a NaN and NAN stays. (Where a phase overflows, that rests on the limits of SIN's free value: log entry 9.) -/
def Obligations.SynthWritesTheFormula : Prop := ∀ s : State, synthOperandsOk s →
  ∃ t, exec .synth s = .next t ∧
    t = { s with mem := t.mem, status := succeeded s.status false, eng := none } ∧
    keepsBytesOutside s t 0x02000000 (4 * s.ibufLen.toNat) ∧
    ∀ i, i < s.ibufLen.toNat →
      isFinite64 (synthOut64 s i) = true ∧ t.wordAt (0x02000000 + 4 * i) = f64to32 (synthOut64 s i)

/-- R234, SYNTH row: the first failing check is reported. -/
def Obligations.SynthReportsTheFirstError : Prop := ∀ s : State,
  exec .synth s =
    if s.params.sampleCap < s.ibufLen.toNat then errorCompletion s 0x02
    else if s.params.chordCap < s.chordCount.toNat then errorCompletion s 0x02
    else if s.ibufLen.toNat = 0 then errorCompletion s 0x03
    else if s.chordCount.toNat = 0 then errorCompletion s 0x06
    else if s.ibufSr.toNat = 0 ∨ 0x80000000 ≤ s.ibufSr.toNat then errorCompletion s 0x04
    else if (List.range s.chordCount.toNat).any (fun k =>
      decide (12 ≤ (s.wordAt (0x00002000 + 4 * k)).toNat % 16 ∨ 32 ≤ (s.wordAt (0x00002000 + 4 * k)).toNat)) then
      errorCompletion s 0x07
    else .next (finishCommand (s.writeBytes ibufBase (wordBytes (synthSamples s))))

/-- R153: no sample that SYNTH writes is a NaN, an infinity, or larger in magnitude than 0.5, for every SIN and every pitch table. (Where
a phase overflows, SIN's free value keeps the limits that this rule implies: log entry 9.) -/
def Obligations.SynthSamplesStayBelowHalf : Prop := ∀ s : State, synthOperandsOk s →
  ∃ t, exec .synth s = .next t ∧ ∀ i, i < s.ibufLen.toNat →
    isFinite32 (t.wordAt (0x02000000 + 4 * i)) = true ∧ isNaN32 (t.wordAt (0x02000000 + 4 * i)) = false ∧
    |value32 (t.wordAt (0x02000000 + 4 * i))| ≤ 1 / 2

/-- R154: IBUF[0] is +0.0 for every SIN and every legal pitch table, and the sample at every chord boundary is a zero with the sign of
value(i). (Where a phase overflows, SIN's free value keeps the limits that this rule implies: log entry 9.) -/
def Obligations.SynthBoundariesAreZero : Prop := ∀ s : State, s.params.legal = true → synthOperandsOk s →
  ∃ t, exec .synth s = .next t ∧ t.wordAt 0x02000000 = 0x00000000 ∧
    ∀ i, i < s.ibufLen.toNat → i % (240 * s.ibufSr.toNat / s.bpm.toNat) = 0 →
      t.wordAt (0x02000000 + 4 * i) = if (synthValue64 s i).getLsbD 63 then 0x80000000 else 0x00000000

/-- R155: SYNTH's samples are a function of N, SR, B, K, CTAB[0 .. K) and the parameters alone. -/
def Obligations.SynthDependsOnItsOperandsAlone : Prop := ∀ s u : State,
  u.ibufLen = s.ibufLen → u.ibufSr = s.ibufSr → u.bpm = s.bpm → u.chordCount = s.chordCount → u.params = s.params →
  (∀ k, k < s.chordCount.toNat → u.wordAt (0x00002000 + 4 * k) = s.wordAt (0x00002000 + 4 * k)) →
  ∃ t v, exec .synth s = .next t ∧ exec .synth u = .next v ∧ t.status.errcode = v.status.errcode ∧
    (t.status.errcode = 0 → ∀ i, i < s.ibufLen.toNat → v.wordAt (0x02000000 + 4 * i) = t.wordAt (0x02000000 + 4 * i))

/-! ## Mixer -/

/-- R177: MIX I and MIX V write MBUF[0 .. N), MBUF_LEN, MBUF_SR and NAN, and nothing else. -/
def Obligations.MixWritesTheLimitedSums : Prop := ∀ s : State,
  s.vbufLen.toNat ≤ s.params.sampleCap → legalRate s.vbufSr →
  (∃ t, exec .mixV s = .next t ∧ mixed s t 0x01000000 s.vbufLen) ∧
  (s.ibufLen.toNat ≤ s.params.sampleCap → s.ibufSr = s.vbufSr →
    ∃ t, exec .mixI s = .next t ∧ mixed s t 0x02000000 s.ibufLen)

/-- R234, MIX row: the first failing check is reported, for both forms. -/
def Obligations.MixReportsTheFirstError : Prop := ∀ s : State,
  (s.params.sampleCap < s.vbufLen.toNat → exec .mixI s = errorCompletion s 0x02 ∧ exec .mixV s = errorCompletion s 0x02) ∧
  (s.params.sampleCap < s.ibufLen.toNat → exec .mixI s = errorCompletion s 0x02) ∧
  (s.vbufLen.toNat ≤ s.params.sampleCap → ¬legalRate s.vbufSr → exec .mixV s = errorCompletion s 0x04) ∧
  (s.vbufLen.toNat ≤ s.params.sampleCap → s.ibufLen.toNat ≤ s.params.sampleCap →
    (¬legalRate s.vbufSr ∨ ¬legalRate s.ibufSr → exec .mixI s = errorCompletion s 0x04) ∧
    (legalRate s.vbufSr → legalRate s.ibufSr → s.vbufSr ≠ s.ibufSr → exec .mixI s = errorCompletion s 0x05))

/-- R174: the limiter on a sum that is not a NaN: below -1 (and -∞) it gives -1.0, above 1 (and +∞) 1.0, and the sum itself, -0.0
included, in between; the stored sample is in [-1, 1]. -/
def Obligations.LimiterClampsToOne : Prop := ∀ x : F64, isNaN64 x = false →
  (x = 0xFFF0000000000000 ∨ (isFinite64 x = true ∧ value64 x < -1) → mixLimited x = 0xBFF0000000000000) ∧
  (x = 0x7FF0000000000000 ∨ (isFinite64 x = true ∧ 1 < value64 x) → mixLimited x = 0x3FF0000000000000) ∧
  (isFinite64 x = true → -1 ≤ value64 x → value64 x ≤ 1 → mixLimited x = x) ∧
  isFinite32 (f64to32 (mixLimited x)) = true ∧
  -1 ≤ value32 (f64to32 (mixLimited x)) ∧ value32 (f64to32 (mixLimited x)) ≤ 1

/-- R174, R175, R179: whatever the inputs and the gains, every sample that a successful MIX writes is a number in [-1, 1]. -/
def Obligations.MixedSamplesLieInRange : Prop := ∀ (i : Instr) (s : State), i = .mixI ∨ i = .mixV →
  ∃ t, exec i s = .next t ∧ (t.status.err = false → ∀ k, k < (if i = .mixI then max s.vbufLen.toNat s.ibufLen.toNat else s.vbufLen.toNat) →
    isFinite32 (t.wordAt (0x03000000 + 4 * k)) = true ∧
    -1 ≤ value32 (t.wordAt (0x03000000 + 4 * k)) ∧ value32 (t.wordAt (0x03000000 + 4 * k)) ≤ 1)

/-- R179: mixing the vocal with itself at gains 1.0 and +0.0 gives every finite sample in [-1, 1] back bit for bit. -/
def Obligations.SelfMixIsTheIdentity : Prop := ∀ s : State,
  s.vbufLen.toNat ≤ s.params.sampleCap → legalRate s.vbufSr → s.gainV = 0x3F800000 → s.gainI = 0x00000000 →
  (∀ i, i < s.vbufLen.toNat → (s.wordAt (0x01000000 + 4 * i)).toNat % 2 ^ 31 ≤ 0x3F800000) →
  ∃ t, exec .mixV s = .next t ∧ t.status.nan = s.status.nan ∧ t.mbufLen = s.vbufLen ∧
    ∀ i, i < s.vbufLen.toNat → t.wordAt (0x03000000 + 4 * i) = s.wordAt (0x01000000 + 4 * i)

/-! ## Encoder -/

/-- R191: for a finite sample the scaled sample is finite and exactly 32768 times as large. -/
def Obligations.ScalingIsExact : Prop := ∀ x : F32,
  (isFinite32 x = true → isFinite64 (mul64 (f32to64 x) 0x40E0000000000000) = true ∧
    value64 (mul64 (f32to64 x) 0x40E0000000000000) = 32768 * value32 x) ∧
  (x = 0x7F800000 → mul64 (f32to64 x) 0x40E0000000000000 = 0x7FF0000000000000) ∧
  (x = 0xFF800000 → mul64 (f32to64 x) 0x40E0000000000000 = 0xFFF0000000000000) ∧
  (isNaN32 x = true → isNaN64 (mul64 (f32to64 x) 0x40E0000000000000) = true)

/-- R192, R193: round to nearest, ties away from zero, exactly; clamp to [-32768, 32767]; the infinities give the extremes, a NaN 0. -/
def Obligations.QuantizerRoundsHalfAway : Prop := ∀ y : F64,
  (isFinite64 y = true → 0 ≤ value64 y → quantizeScaled y = min (max ⌊value64 y + 1 / 2⌋ (-32768)) 32767) ∧
  (isFinite64 y = true → value64 y < 0 → quantizeScaled y = min (max (-⌊-value64 y + 1 / 2⌋) (-32768)) 32767) ∧
  (y = 0x7FF0000000000000 → quantizeScaled y = 32767) ∧ (y = 0xFFF0000000000000 → quantizeScaled y = -32768) ∧
  (isNaN64 y = true → quantizeScaled y = 0)

/-- R197: a quantized sample, read as q / 32768, is within 1/32768 of every sample in [-1, 1]. -/
def Obligations.QuantizerRoundTrip : Prop := ∀ x : F32, isFinite32 x = true → -1 ≤ value32 x → value32 x ≤ 1 →
  |(quantize x : ℚ) / 32768 - value32 x| ≤ 1 / 32768

/-- R194 to R196: each ENCODE form writes the header, the payload, WAV_LEN and NAN for its own source, and nothing else. -/
def Obligations.EncodeWritesTheStream : Prop := ∀ s : State, s.params.legal = true →
  (encodeOperandsOk s s.mbufLen s.mbufSr → ∃ t, exec .encodeM s = .next t ∧ encoded s t 0x03000000 s.mbufLen s.mbufSr) ∧
  (encodeOperandsOk s s.vbufLen s.vbufSr → ∃ t, exec .encodeV s = .next t ∧ encoded s t 0x01000000 s.vbufLen s.vbufSr) ∧
  (encodeOperandsOk s s.ibufLen s.ibufSr → ∃ t, exec .encodeI s = .next t ∧ encoded s t 0x02000000 s.ibufLen s.ibufSr)

/-- R234, ENCODE row: the first failing check is reported, for each form's own source. -/
def Obligations.EncodeReportsTheFirstError : Prop := ∀ (s : State) (i : Instr) (len rate : Word),
  (i, len, rate) ∈ [(Instr.encodeM, s.mbufLen, s.mbufSr), (Instr.encodeV, s.vbufLen, s.vbufSr), (Instr.encodeI, s.ibufLen, s.ibufSr)] →
  (s.params.sampleCap < len.toNat → exec i s = errorCompletion s 0x02) ∧
  (len.toNat ≤ s.params.sampleCap → len.toNat = 0 → exec i s = errorCompletion s 0x03) ∧
  (len.toNat ≤ s.params.sampleCap → len.toNat ≠ 0 → ¬legalRate rate → exec i s = errorCompletion s 0x04)

/-! ## Binary64 arithmetic -/

/-- R12: rne64 and rne32 give a nearest number, at a tie the one whose last bit is 0, and from half a last place above the largest
finite number on the infinity; f64to32 is rne32; add64, mul64 and div64 are rne64 of the exact result, with the listed cases of
zeros, infinities and NaNs. -/
def Obligations.RoundingIsToNearestEven : Prop :=
  (∀ (neg : Bool) (num den : Nat), 0 < den →
    (rne64 neg num den).getLsbD 63 = neg ∧ (rne32 neg num den).getLsbD 31 = neg ∧
    ((num : ℚ) / den < (2 ^ 54 - 1) * 2 ^ 970 →
      nearestEven64 ((if neg then -1 else 1) * ((num : ℚ) / den)) (rne64 neg num den)) ∧
    ((2 ^ 54 - 1) * 2 ^ 970 ≤ (num : ℚ) / den → rne64 neg num den = signedInf neg) ∧
    ((num : ℚ) / den < (2 ^ 25 - 1) * 2 ^ 103 →
      nearestEven32 ((if neg then -1 else 1) * ((num : ℚ) / den)) (rne32 neg num den)) ∧
    ((2 ^ 25 - 1) * 2 ^ 103 ≤ (num : ℚ) / den → rne32 neg num den = if neg then 0xFF800000 else 0x7F800000)) ∧
  (∀ x : F64,
    (isFinite64 x = true → ∀ num den : Nat, 0 < den → (num : ℚ) / den = |value64 x| →
      f64to32 x = rne32 (x.getLsbD 63) num den) ∧
    (isNaN64 x = true → isNaN32 (f64to32 x) = true)) ∧
  f64to32 0x7FF0000000000000 = 0x7F800000 ∧ f64to32 0xFFF0000000000000 = 0xFF800000 ∧
  ∀ x y : F64, addRounds x y ∧ mulRounds x y ∧ divRounds x y

/-- R12: widening is exact and keeps the sign of zero, infinities and NaN-ness; narrowing a widened sample gives it back. -/
def Obligations.WideningIsExact : Prop := ∀ x : F32,
  (isFinite32 x = true → isFinite64 (f32to64 x) = true ∧ value64 (f32to64 x) = value32 x) ∧
  f32to64 0x00000000 = 0x0000000000000000 ∧ f32to64 0x80000000 = 0x8000000000000000 ∧
  f32to64 0x7F800000 = 0x7FF0000000000000 ∧ f32to64 0xFF800000 = 0xFFF0000000000000 ∧
  (isNaN32 x = isNaN64 (f32to64 x)) ∧ (isNaN32 x = false → f64to32 (f32to64 x) = x)

/-- R173: the product of two finite widened samples is exact. -/
def Obligations.SampleProductsAreExact : Prop := ∀ x g : F32, isFinite32 x = true → isFinite32 g = true →
  isFinite64 (mul64 (f32to64 x) (f32to64 g)) = true ∧
  value64 (mul64 (f32to64 x) (f32to64 g)) = value32 x * value32 g

/-! ## The bus -/

/-- R69: a refused read answers 0 and sets ADDRERR, a refused write sets ADDRERR, busy or not; nothing else changes and irq stays. -/
def Obligations.RefusedAccessOnlySetsAddrErr : Prop :=
  ∀ (s : State) (a : Word) (size : AccessSize) (v : Word) (rest : List HostEvent), s.params.legal = true →
  (refused s.params false a.toNat size.bytes → offers s (.read a size) rest →
    step s = .next { s with queue := rest, busReads := 0 :: s.busReads, status := { s.status with addrerr := true } }) ∧
  (refused s.params true a.toNat size.bytes → offers s (.write a size v) rest →
    step s = .next { s with queue := rest, status := { s.status with addrerr := true } })

/-- R76, R271: while BUSY, a write that is not refused is dropped: OVR for CMD, WBUSY for any other register or reserved offset but CTRL and
STATUS and for a memory window; CTRL and STATUS are written. -/
def Obligations.BusyWritesAreDropped : Prop :=
  ∀ (s : State) (w a : Word) (size : AccessSize) (v : Word) (rest : List HostEvent), s.params.legal = true →
  s.eng = some w → ¬refused s.params true a.toNat size.bytes → offers s (.write a size v) rest →
  (a = 0x00000004 → step s = .next (writeCtrl v { s with queue := rest })) ∧
  (a = 0x00000008 → step s = .next { s with queue := rest, status := s.status.clearBits v }) ∧
  (a = 0x0000000C → step s = .next { s with queue := rest, status := { s.status with ovr := true } }) ∧
  (a ≠ 0x00000004 → a ≠ 0x00000008 → a ≠ 0x0000000C →
    step s = .next { s with queue := rest, status := { s.status with wbusy := true } })

/-- R28: a BPM write while IDLE stores clamp(w, 60, 200), and a read returns the stored value, in [60, 200]; PTEMPO, where it
succeeds, writes a value in [60, 200]; 120 at reset. -/
def Obligations.BpmWriteIsClamped : Prop :=
  (∀ (s : State) (v : Word) (rest : List HostEvent), s.eng = none → offers s (.write 0x00000014 .four v) rest →
    ∃ t, step s = .next t ∧ t = { s with queue := rest, bpm := t.bpm } ∧
      t.bpm.toNat = min (max v.toNat 60) 200 ∧ 60 ≤ (readReg t .bpm).toNat ∧ (readReg t .bpm).toNat ≤ 200 ∧
      readReg t .bpm = t.bpm) ∧
  (∀ s : State, s.textLen.toNat ≤ s.params.textCap →
    ∃ t, exec .ptempo s = .next t ∧ t.status.err = false ∧ 60 ≤ (readReg t .bpm).toNat ∧ (readReg t .bpm).toNat ≤ 200) ∧
  readReg State.reset .bpm = 120

/-- R27, R29 to R33: each plain register stores a write while IDLE as written, only it changes, and a read of its offset then answers
the written value. R22, R34 to R36: a write while IDLE to a read-only register or a reserved offset changes nothing and sets no flag. -/
def Obligations.PlainRegistersReadBack : Prop := ∀ (s : State) (a v : Word) (rest : List HostEvent), s.eng = none →
  (a ∈ ([0x00000010, 0x00000018, 0x0000001C, 0x00000020, 0x00000024, 0x00000028, 0x0000002C, 0x00000030, 0x00000034, 0x00000038] : List Word) →
    offers s (.write a .four v) (promptly (.read a .four) :: rest) →
    ∃ t, step s = .next t ∧
      t = { s with
        queue := promptly (.read a .four) :: rest
        textLen := if a = 0x00000010 then v else s.textLen
        chordCount := if a = 0x00000018 then v else s.chordCount
        gainV := if a = 0x0000001C then v else s.gainV
        gainI := if a = 0x00000020 then v else s.gainI
        vbufLen := if a = 0x00000024 then v else s.vbufLen
        vbufSr := if a = 0x00000028 then v else s.vbufSr
        ibufLen := if a = 0x0000002C then v else s.ibufLen
        ibufSr := if a = 0x00000030 then v else s.ibufSr
        mbufLen := if a = 0x00000034 then v else s.mbufLen
        mbufSr := if a = 0x00000038 then v else s.mbufSr } ∧
      step t = .next { t with queue := rest, busReads := v :: t.busReads } ∧
      ∀ r : Reg, regAddr r ≠ a → readReg t r = readReg s r) ∧
  (a ∈ ([0x00000000, 0x0000003C, 0x00000040, 0x00000044, 0x00000048] : List Word) ∨
      (0x4C ≤ a.toNat ∧ a.toNat ≤ 0xFFC ∧ a.toNat % 4 = 0) →
    offers s (.write a .four v) rest → step s = .next { s with queue := rest })

/-- R66, R70: a write of a populated, writable, aligned place while IDLE changes the bytes it covers, keeps every other byte, and a read of the
same bytes answers the written data. -/
def Obligations.MemoryWriteThenRead : Prop :=
  ∀ (s : State) (a : Word) (size : AccessSize) (v : Word) (rest : List HostEvent), s.params.legal = true →
  s.eng = none → 0x1000 ≤ a.toNat → ¬refused s.params true a.toNat size.bytes →
  offers s (.write a size v) (promptly (.read a size) :: rest) →
  ∃ t, step s = .next t ∧
    t = { s with queue := promptly (.read a size) :: rest, mem := t.mem } ∧
    keepsBytesOutside s t a.toNat size.bytes ∧
    (∀ k, k < size.bytes → (t.byteAt (a.toNat + k)).toNat = v.toNat / 256 ^ k % 256) ∧
    step t = .next { t with
      queue := rest, busReads := BitVec.ofNat 32 (v.toNat % 256 ^ size.bytes) :: t.busReads }

/-- R70, R75: a read that is not refused answers the current content of bytes outside the running command's output range, or the
register's current value, and leaves the block as it was. (Where the range ends when a length exceeds its capacity, and that it is
empty for PCHORD with TEXT_LEN above TEXT_CAP, is the model's choice: log entry 4.) -/
def Obligations.ReadsAnswerAndChangeNothing : Prop :=
  ∀ (s : State) (a : Word) (size : AccessSize) (rest : List HostEvent), s.params.legal = true →
  ¬refused s.params false a.toNat size.bytes → offers s (.read a size) rest →
  ∃ t v, step s = .next t ∧ s.SameBlock t ∧ t.busReads = v :: s.busReads ∧ t.queue = rest ∧
    (0x1000 ≤ a.toNat → (∀ k, k < size.bytes → s.inFlight (a.toNat + k) = false) →
      v = BitVec.ofNat 32 (natOfBytes (s.bytesAt a.toNat size.bytes))) ∧
    (∀ r : Reg, a = regAddr r → v = readReg s r) ∧ (0x4C ≤ a.toNat → a.toNat < 0x1000 → v = 0)

/-- R40, R98: the PITCH window reads PITCH_HZ, the low word of entry n at 0x3000 + 8n, in every state; an entry that holds
440.0 reads 0x00000000 and 0x407B8000. -/
def Obligations.PitchWindowReadsTheTable : Prop :=
  (∀ (s : State) (n : Nat), n < 12 →
    s.wordAt (0x00003000 + 8 * n) = (s.params.pitch.toList.getD n 0).extractLsb' 0 32 ∧
    s.wordAt (0x00003004 + 8 * n) = (s.params.pitch.toList.getD n 0).extractLsb' 32 32) ∧
  (∀ s : State, s.params.pitch.toList.getD 9 0 = 0x407B800000000000 →
    s.wordAt 0x00003048 = 0x00000000 ∧ s.wordAt 0x0000304C = 0x407B8000)

/-- R24, R25: the layout of STATUS. -/
def Obligations.StatusLayout : Prop := ∀ s : State,
  s.statusWord.getLsbD 0 = s.eng.isSome ∧ s.statusWord.getLsbD 1 = s.status.done ∧ s.statusWord.getLsbD 2 = s.status.err ∧
  s.statusWord.getLsbD 3 = s.status.nan ∧ s.statusWord.getLsbD 4 = s.status.ovr ∧ s.statusWord.getLsbD 5 = s.status.wbusy ∧
  s.statusWord.getLsbD 6 = s.status.addrerr ∧ s.statusWord.getLsbD 7 = false ∧
  s.statusWord.extractLsb' 8 8 = s.status.errcode ∧ s.statusWord.extractLsb' 16 16 = 0

/-- R214: a STATUS write, idle or busy, clears each of bits 1 to 6 where the written value has a 1, and changes nothing else. -/
def Obligations.StatusWriteClearsOnes : Prop := ∀ (s : State) (v : Word) (rest : List HostEvent),
  offers s (.write 0x00000008 .four v) rest →
  ∃ t, step s = .next t ∧ t = { s with queue := rest, status := t.status } ∧
    ∀ k, k < 32 → t.statusWord.getLsbD k =
      (s.statusWord.getLsbD k && !(decide (1 ≤ k ∧ k ≤ 6) && v.getLsbD k))

/-- R215, R23: a CTRL write, idle or busy: bit 1 set resets the registers with IE 0 whatever bit 0 holds, else IE becomes bit 0 and nothing
else changes; a CTRL read answers IE in bit 0. -/
def Obligations.CtrlWriteSetsIeOrResets : Prop := ∀ (s : State) (v : Word) (rest : List HostEvent),
  offers s (.write 0x00000004 .four v) rest →
  ∃ t, step s = .next t ∧ (readReg t .ctrl = if t.ctrlIE then 1 else 0) ∧
    (v.getLsbD 1 = true → registersReset t ∧ t = softReset { s with queue := rest } ∧ t.irq = false) ∧
    (v.getLsbD 1 = false → t = { s with queue := rest, ctrlIE := v.getLsbD 0 } ∧
      t.irq = (s.status.done && v.getLsbD 0))

/-- R44, R236: irq is DONE and IE at every instant, and 0 after reset. -/
def Obligations.IrqIsDoneAndEnabled : Prop :=
  (∀ s : State, s.irq = true ↔ (s.statusWord.getLsbD 1 = true ∧ readReg s .ctrl = 1)) ∧ State.reset.irq = false

/-! ## Reset -/

/-- R261: what the registers read right after reset, with the default parameters. -/
def Obligations.ResetValues : Prop :=
  registersReset State.reset ∧
  regList.map (readReg State.reset) =
    [0x53594E07, 0, 0, 0, 0, 120, 0, 0x3F800000, 0x3F800000, 0, 24000, 0, 24000, 0, 24000, 0, 0x400, 0x100, 0x400000]

/-- R261, R263: a soft reset resets every register; while IDLE it changes no memory; while BUSY it abandons the command and keeps
every byte outside its output range. -/
def Obligations.SoftResetAbandonsTheCommand : Prop := ∀ (s : State) (v : Word) (rest : List HostEvent),
  v.getLsbD 1 = true → offers s (.write 0x00000004 .four v) rest →
  ∃ t, step s = .next t ∧ registersReset t ∧ t.irq = false ∧ t.params = s.params ∧
    (s.eng = none → ∀ a, t.byteAt a = s.byteAt a) ∧
    (∀ w i, s.eng = some w → decodeWord w = .ok i → keepsBytesOutside s t (outputBytes i s).1 (outputBytes i s).2) ∧
    (∀ w e, s.eng = some w → decodeWord w = .error e → ∀ a, t.byteAt a = s.byteAt a)

/-- R260 to R262: the reset input resets every register at any time, keeps PITCH, and leaves no written byte. -/
def Obligations.PowerOnResetsEverything : Prop := ∀ (s : State) (rest : List HostEvent), offers s .powerOn rest →
  ∃ t, step s = .next t ∧ registersReset t ∧ t.mem = [] ∧ t.params = s.params ∧
    ∀ a, 0x3000 ≤ a → a < 0x3060 → t.byteAt a = s.byteAt a

/-! ## Whole-machine rules -/

/-- The invariant of Safety.lean holds after reset. -/
def Obligations.ResetMeetsTheInvariant : Prop := State.reset.Inv

/-- Every step keeps the invariant, and no step changes the parameters: memory stays canonical and inside the populated parts, BPM stays in
[60, 200] (R28), a pending command shows none of its effects (R43), codes stay below 0x09 (R231), WAV_LEN stays a possible length (R34). -/
def Obligations.StepKeepsTheInvariant : Prop := ∀ s t : State,
  s.Inv → step s = .next t → t.Inv ∧ t.params = s.params

/-- R76: the inputs of a running command cannot change under it, so its result depends only on the state at its acceptance: whatever the host
does while it runs, short of a reset, the completion gives the same registers, memories, DONE, ERR and ERRCODE. -/
def Obligations.ResultDependsOnAcceptanceAlone : Prop := ∀ (s : State) (w : Word) (events : List BusEvent),
  s.eng = some w → (∀ e ∈ events, isReset e = false) →
  (events.foldl (fun u e => perform e u) s).eng = some w ∧
  ∃ t u, engineStep w s = .next t ∧ engineStep w (events.foldl (fun u e => perform e u) s) = .next u ∧ sameResult t u
end

