-- ==== Sys2Proof/Laws/State.lean ====
section
/-! SUPPORT. Laws/State.lean: one lemma per field per update of the state, true by rfl, so that no later proof unfolds a record
update. -/

namespace Sys2Proof.Machine

/-! ### writeBytes -/

@[simp] theorem writeBytes_ctrlIE (s : State) (base : Nat) (bytes : List Byte) :
    (s.writeBytes base bytes).ctrlIE = s.ctrlIE := rfl
@[simp] theorem writeBytes_status (s : State) (base : Nat) (bytes : List Byte) :
    (s.writeBytes base bytes).status = s.status := rfl
@[simp] theorem writeBytes_lastCmd (s : State) (base : Nat) (bytes : List Byte) :
    (s.writeBytes base bytes).lastCmd = s.lastCmd := rfl
@[simp] theorem writeBytes_eng (s : State) (base : Nat) (bytes : List Byte) :
    (s.writeBytes base bytes).eng = s.eng := rfl
@[simp] theorem writeBytes_textLen (s : State) (base : Nat) (bytes : List Byte) :
    (s.writeBytes base bytes).textLen = s.textLen := rfl
@[simp] theorem writeBytes_bpm (s : State) (base : Nat) (bytes : List Byte) :
    (s.writeBytes base bytes).bpm = s.bpm := rfl
@[simp] theorem writeBytes_chordCount (s : State) (base : Nat) (bytes : List Byte) :
    (s.writeBytes base bytes).chordCount = s.chordCount := rfl
@[simp] theorem writeBytes_gainV (s : State) (base : Nat) (bytes : List Byte) :
    (s.writeBytes base bytes).gainV = s.gainV := rfl
@[simp] theorem writeBytes_gainI (s : State) (base : Nat) (bytes : List Byte) :
    (s.writeBytes base bytes).gainI = s.gainI := rfl
@[simp] theorem writeBytes_vbufLen (s : State) (base : Nat) (bytes : List Byte) :
    (s.writeBytes base bytes).vbufLen = s.vbufLen := rfl
@[simp] theorem writeBytes_vbufSr (s : State) (base : Nat) (bytes : List Byte) :
    (s.writeBytes base bytes).vbufSr = s.vbufSr := rfl
@[simp] theorem writeBytes_ibufLen (s : State) (base : Nat) (bytes : List Byte) :
    (s.writeBytes base bytes).ibufLen = s.ibufLen := rfl
@[simp] theorem writeBytes_ibufSr (s : State) (base : Nat) (bytes : List Byte) :
    (s.writeBytes base bytes).ibufSr = s.ibufSr := rfl
@[simp] theorem writeBytes_mbufLen (s : State) (base : Nat) (bytes : List Byte) :
    (s.writeBytes base bytes).mbufLen = s.mbufLen := rfl
@[simp] theorem writeBytes_mbufSr (s : State) (base : Nat) (bytes : List Byte) :
    (s.writeBytes base bytes).mbufSr = s.mbufSr := rfl
@[simp] theorem writeBytes_wavLen (s : State) (base : Nat) (bytes : List Byte) :
    (s.writeBytes base bytes).wavLen = s.wavLen := rfl
@[simp] theorem writeBytes_mem (s : State) (base : Nat) (bytes : List Byte) :
    (s.writeBytes base bytes).mem = memWrite s.mem base bytes := rfl
@[simp] theorem writeBytes_params (s : State) (base : Nat) (bytes : List Byte) :
    (s.writeBytes base bytes).params = s.params := rfl
@[simp] theorem writeBytes_queue (s : State) (base : Nat) (bytes : List Byte) :
    (s.writeBytes base bytes).queue = s.queue := rfl
@[simp] theorem writeBytes_busReads (s : State) (base : Nat) (bytes : List Byte) :
    (s.writeBytes base bytes).busReads = s.busReads := rfl
@[simp] theorem writeBytes_draws (s : State) (base : Nat) (bytes : List Byte) :
    (s.writeBytes base bytes).draws = s.draws := rfl
@[simp] theorem writeBytes_powerOnDraw (s : State) (base : Nat) (bytes : List Byte) :
    (s.writeBytes base bytes).powerOnDraw = s.powerOnDraw := rfl

/-! ### failCommand -/

@[simp] theorem failCommand_ctrlIE (e : CmdError) (s : State) : (failCommand e s).ctrlIE = s.ctrlIE := rfl
@[simp] theorem failCommand_status (e : CmdError) (s : State) :
    (failCommand e s).status = { s.status with done := true, err := true, errcode := e.code } := rfl
@[simp] theorem failCommand_lastCmd (e : CmdError) (s : State) : (failCommand e s).lastCmd = s.lastCmd := rfl
@[simp] theorem failCommand_eng (e : CmdError) (s : State) : (failCommand e s).eng = none := rfl
@[simp] theorem failCommand_textLen (e : CmdError) (s : State) : (failCommand e s).textLen = s.textLen := rfl
@[simp] theorem failCommand_bpm (e : CmdError) (s : State) : (failCommand e s).bpm = s.bpm := rfl
@[simp] theorem failCommand_chordCount (e : CmdError) (s : State) : (failCommand e s).chordCount = s.chordCount := rfl
@[simp] theorem failCommand_gainV (e : CmdError) (s : State) : (failCommand e s).gainV = s.gainV := rfl
@[simp] theorem failCommand_gainI (e : CmdError) (s : State) : (failCommand e s).gainI = s.gainI := rfl
@[simp] theorem failCommand_vbufLen (e : CmdError) (s : State) : (failCommand e s).vbufLen = s.vbufLen := rfl
@[simp] theorem failCommand_vbufSr (e : CmdError) (s : State) : (failCommand e s).vbufSr = s.vbufSr := rfl
@[simp] theorem failCommand_ibufLen (e : CmdError) (s : State) : (failCommand e s).ibufLen = s.ibufLen := rfl
@[simp] theorem failCommand_ibufSr (e : CmdError) (s : State) : (failCommand e s).ibufSr = s.ibufSr := rfl
@[simp] theorem failCommand_mbufLen (e : CmdError) (s : State) : (failCommand e s).mbufLen = s.mbufLen := rfl
@[simp] theorem failCommand_mbufSr (e : CmdError) (s : State) : (failCommand e s).mbufSr = s.mbufSr := rfl
@[simp] theorem failCommand_wavLen (e : CmdError) (s : State) : (failCommand e s).wavLen = s.wavLen := rfl
@[simp] theorem failCommand_mem (e : CmdError) (s : State) : (failCommand e s).mem = s.mem := rfl
@[simp] theorem failCommand_params (e : CmdError) (s : State) : (failCommand e s).params = s.params := rfl
@[simp] theorem failCommand_queue (e : CmdError) (s : State) : (failCommand e s).queue = s.queue := rfl
@[simp] theorem failCommand_busReads (e : CmdError) (s : State) : (failCommand e s).busReads = s.busReads := rfl
@[simp] theorem failCommand_draws (e : CmdError) (s : State) : (failCommand e s).draws = s.draws := rfl
@[simp] theorem failCommand_powerOnDraw (e : CmdError) (s : State) : (failCommand e s).powerOnDraw = s.powerOnDraw := rfl

/-! ### finishCommand -/

@[simp] theorem finishCommand_ctrlIE (s : State) : (finishCommand s).ctrlIE = s.ctrlIE := rfl
@[simp] theorem finishCommand_status (s : State) :
    (finishCommand s).status = { s.status with done := true, err := false, errcode := 0 } := rfl
@[simp] theorem finishCommand_lastCmd (s : State) : (finishCommand s).lastCmd = s.lastCmd := rfl
@[simp] theorem finishCommand_eng (s : State) : (finishCommand s).eng = none := rfl
@[simp] theorem finishCommand_textLen (s : State) : (finishCommand s).textLen = s.textLen := rfl
@[simp] theorem finishCommand_bpm (s : State) : (finishCommand s).bpm = s.bpm := rfl
@[simp] theorem finishCommand_chordCount (s : State) : (finishCommand s).chordCount = s.chordCount := rfl
@[simp] theorem finishCommand_gainV (s : State) : (finishCommand s).gainV = s.gainV := rfl
@[simp] theorem finishCommand_gainI (s : State) : (finishCommand s).gainI = s.gainI := rfl
@[simp] theorem finishCommand_vbufLen (s : State) : (finishCommand s).vbufLen = s.vbufLen := rfl
@[simp] theorem finishCommand_vbufSr (s : State) : (finishCommand s).vbufSr = s.vbufSr := rfl
@[simp] theorem finishCommand_ibufLen (s : State) : (finishCommand s).ibufLen = s.ibufLen := rfl
@[simp] theorem finishCommand_ibufSr (s : State) : (finishCommand s).ibufSr = s.ibufSr := rfl
@[simp] theorem finishCommand_mbufLen (s : State) : (finishCommand s).mbufLen = s.mbufLen := rfl
@[simp] theorem finishCommand_mbufSr (s : State) : (finishCommand s).mbufSr = s.mbufSr := rfl
@[simp] theorem finishCommand_wavLen (s : State) : (finishCommand s).wavLen = s.wavLen := rfl
@[simp] theorem finishCommand_mem (s : State) : (finishCommand s).mem = s.mem := rfl
@[simp] theorem finishCommand_params (s : State) : (finishCommand s).params = s.params := rfl
@[simp] theorem finishCommand_queue (s : State) : (finishCommand s).queue = s.queue := rfl
@[simp] theorem finishCommand_busReads (s : State) : (finishCommand s).busReads = s.busReads := rfl
@[simp] theorem finishCommand_draws (s : State) : (finishCommand s).draws = s.draws := rfl
@[simp] theorem finishCommand_powerOnDraw (s : State) : (finishCommand s).powerOnDraw = s.powerOnDraw := rfl

/-! ### noteNan -/

@[simp] theorem noteNan_ctrlIE (s : State) (met : Bool) : (s.noteNan met).ctrlIE = s.ctrlIE := rfl
@[simp] theorem noteNan_status (s : State) (met : Bool) :
    (s.noteNan met).status = { s.status with nan := s.status.nan || met } := rfl
@[simp] theorem noteNan_lastCmd (s : State) (met : Bool) : (s.noteNan met).lastCmd = s.lastCmd := rfl
@[simp] theorem noteNan_eng (s : State) (met : Bool) : (s.noteNan met).eng = s.eng := rfl
@[simp] theorem noteNan_textLen (s : State) (met : Bool) : (s.noteNan met).textLen = s.textLen := rfl
@[simp] theorem noteNan_bpm (s : State) (met : Bool) : (s.noteNan met).bpm = s.bpm := rfl
@[simp] theorem noteNan_chordCount (s : State) (met : Bool) : (s.noteNan met).chordCount = s.chordCount := rfl
@[simp] theorem noteNan_gainV (s : State) (met : Bool) : (s.noteNan met).gainV = s.gainV := rfl
@[simp] theorem noteNan_gainI (s : State) (met : Bool) : (s.noteNan met).gainI = s.gainI := rfl
@[simp] theorem noteNan_vbufLen (s : State) (met : Bool) : (s.noteNan met).vbufLen = s.vbufLen := rfl
@[simp] theorem noteNan_vbufSr (s : State) (met : Bool) : (s.noteNan met).vbufSr = s.vbufSr := rfl
@[simp] theorem noteNan_ibufLen (s : State) (met : Bool) : (s.noteNan met).ibufLen = s.ibufLen := rfl
@[simp] theorem noteNan_ibufSr (s : State) (met : Bool) : (s.noteNan met).ibufSr = s.ibufSr := rfl
@[simp] theorem noteNan_mbufLen (s : State) (met : Bool) : (s.noteNan met).mbufLen = s.mbufLen := rfl
@[simp] theorem noteNan_mbufSr (s : State) (met : Bool) : (s.noteNan met).mbufSr = s.mbufSr := rfl
@[simp] theorem noteNan_wavLen (s : State) (met : Bool) : (s.noteNan met).wavLen = s.wavLen := rfl
@[simp] theorem noteNan_mem (s : State) (met : Bool) : (s.noteNan met).mem = s.mem := rfl
@[simp] theorem noteNan_params (s : State) (met : Bool) : (s.noteNan met).params = s.params := rfl
@[simp] theorem noteNan_queue (s : State) (met : Bool) : (s.noteNan met).queue = s.queue := rfl
@[simp] theorem noteNan_busReads (s : State) (met : Bool) : (s.noteNan met).busReads = s.busReads := rfl
@[simp] theorem noteNan_draws (s : State) (met : Bool) : (s.noteNan met).draws = s.draws := rfl
@[simp] theorem noteNan_powerOnDraw (s : State) (met : Bool) : (s.noteNan met).powerOnDraw = s.powerOnDraw := rfl

/-! ### setOvr -/

@[simp] theorem setOvr_ctrlIE (s : State) : (s.setOvr).ctrlIE = s.ctrlIE := rfl
@[simp] theorem setOvr_status (s : State) : (s.setOvr).status = { s.status with ovr := true } := rfl
@[simp] theorem setOvr_lastCmd (s : State) : (s.setOvr).lastCmd = s.lastCmd := rfl
@[simp] theorem setOvr_eng (s : State) : (s.setOvr).eng = s.eng := rfl
@[simp] theorem setOvr_textLen (s : State) : (s.setOvr).textLen = s.textLen := rfl
@[simp] theorem setOvr_bpm (s : State) : (s.setOvr).bpm = s.bpm := rfl
@[simp] theorem setOvr_chordCount (s : State) : (s.setOvr).chordCount = s.chordCount := rfl
@[simp] theorem setOvr_gainV (s : State) : (s.setOvr).gainV = s.gainV := rfl
@[simp] theorem setOvr_gainI (s : State) : (s.setOvr).gainI = s.gainI := rfl
@[simp] theorem setOvr_vbufLen (s : State) : (s.setOvr).vbufLen = s.vbufLen := rfl
@[simp] theorem setOvr_vbufSr (s : State) : (s.setOvr).vbufSr = s.vbufSr := rfl
@[simp] theorem setOvr_ibufLen (s : State) : (s.setOvr).ibufLen = s.ibufLen := rfl
@[simp] theorem setOvr_ibufSr (s : State) : (s.setOvr).ibufSr = s.ibufSr := rfl
@[simp] theorem setOvr_mbufLen (s : State) : (s.setOvr).mbufLen = s.mbufLen := rfl
@[simp] theorem setOvr_mbufSr (s : State) : (s.setOvr).mbufSr = s.mbufSr := rfl
@[simp] theorem setOvr_wavLen (s : State) : (s.setOvr).wavLen = s.wavLen := rfl
@[simp] theorem setOvr_mem (s : State) : (s.setOvr).mem = s.mem := rfl
@[simp] theorem setOvr_params (s : State) : (s.setOvr).params = s.params := rfl
@[simp] theorem setOvr_queue (s : State) : (s.setOvr).queue = s.queue := rfl
@[simp] theorem setOvr_busReads (s : State) : (s.setOvr).busReads = s.busReads := rfl
@[simp] theorem setOvr_draws (s : State) : (s.setOvr).draws = s.draws := rfl
@[simp] theorem setOvr_powerOnDraw (s : State) : (s.setOvr).powerOnDraw = s.powerOnDraw := rfl

/-! ### setWbusy -/

@[simp] theorem setWbusy_ctrlIE (s : State) : (s.setWbusy).ctrlIE = s.ctrlIE := rfl
@[simp] theorem setWbusy_status (s : State) : (s.setWbusy).status = { s.status with wbusy := true } := rfl
@[simp] theorem setWbusy_lastCmd (s : State) : (s.setWbusy).lastCmd = s.lastCmd := rfl
@[simp] theorem setWbusy_eng (s : State) : (s.setWbusy).eng = s.eng := rfl
@[simp] theorem setWbusy_textLen (s : State) : (s.setWbusy).textLen = s.textLen := rfl
@[simp] theorem setWbusy_bpm (s : State) : (s.setWbusy).bpm = s.bpm := rfl
@[simp] theorem setWbusy_chordCount (s : State) : (s.setWbusy).chordCount = s.chordCount := rfl
@[simp] theorem setWbusy_gainV (s : State) : (s.setWbusy).gainV = s.gainV := rfl
@[simp] theorem setWbusy_gainI (s : State) : (s.setWbusy).gainI = s.gainI := rfl
@[simp] theorem setWbusy_vbufLen (s : State) : (s.setWbusy).vbufLen = s.vbufLen := rfl
@[simp] theorem setWbusy_vbufSr (s : State) : (s.setWbusy).vbufSr = s.vbufSr := rfl
@[simp] theorem setWbusy_ibufLen (s : State) : (s.setWbusy).ibufLen = s.ibufLen := rfl
@[simp] theorem setWbusy_ibufSr (s : State) : (s.setWbusy).ibufSr = s.ibufSr := rfl
@[simp] theorem setWbusy_mbufLen (s : State) : (s.setWbusy).mbufLen = s.mbufLen := rfl
@[simp] theorem setWbusy_mbufSr (s : State) : (s.setWbusy).mbufSr = s.mbufSr := rfl
@[simp] theorem setWbusy_wavLen (s : State) : (s.setWbusy).wavLen = s.wavLen := rfl
@[simp] theorem setWbusy_mem (s : State) : (s.setWbusy).mem = s.mem := rfl
@[simp] theorem setWbusy_params (s : State) : (s.setWbusy).params = s.params := rfl
@[simp] theorem setWbusy_queue (s : State) : (s.setWbusy).queue = s.queue := rfl
@[simp] theorem setWbusy_busReads (s : State) : (s.setWbusy).busReads = s.busReads := rfl
@[simp] theorem setWbusy_draws (s : State) : (s.setWbusy).draws = s.draws := rfl
@[simp] theorem setWbusy_powerOnDraw (s : State) : (s.setWbusy).powerOnDraw = s.powerOnDraw := rfl

/-! ### setAddrErr -/

@[simp] theorem setAddrErr_ctrlIE (s : State) : (s.setAddrErr).ctrlIE = s.ctrlIE := rfl
@[simp] theorem setAddrErr_status (s : State) : (s.setAddrErr).status = { s.status with addrerr := true } := rfl
@[simp] theorem setAddrErr_lastCmd (s : State) : (s.setAddrErr).lastCmd = s.lastCmd := rfl
@[simp] theorem setAddrErr_eng (s : State) : (s.setAddrErr).eng = s.eng := rfl
@[simp] theorem setAddrErr_textLen (s : State) : (s.setAddrErr).textLen = s.textLen := rfl
@[simp] theorem setAddrErr_bpm (s : State) : (s.setAddrErr).bpm = s.bpm := rfl
@[simp] theorem setAddrErr_chordCount (s : State) : (s.setAddrErr).chordCount = s.chordCount := rfl
@[simp] theorem setAddrErr_gainV (s : State) : (s.setAddrErr).gainV = s.gainV := rfl
@[simp] theorem setAddrErr_gainI (s : State) : (s.setAddrErr).gainI = s.gainI := rfl
@[simp] theorem setAddrErr_vbufLen (s : State) : (s.setAddrErr).vbufLen = s.vbufLen := rfl
@[simp] theorem setAddrErr_vbufSr (s : State) : (s.setAddrErr).vbufSr = s.vbufSr := rfl
@[simp] theorem setAddrErr_ibufLen (s : State) : (s.setAddrErr).ibufLen = s.ibufLen := rfl
@[simp] theorem setAddrErr_ibufSr (s : State) : (s.setAddrErr).ibufSr = s.ibufSr := rfl
@[simp] theorem setAddrErr_mbufLen (s : State) : (s.setAddrErr).mbufLen = s.mbufLen := rfl
@[simp] theorem setAddrErr_mbufSr (s : State) : (s.setAddrErr).mbufSr = s.mbufSr := rfl
@[simp] theorem setAddrErr_wavLen (s : State) : (s.setAddrErr).wavLen = s.wavLen := rfl
@[simp] theorem setAddrErr_mem (s : State) : (s.setAddrErr).mem = s.mem := rfl
@[simp] theorem setAddrErr_params (s : State) : (s.setAddrErr).params = s.params := rfl
@[simp] theorem setAddrErr_queue (s : State) : (s.setAddrErr).queue = s.queue := rfl
@[simp] theorem setAddrErr_busReads (s : State) : (s.setAddrErr).busReads = s.busReads := rfl
@[simp] theorem setAddrErr_draws (s : State) : (s.setAddrErr).draws = s.draws := rfl
@[simp] theorem setAddrErr_powerOnDraw (s : State) : (s.setAddrErr).powerOnDraw = s.powerOnDraw := rfl

/-! ### answer -/

@[simp] theorem answer_ctrlIE (s : State) (v : Word) : (s.answer v).ctrlIE = s.ctrlIE := rfl
@[simp] theorem answer_status (s : State) (v : Word) : (s.answer v).status = s.status := rfl
@[simp] theorem answer_lastCmd (s : State) (v : Word) : (s.answer v).lastCmd = s.lastCmd := rfl
@[simp] theorem answer_eng (s : State) (v : Word) : (s.answer v).eng = s.eng := rfl
@[simp] theorem answer_textLen (s : State) (v : Word) : (s.answer v).textLen = s.textLen := rfl
@[simp] theorem answer_bpm (s : State) (v : Word) : (s.answer v).bpm = s.bpm := rfl
@[simp] theorem answer_chordCount (s : State) (v : Word) : (s.answer v).chordCount = s.chordCount := rfl
@[simp] theorem answer_gainV (s : State) (v : Word) : (s.answer v).gainV = s.gainV := rfl
@[simp] theorem answer_gainI (s : State) (v : Word) : (s.answer v).gainI = s.gainI := rfl
@[simp] theorem answer_vbufLen (s : State) (v : Word) : (s.answer v).vbufLen = s.vbufLen := rfl
@[simp] theorem answer_vbufSr (s : State) (v : Word) : (s.answer v).vbufSr = s.vbufSr := rfl
@[simp] theorem answer_ibufLen (s : State) (v : Word) : (s.answer v).ibufLen = s.ibufLen := rfl
@[simp] theorem answer_ibufSr (s : State) (v : Word) : (s.answer v).ibufSr = s.ibufSr := rfl
@[simp] theorem answer_mbufLen (s : State) (v : Word) : (s.answer v).mbufLen = s.mbufLen := rfl
@[simp] theorem answer_mbufSr (s : State) (v : Word) : (s.answer v).mbufSr = s.mbufSr := rfl
@[simp] theorem answer_wavLen (s : State) (v : Word) : (s.answer v).wavLen = s.wavLen := rfl
@[simp] theorem answer_mem (s : State) (v : Word) : (s.answer v).mem = s.mem := rfl
@[simp] theorem answer_params (s : State) (v : Word) : (s.answer v).params = s.params := rfl
@[simp] theorem answer_queue (s : State) (v : Word) : (s.answer v).queue = s.queue := rfl
@[simp] theorem answer_busReads (s : State) (v : Word) : (s.answer v).busReads = v :: s.busReads := rfl
@[simp] theorem answer_draws (s : State) (v : Word) : (s.answer v).draws = s.draws := rfl
@[simp] theorem answer_powerOnDraw (s : State) (v : Word) : (s.answer v).powerOnDraw = s.powerOnDraw := rfl

/-! ### issue -/

@[simp] theorem issue_ctrlIE (w : Word) (s : State) : (issue w s).ctrlIE = s.ctrlIE := rfl
@[simp] theorem issue_status (w : Word) (s : State) :
    (issue w s).status = { s.status with done := false, err := false, errcode := 0 } := rfl
@[simp] theorem issue_lastCmd (w : Word) (s : State) : (issue w s).lastCmd = w := rfl
@[simp] theorem issue_eng (w : Word) (s : State) : (issue w s).eng = some w := rfl
@[simp] theorem issue_textLen (w : Word) (s : State) : (issue w s).textLen = s.textLen := rfl
@[simp] theorem issue_bpm (w : Word) (s : State) : (issue w s).bpm = s.bpm := rfl
@[simp] theorem issue_chordCount (w : Word) (s : State) : (issue w s).chordCount = s.chordCount := rfl
@[simp] theorem issue_gainV (w : Word) (s : State) : (issue w s).gainV = s.gainV := rfl
@[simp] theorem issue_gainI (w : Word) (s : State) : (issue w s).gainI = s.gainI := rfl
@[simp] theorem issue_vbufLen (w : Word) (s : State) : (issue w s).vbufLen = s.vbufLen := rfl
@[simp] theorem issue_vbufSr (w : Word) (s : State) : (issue w s).vbufSr = s.vbufSr := rfl
@[simp] theorem issue_ibufLen (w : Word) (s : State) : (issue w s).ibufLen = s.ibufLen := rfl
@[simp] theorem issue_ibufSr (w : Word) (s : State) : (issue w s).ibufSr = s.ibufSr := rfl
@[simp] theorem issue_mbufLen (w : Word) (s : State) : (issue w s).mbufLen = s.mbufLen := rfl
@[simp] theorem issue_mbufSr (w : Word) (s : State) : (issue w s).mbufSr = s.mbufSr := rfl
@[simp] theorem issue_wavLen (w : Word) (s : State) : (issue w s).wavLen = s.wavLen := rfl
@[simp] theorem issue_mem (w : Word) (s : State) : (issue w s).mem = s.mem := rfl
@[simp] theorem issue_params (w : Word) (s : State) : (issue w s).params = s.params := rfl
@[simp] theorem issue_queue (w : Word) (s : State) : (issue w s).queue = s.queue := rfl
@[simp] theorem issue_busReads (w : Word) (s : State) : (issue w s).busReads = s.busReads := rfl
@[simp] theorem issue_draws (w : Word) (s : State) : (issue w s).draws = s.draws := rfl
@[simp] theorem issue_powerOnDraw (w : Word) (s : State) : (issue w s).powerOnDraw = s.powerOnDraw := rfl

/-! ### writeChords -/

@[simp] theorem writeChords_ctrlIE (s : State) (seq : List Word) : (writeChords s seq).ctrlIE = s.ctrlIE := rfl
@[simp] theorem writeChords_status (s : State) (seq : List Word) : (writeChords s seq).status = s.status := rfl
@[simp] theorem writeChords_lastCmd (s : State) (seq : List Word) : (writeChords s seq).lastCmd = s.lastCmd := rfl
@[simp] theorem writeChords_eng (s : State) (seq : List Word) : (writeChords s seq).eng = s.eng := rfl
@[simp] theorem writeChords_textLen (s : State) (seq : List Word) : (writeChords s seq).textLen = s.textLen := rfl
@[simp] theorem writeChords_bpm (s : State) (seq : List Word) : (writeChords s seq).bpm = s.bpm := rfl
@[simp] theorem writeChords_chordCount (s : State) (seq : List Word) :
    (writeChords s seq).chordCount = BitVec.ofNat 32 seq.length := rfl
@[simp] theorem writeChords_gainV (s : State) (seq : List Word) : (writeChords s seq).gainV = s.gainV := rfl
@[simp] theorem writeChords_gainI (s : State) (seq : List Word) : (writeChords s seq).gainI = s.gainI := rfl
@[simp] theorem writeChords_vbufLen (s : State) (seq : List Word) : (writeChords s seq).vbufLen = s.vbufLen := rfl
@[simp] theorem writeChords_vbufSr (s : State) (seq : List Word) : (writeChords s seq).vbufSr = s.vbufSr := rfl
@[simp] theorem writeChords_ibufLen (s : State) (seq : List Word) : (writeChords s seq).ibufLen = s.ibufLen := rfl
@[simp] theorem writeChords_ibufSr (s : State) (seq : List Word) : (writeChords s seq).ibufSr = s.ibufSr := rfl
@[simp] theorem writeChords_mbufLen (s : State) (seq : List Word) : (writeChords s seq).mbufLen = s.mbufLen := rfl
@[simp] theorem writeChords_mbufSr (s : State) (seq : List Word) : (writeChords s seq).mbufSr = s.mbufSr := rfl
@[simp] theorem writeChords_wavLen (s : State) (seq : List Word) : (writeChords s seq).wavLen = s.wavLen := rfl
@[simp] theorem writeChords_mem (s : State) (seq : List Word) :
    (writeChords s seq).mem = memWrite s.mem ctabBase (wordBytes seq) := rfl
@[simp] theorem writeChords_params (s : State) (seq : List Word) : (writeChords s seq).params = s.params := rfl
@[simp] theorem writeChords_queue (s : State) (seq : List Word) : (writeChords s seq).queue = s.queue := rfl
@[simp] theorem writeChords_busReads (s : State) (seq : List Word) : (writeChords s seq).busReads = s.busReads := rfl
@[simp] theorem writeChords_draws (s : State) (seq : List Word) : (writeChords s seq).draws = s.draws := rfl
@[simp] theorem writeChords_powerOnDraw (s : State) (seq : List Word) : (writeChords s seq).powerOnDraw = s.powerOnDraw := rfl

/-! ### resetRegisters -/

@[simp] theorem resetRegisters_ctrlIE (s : State) : (resetRegisters s).ctrlIE = false := rfl
@[simp] theorem resetRegisters_status (s : State) : (resetRegisters s).status = Status.clear := rfl
@[simp] theorem resetRegisters_lastCmd (s : State) : (resetRegisters s).lastCmd = 0 := rfl
@[simp] theorem resetRegisters_eng (s : State) : (resetRegisters s).eng = none := rfl
@[simp] theorem resetRegisters_textLen (s : State) : (resetRegisters s).textLen = 0 := rfl
@[simp] theorem resetRegisters_bpm (s : State) : (resetRegisters s).bpm = 120 := rfl
@[simp] theorem resetRegisters_chordCount (s : State) : (resetRegisters s).chordCount = 0 := rfl
@[simp] theorem resetRegisters_gainV (s : State) : (resetRegisters s).gainV = 0x3F800000 := rfl
@[simp] theorem resetRegisters_gainI (s : State) : (resetRegisters s).gainI = 0x3F800000 := rfl
@[simp] theorem resetRegisters_vbufLen (s : State) : (resetRegisters s).vbufLen = 0 := rfl
@[simp] theorem resetRegisters_vbufSr (s : State) : (resetRegisters s).vbufSr = 24000 := rfl
@[simp] theorem resetRegisters_ibufLen (s : State) : (resetRegisters s).ibufLen = 0 := rfl
@[simp] theorem resetRegisters_ibufSr (s : State) : (resetRegisters s).ibufSr = 24000 := rfl
@[simp] theorem resetRegisters_mbufLen (s : State) : (resetRegisters s).mbufLen = 0 := rfl
@[simp] theorem resetRegisters_mbufSr (s : State) : (resetRegisters s).mbufSr = 24000 := rfl
@[simp] theorem resetRegisters_wavLen (s : State) : (resetRegisters s).wavLen = 0 := rfl
@[simp] theorem resetRegisters_mem (s : State) : (resetRegisters s).mem = s.mem := rfl
@[simp] theorem resetRegisters_params (s : State) : (resetRegisters s).params = s.params := rfl
@[simp] theorem resetRegisters_queue (s : State) : (resetRegisters s).queue = s.queue := rfl
@[simp] theorem resetRegisters_busReads (s : State) : (resetRegisters s).busReads = s.busReads := rfl
@[simp] theorem resetRegisters_draws (s : State) : (resetRegisters s).draws = s.draws := rfl
@[simp] theorem resetRegisters_powerOnDraw (s : State) : (resetRegisters s).powerOnDraw = s.powerOnDraw := rfl

/-! ### abandonOutput -/

@[simp] theorem abandonOutput_ctrlIE (s : State) : (abandonOutput s).ctrlIE = s.ctrlIE := rfl
@[simp] theorem abandonOutput_status (s : State) : (abandonOutput s).status = s.status := rfl
@[simp] theorem abandonOutput_lastCmd (s : State) : (abandonOutput s).lastCmd = s.lastCmd := rfl
@[simp] theorem abandonOutput_eng (s : State) : (abandonOutput s).eng = s.eng := rfl
@[simp] theorem abandonOutput_textLen (s : State) : (abandonOutput s).textLen = s.textLen := rfl
@[simp] theorem abandonOutput_bpm (s : State) : (abandonOutput s).bpm = s.bpm := rfl
@[simp] theorem abandonOutput_chordCount (s : State) : (abandonOutput s).chordCount = s.chordCount := rfl
@[simp] theorem abandonOutput_gainV (s : State) : (abandonOutput s).gainV = s.gainV := rfl
@[simp] theorem abandonOutput_gainI (s : State) : (abandonOutput s).gainI = s.gainI := rfl
@[simp] theorem abandonOutput_vbufLen (s : State) : (abandonOutput s).vbufLen = s.vbufLen := rfl
@[simp] theorem abandonOutput_vbufSr (s : State) : (abandonOutput s).vbufSr = s.vbufSr := rfl
@[simp] theorem abandonOutput_ibufLen (s : State) : (abandonOutput s).ibufLen = s.ibufLen := rfl
@[simp] theorem abandonOutput_ibufSr (s : State) : (abandonOutput s).ibufSr = s.ibufSr := rfl
@[simp] theorem abandonOutput_mbufLen (s : State) : (abandonOutput s).mbufLen = s.mbufLen := rfl
@[simp] theorem abandonOutput_mbufSr (s : State) : (abandonOutput s).mbufSr = s.mbufSr := rfl
@[simp] theorem abandonOutput_wavLen (s : State) : (abandonOutput s).wavLen = s.wavLen := rfl
@[simp] theorem abandonOutput_mem (s : State) :
    (abandonOutput s).mem = memWrite s.mem s.inFlightRange.1 (freeBytes s.draws s.inFlightRange.1 s.inFlightRange.2) := rfl
@[simp] theorem abandonOutput_params (s : State) : (abandonOutput s).params = s.params := rfl
@[simp] theorem abandonOutput_queue (s : State) : (abandonOutput s).queue = s.queue := rfl
@[simp] theorem abandonOutput_busReads (s : State) : (abandonOutput s).busReads = s.busReads := rfl
@[simp] theorem abandonOutput_draws (s : State) : (abandonOutput s).draws = s.draws + 1 := rfl
@[simp] theorem abandonOutput_powerOnDraw (s : State) : (abandonOutput s).powerOnDraw = s.powerOnDraw := rfl

/-! ### The status updates, field by field -/

@[simp] theorem clearBits_errcode (st : Status) (w : Word) : (st.clearBits w).errcode = st.errcode := rfl
@[simp] theorem clearBits_done (st : Status) (w : Word) : (st.clearBits w).done = (st.done && !w.getLsbD 1) := rfl
@[simp] theorem clearBits_err (st : Status) (w : Word) : (st.clearBits w).err = (st.err && !w.getLsbD 2) := rfl
@[simp] theorem clearBits_nan (st : Status) (w : Word) : (st.clearBits w).nan = (st.nan && !w.getLsbD 3) := rfl
@[simp] theorem clearBits_ovr (st : Status) (w : Word) : (st.clearBits w).ovr = (st.ovr && !w.getLsbD 4) := rfl
@[simp] theorem clearBits_wbusy (st : Status) (w : Word) : (st.clearBits w).wbusy = (st.wbusy && !w.getLsbD 5) := rfl
@[simp] theorem clearBits_addrerr (st : Status) (w : Word) :
    (st.clearBits w).addrerr = (st.addrerr && !w.getLsbD 6) := rfl

end Sys2Proof.Machine
end

