-- ==== Sys2Proof/Laws/Memory.lean ====
section
/-! SUPPORT. Laws/Memory.lean: what reading and writing memory can do (R64, R70), and the canonical form. -/

namespace Sys2Proof.Machine

/-! ## Reading and writing the list of written bytes -/

theorem memRead?_append (m n : Memory) (a : Nat) :
    memRead? (m ++ n) a = (memRead? m a).orElse (fun _ => memRead? n a) := by
  induction m with
  | nil => rfl
  | cons c m ih =>
    obtain ⟨k, v⟩ := c
    by_cases h : k = a <;> simp [memRead?, h, ih]

theorem memRead?_filter (p : Nat → Bool) (m : Memory) (a : Nat) :
    memRead? (m.filter (fun c => p c.1)) a = if p a then memRead? m a else none := by
  induction m with
  | nil => simp [memRead?]
  | cons c m ih =>
    obtain ⟨k, v⟩ := c
    by_cases hp : p k
    · by_cases h : k = a
      · subst h; simp [memRead?, hp]
      · simp [memRead?, hp, h, ih]
    · by_cases h : k = a
      · subst h; simp [hp, ih]
      · simp [memRead?, hp, h, ih]

theorem memRead?_cellsFrom (base : Nat) (bytes : List Byte) (a : Nat) :
    memRead? (cellsFrom base bytes) a = if base ≤ a then bytes[a - base]? else none := by
  induction bytes generalizing base with
  | nil => simp [cellsFrom, memRead?]
  | cons b rest ih =>
    simp only [cellsFrom, memRead?, ih]
    rcases Nat.lt_trichotomy a base with h | h | h
    · rw [if_neg (by omega), if_neg (by omega), if_neg (by omega)]
    · subst h; simp
    · rw [if_neg (by omega), if_pos (by omega), if_pos (by omega)]
      have : a - base = (a - (base + 1)) + 1 := by omega
      rw [this, List.getElem?_cons_succ]

/-- Everything a write can do to a later read (R64): inside the written bytes the new byte, elsewhere the old one. -/
theorem memRead?_memWrite (m : Memory) (base : Nat) (bytes : List Byte) (a : Nat) :
    memRead? (memWrite m base bytes) a =
      if base ≤ a ∧ a < base + bytes.length then bytes[a - base]? else memRead? m a := by
  have e1 : memRead? (m.filter (fun c => decide (c.1 < base))) a = if a < base then memRead? m a else none := by
    simpa using memRead?_filter (fun k => decide (k < base)) m a
  have e2 : memRead? (m.filter (fun c => decide (base + bytes.length ≤ c.1))) a =
      if base + bytes.length ≤ a then memRead? m a else none := by
    simpa using memRead?_filter (fun k => decide (base + bytes.length ≤ k)) m a
  rw [memWrite, memRead?_append, memRead?_append, memRead?_cellsFrom, e1, e2]
  rcases Nat.lt_or_ge a base with h | h
  · rw [if_pos h, if_neg (by omega), if_neg (by omega), if_neg (by omega)]
    cases memRead? m a <;> rfl
  · rw [if_neg (by omega), if_pos h]
    rcases Nat.lt_or_ge a (base + bytes.length) with h2 | h2
    · rw [if_neg (by omega), if_pos ⟨h, h2⟩, List.getElem?_eq_getElem (by omega)]
      rfl
    · rw [if_pos h2, if_neg (by omega), List.getElem?_eq_none (by omega)]
      rfl

/-! ## The canonical form -/

theorem wf_iff_pairwise (m : Memory) : Memory.wf m = true ↔ m.Pairwise (fun c d => c.1 < d.1) := by
  induction m with
  | nil => simp [Memory.wf]
  | cons c m ih =>
    cases m with
    | nil => simp [Memory.wf]
    | cons d rest =>
      rw [Memory.wf, Bool.and_eq_true, ih, decide_eq_true_eq, List.pairwise_cons (a := c)]
      constructor
      · rintro ⟨hcd, hp⟩
        refine ⟨?_, hp⟩
        intro e he
        rcases List.mem_cons.1 he with rfl | he
        · exact hcd
        · exact Nat.lt_trans hcd ((List.pairwise_cons.1 hp).1 e he)
      · rintro ⟨hc, hp⟩
        exact ⟨hc d (by simp), hp⟩

theorem mem_cellsFrom {base : Nat} {bytes : List Byte} {c : Host.Cell} (h : c ∈ cellsFrom base bytes) :
    base ≤ c.1 ∧ c.1 < base + bytes.length := by
  induction bytes generalizing base with
  | nil => simp [cellsFrom] at h
  | cons b rest ih =>
    rcases List.mem_cons.1 h with rfl | h
    · simp
    · have := ih h; simp only [List.length_cons]; omega

theorem cellsFrom_pairwise (base : Nat) (bytes : List Byte) :
    (cellsFrom base bytes).Pairwise (fun c d => c.1 < d.1) := by
  induction bytes generalizing base with
  | nil => exact List.Pairwise.nil
  | cons b rest ih =>
    refine List.pairwise_cons.2 ⟨?_, ih _⟩
    intro c hc
    have := mem_cellsFrom hc
    simp only; omega

/-- Every write keeps the canonical form. -/
theorem memWrite_wf (m : Memory) (base : Nat) (bytes : List Byte) (h : Memory.wf m = true) :
    Memory.wf (memWrite m base bytes) = true := by
  rw [wf_iff_pairwise] at h ⊢
  rw [memWrite, List.pairwise_append, List.pairwise_append]
  refine ⟨⟨h.filter _, cellsFrom_pairwise _ _, ?_⟩, h.filter _, ?_⟩
  · intro c hc d hd
    have h1 := (List.mem_filter.1 hc).2
    have h2 := mem_cellsFrom hd
    simp only [decide_eq_true_eq] at h1; omega
  · intro c hc d hd
    have h2 := (List.mem_filter.1 hd).2
    simp only [decide_eq_true_eq] at h2
    rcases List.mem_append.1 hc with hc | hc
    · have h1 := (List.mem_filter.1 hc).2
      simp only [decide_eq_true_eq] at h1; omega
    · have h1 := mem_cellsFrom hc; omega

/-- A written cell is an old one or lies in the block written. -/
theorem mem_memWrite {m : Memory} {base : Nat} {bytes : List Byte} {c : Host.Cell} (h : c ∈ memWrite m base bytes) :
    c ∈ m ∨ (base ≤ c.1 ∧ c.1 < base + bytes.length) := by
  rw [memWrite, List.mem_append, List.mem_append] at h
  rcases h with (h | h) | h
  · exact .inl (List.mem_filter.1 h).1
  · exact .inr (mem_cellsFrom h)
  · exact .inl (List.mem_filter.1 h).1

/-- Writing no bytes changes nothing. -/
@[simp] theorem memWrite_nil (m : Memory) : memWrite m 0 [] = m := by
  simp [memWrite, cellsFrom]

/-! ## Little-endian bytes -/

@[simp] theorem bytesOfNat_length (n v : Nat) : (bytesOfNat n v).length = n := by simp [bytesOfNat]

theorem bytesOfNat_succ (n v : Nat) : bytesOfNat (n + 1) v = byteOfNat v 0 :: bytesOfNat n (v / 256) := by
  rw [bytesOfNat, List.range_succ_eq_map, List.map_cons, List.map_map, bytesOfNat]
  congr 1
  apply List.map_congr_left
  intro k _
  simp only [Function.comp, byteOfNat, Nat.succ_eq_add_one, Nat.shiftRight_eq_div_pow]
  rw [show 8 * (k + 1) = 8 + 8 * k by ring, Nat.pow_add, ← Nat.div_div_eq_div_mul]

/-- Reading back little-endian bytes gives the number, modulo what the bytes hold (R62, R64). -/
theorem natOfBytes_bytesOfNat (n v : Nat) : natOfBytes (bytesOfNat n v) = v % 256 ^ n := by
  induction n generalizing v with
  | zero => simp [bytesOfNat, natOfBytes, Nat.mod_one]
  | succ n ih =>
    rw [bytesOfNat_succ, natOfBytes, ih, Nat.pow_succ, Nat.mul_comm (256 ^ n) 256, Nat.mod_mul]
    simp [byteOfNat]

@[simp] theorem wordBytes_length (ws : List Word) : (wordBytes ws).length = 4 * ws.length := by
  induction ws with
  | nil => rfl
  | cons w ws ih =>
    rw [wordBytes] at ih ⊢
    rw [List.flatMap_cons, List.length_append, ih, bytesOfNat_length, List.length_cons]; omega

theorem wordBytes_getElem? (ws : List Word) (i k : Nat) (hk : k < 4) (hi : i < ws.length) :
    (wordBytes ws)[4 * i + k]? = some (byteOfNat ws[i].toNat k) := by
  induction ws generalizing i with
  | nil => simp at hi
  | cons w ws ih =>
    have hlen : (bytesOfNat 4 w.toNat).length = 4 := bytesOfNat_length _ _
    rw [wordBytes, List.flatMap_cons]
    cases i with
    | zero =>
      rw [List.getElem?_append_left (by omega)]
      simp [bytesOfNat, hk]
    | succ i =>
      rw [List.getElem?_append_right (by omega), hlen, show 4 * (i + 1) + k - 4 = 4 * i + k by omega]
      exact ih i (by simpa using hi)

/-! ## The current content of a byte -/

/-- Everything a write can do to the content of a byte outside PITCH. -/
theorem byteAt_writeBytes (s : State) (base : Nat) (bytes : List Byte) (a : Nat)
    (hp : ¬(pitchBase ≤ a ∧ a < pitchBase + 96)) :
    (s.writeBytes base bytes).byteAt a =
      if base ≤ a ∧ a < base + bytes.length then bytes.getD (a - base) 0 else s.byteAt a := by
  simp only [State.byteAt, if_neg hp, writeBytes_mem, writeBytes_powerOnDraw, memRead?_memWrite]
  by_cases h : base ≤ a ∧ a < base + bytes.length
  · rw [if_pos h, if_pos h, List.getElem?_eq_getElem (by omega), List.getD_eq_getElem?_getD,
      List.getElem?_eq_getElem (by omega)]
    rfl
  · rw [if_neg h, if_neg h]

/-- A byte outside the written block keeps its content, PITCH bytes included. -/
theorem byteAt_writeBytes_of_not_mem (s : State) (base : Nat) (bytes : List Byte) (a : Nat)
    (h : ¬(base ≤ a ∧ a < base + bytes.length)) : (s.writeBytes base bytes).byteAt a = s.byteAt a := by
  by_cases hp : pitchBase ≤ a ∧ a < pitchBase + 96
  · simp only [State.byteAt, if_pos hp, writeBytes_params]
  · rw [byteAt_writeBytes _ _ _ _ hp, if_neg h]

/-- The content of a byte is a function of the memory, the parameters and the power-on draw alone. -/
theorem byteAt_congr {s t : State} (hm : t.mem = s.mem) (hp : t.params = s.params)
    (hd : t.powerOnDraw = s.powerOnDraw) (a : Nat) : t.byteAt a = s.byteAt a := by
  simp only [State.byteAt, hm, hp, hd]

theorem wordAt_congr {s t : State} (hm : t.mem = s.mem) (hp : t.params = s.params)
    (hd : t.powerOnDraw = s.powerOnDraw) (a : Nat) : t.wordAt a = s.wordAt a := by
  simp only [State.wordAt, State.bytesAt, byteAt_congr hm hp hd]

/-- A word whose four bytes are those of `w` reads as `w`. -/
theorem wordAt_of_bytes (s : State) (a : Nat) (w : Word)
    (h : ∀ k, k < 4 → s.byteAt (a + k) = byteOfNat w.toNat k) : s.wordAt a = w := by
  have hb : s.bytesAt a 4 = bytesOfNat 4 w.toNat := by
    rw [State.bytesAt, bytesOfNat]
    exact List.map_congr_left (fun k hk => h k (List.mem_range.1 hk))
  rw [State.wordAt, hb, natOfBytes_bytesOfNat, Nat.mod_eq_of_lt (by have := w.isLt; omega)]
  simp

/-- Reading back element i of a block of words that a command wrote, outside PITCH. -/
theorem wordAt_writeWords (s : State) (base : Nat) (ws : List Word) (i : Nat) (hi : i < ws.length)
    (hp : base + 4 * ws.length ≤ pitchBase ∨ pitchBase + 96 ≤ base) :
    (s.writeBytes base (wordBytes ws)).wordAt (base + 4 * i) = ws[i] := by
  apply wordAt_of_bytes
  intro k hk
  rw [byteAt_writeBytes _ _ _ _ (by omega), wordBytes_length, if_pos (by omega),
    show base + 4 * i + k - base = 4 * i + k by omega, List.getD_eq_getElem?_getD, wordBytes_getElem? ws i k hk hi]
  rfl

end Sys2Proof.Machine
end

