-- ==== Sys2Proof/Laws/Step.lean ====
section
/-! SUPPORT. Laws/Step.lean: everything a step, a completion, and a host access can do, said once. -/

namespace Sys2Proof.Machine

/-! ## Completion -/

/-- Everything a completion can do (R212): the finished outputs, or the error completion. -/
theorem complete_cases (s : State) (r : Except CmdError State) :
    (∃ t, r = .ok t ∧ complete s r = finishCommand t) ∨ (∃ e, r = .error e ∧ complete s r = failCommand e s) := by
  cases r with
  | ok t => exact .inl ⟨t, rfl, rfl⟩
  | error e => exact .inr ⟨e, rfl, rfl⟩

/-- What a command's pseudocode makes of a state. -/
def runOf (i : Instr) (s : State) : Except CmdError State :=
  match i with
  | .nop => runNop s
  | .ptempo => runPtempo s
  | .pchord => runPchord s
  | .synth => runSynth s
  | .mixI => runMix .ibuf s
  | .mixV => runMix .vbuf s
  | .encodeM => runEncode .mbuf s
  | .encodeV => runEncode .vbuf s
  | .encodeI => runEncode .ibuf s

/-- exec of any instruction is its pseudocode, completed: no meaning faults or refuses. -/
theorem exec_eq (i : Instr) (s : State) : exec i s = .next (complete s (runOf i s)) := by
  cases i <;> rfl

/-- Everything PTEMPO's pseudocode can answer. -/
theorem runPtempo_cases (s : State) :
    runPtempo s = .error .lenRange ∨ runPtempo s = .ok { s with bpm := parseTempo s.text } := by
  unfold runPtempo; split
  · exact .inl rfl
  · exact .inr rfl

/-- Everything PCHORD's pseudocode can answer. -/
theorem runPchord_cases (s : State) :
    (∃ e, runPchord s = .error e) ∨
    ((chordSequence s.text).length ≤ s.params.chordCap ∧ runPchord s = .ok (writeChords s (chordSequence s.text))) := by
  unfold runPchord; split
  · exact .inl ⟨_, rfl⟩
  · split
    · exact .inl ⟨_, rfl⟩
    · exact .inr ⟨by omega, rfl⟩

/-- Everything SYNTH's pseudocode can answer. -/
theorem runSynth_cases (s : State) :
    (∃ e, synthError s = some e ∧ runSynth s = .error e) ∨
    (synthError s = none ∧ runSynth s = .ok (s.writeBytes ibufBase (wordBytes (synthSamples s)))) := by
  unfold runSynth
  cases h : synthError s with
  | none => exact .inr ⟨rfl, rfl⟩
  | some e => exact .inl ⟨e, rfl, rfl⟩

/-- Everything MIX's pseudocode can answer. -/
theorem runMix_cases (x : Wave) (s : State) :
    (∃ e, mixError s x = some e ∧ runMix x s = .error e) ∨
    (mixError s x = none ∧ runMix x s =
      .ok ({ s.writeBytes mbufBase (wordBytes (mixSamples s x)) with
              mbufLen := BitVec.ofNat 32 (mixLength s x)
              mbufSr := s.vbufSr }.noteNan (mixMetNan s x))) := by
  unfold runMix
  cases h : mixError s x with
  | none => exact .inr ⟨rfl, rfl⟩
  | some e => exact .inl ⟨e, rfl, rfl⟩

/-- Everything ENCODE's pseudocode can answer. -/
theorem runEncode_cases (src : Wave) (s : State) :
    (∃ e, encodeError s src = some e ∧ runEncode src s = .error e) ∨
    (encodeError s src = none ∧ runEncode src s =
      .ok ({ s.writeBytes wbufBase (wavStream s src) with
              wavLen := BitVec.ofNat 32 (44 + 2 * (src.len s).toNat) }.noteNan (encodeMetNan s src))) := by
  unfold runEncode
  cases h : encodeError s src with
  | none => exact .inr ⟨rfl, rfl⟩
  | some e => exact .inl ⟨e, rfl, rfl⟩

@[simp] theorem synthSamples_length (s : State) : (synthSamples s).length = s.ibufLen.toNat := by
  simp [synthSamples]

@[simp] theorem mixSamples_length (s : State) (x : Wave) : (mixSamples s x).length = mixLength s x := by
  simp [mixSamples]

@[simp] theorem waveSamples_length (s : State) (src : Wave) : (waveSamples s src).length = (src.len s).toNat := by
  simp [waveSamples]

@[simp] theorem wavHeader_length (n r : Nat) : (wavHeader n r).length = 44 := by simp [wavHeader]

@[simp] theorem wavStream_length (s : State) (src : Wave) :
    (wavStream s src).length = 44 + 2 * (src.len s).toNat := by
  have h : ∀ xs : List F32, (xs.flatMap sampleBytes).length = 2 * xs.length := by
    intro xs
    induction xs with
    | nil => rfl
    | cons x xs ih => rw [List.flatMap_cons, List.length_append, ih, List.length_cons, sampleBytes, bytesOfNat_length]; omega
  rw [wavStream, List.length_append, wavHeader_length, h, waveSamples_length]

/-! ## Steps -/

/-- Everything a step can do: the completion of the command in flight, or the next event. -/
theorem step_cases (s : State) :
    (∃ w, s.eng = some w ∧ s.engineFirst = true ∧ step s = engineStep w s) ∨
    ((s.eng = none ∨ s.engineFirst = false) ∧ step s = .next (hostStep s)) := by
  unfold step advance
  cases h : s.eng with
  | none => exact .inr ⟨.inl rfl, rfl⟩
  | some w =>
    cases hf : s.engineFirst with
    | true => exact .inl ⟨w, rfl, rfl, by simp⟩
    | false => exact .inr ⟨.inr rfl, by simp⟩

/-- Everything an ENGINE step can do: a command's meaning, or ILLEGAL_CMD. -/
theorem engineStep_cases (w : Word) (s : State) :
    (∃ i, decodeWord w = .ok i ∧ engineStep w s = exec i s) ∨
    (∃ e, decodeWord w = .error e ∧ engineStep w s = .next (failCommand .illegalCmd s)) := by
  unfold engineStep
  cases h : decodeWord w with
  | ok i => exact .inl ⟨i, rfl, rfl⟩
  | error e => exact .inr ⟨e, rfl, rfl⟩

/-- Everything the next event can do. -/
theorem hostStep_cases (s : State) :
    (s.queue = [] ∧ hostStep s = s) ∨
    (∃ e rest, s.queue = e :: rest ∧ hostStep s = perform e.event { s with queue := rest }) := by
  unfold hostStep
  cases h : s.queue with
  | nil => exact .inl ⟨rfl, rfl⟩
  | cons e rest => exact .inr ⟨e, rest, rfl, rfl⟩

/-- Everything a host read can do: it is refused, or answers without touching the block. -/
theorem hostRead_cases (a n : Nat) (s : State) :
    (accessTarget s.params false a n = none ∧ hostRead a n s = s.setAddrErr.answer 0) ∨
    (∃ v d, s.draws ≤ d ∧ hostRead a n s = { s.answer v with draws := d }) := by
  unfold hostRead
  cases h : accessTarget s.params false a n with
  | none => exact .inl ⟨rfl, rfl⟩
  | some t =>
    cases t with
    | register offset => exact .inr ⟨_, s.draws, le_rfl, rfl⟩
    | memory =>
      refine .inr ⟨_, _, ?_, rfl⟩
      split <;> omega

/-- A write that is not refused goes to a register offset or to a memory window. -/
theorem hostWrite_cases (a n : Nat) (v : Word) (s : State) :
    (accessTarget s.params true a n = none ∧ hostWrite a n v s = s.setAddrErr) ∨
    (∃ offset, accessTarget s.params true a n = some (.register offset) ∧ hostWrite a n v s = writeOffset offset v s) ∨
    (accessTarget s.params true a n = some .memory ∧ hostWrite a n v s = writeMemory a n v s) := by
  unfold hostWrite
  cases h : accessTarget s.params true a n with
  | none => exact .inl ⟨rfl, rfl⟩
  | some t =>
    cases t with
    | register offset => exact .inr (.inl ⟨offset, rfl, rfl⟩)
    | memory => exact .inr (.inr ⟨rfl, rfl⟩)

/-- Everything a performed register write can do while a command is in flight (R76, R211, R271). -/
theorem writeOffset_busy_cases (offset : Nat) (v : Word) (s : State) (h : s.busy = true) :
    (regAt offset = some .ctrl ∧ writeOffset offset v s = writeCtrl v s) ∨
    (regAt offset = some .status ∧ writeOffset offset v s = writeStatus v s) ∨
    (regAt offset = some .cmd ∧ writeOffset offset v s = s.setOvr) ∨
    (regAt offset ≠ some .ctrl ∧ regAt offset ≠ some .status ∧ regAt offset ≠ some .cmd ∧
      writeOffset offset v s = s.setWbusy) := by
  unfold writeOffset
  cases hr : regAt offset with
  | none => simp [h]
  | some r => cases r <;> simp [h, writeCmd]

end Sys2Proof.Machine
end

