-- ==== Sys2Proof/Laws/Bus.lean ====
section
/-! SUPPORT. Laws/Bus.lean: the bits of STATUS, what a pending event does, and where a host access goes, said once. -/

namespace Sys2Proof.Machine

/-! ## STATUS -/

theorem getLsbD_ofBool (b : Bool) (k : Nat) : (BitVec.ofBool b).getLsbD k = (decide (k = 0) && b) := by
  cases b <;> simp

/-- Every bit of STATUS (R24, R25). -/
theorem statusWord_getLsbD (s : State) (k : Nat) : s.statusWord.getLsbD k =
    if k = 0 then s.busy else if k = 1 then s.status.done else if k = 2 then s.status.err else if k = 3 then s.status.nan
    else if k = 4 then s.status.ovr else if k = 5 then s.status.wbusy else if k = 6 then s.status.addrerr
    else if k < 8 then false else if k < 16 then s.status.errcode.getLsbD (k - 8) else false := by
  unfold State.statusWord
  simp only [BitVec.getLsbD_append, getLsbD_ofBool]
  rcases k with _|_|_|_|_|_|_|_|k <;> simp
  have h8 : ¬ (k + 1 + 1 + 1 + 1 + 1 + 1 + 1 + 1 < 8) := by omega
  have h16 : (k + 1 + 1 + 1 + 1 + 1 + 1 + 1 + 1 < 16) ↔ k < 8 := by omega
  simp [h8, h16]

/-! ## Events -/

/-- The first pending event happens, unless a completion comes before it. -/
theorem step_of_queue {s : State} {e : BusEvent} {flag : Bool} {rest : List HostEvent}
    (hq : s.queue = ⟨e, flag⟩ :: rest) (hh : s.eng = none ∨ flag = false) :
    step s = .next (perform e { s with queue := rest }) := by
  unfold step advance hostStep
  cases he : s.eng with
  | none => simp [hq]
  | some w =>
    have : flag = false := by simpa [he] using hh
    simp [State.engineFirst, hq, this]

/-! ## Targets -/

/-- A read-only window: PITCH or WBUF (R67). -/
theorem windowOf_some {p : Params} {a n : Nat} {w : Window} (h : windowOf p a n = some w) :
    w ∈ windows p ∧ w.base ≤ a ∧ a + n ≤ w.base + w.size := by
  unfold windowOf at h
  refine ⟨List.mem_of_find?_eq_some h, ?_⟩
  simpa [Window.holds] using List.find?_some h

theorem windowOf_none {p : Params} {a n : Nat} :
    windowOf p a n = none ↔ ∀ w ∈ windows p, ¬(w.base ≤ a ∧ a + n ≤ w.base + w.size) := by
  simp [windowOf, Window.holds]

/-- The bounds that R7 puts on the capacities. -/
theorem legal_caps {p : Params} (h : p.legal = true) :
    1 ≤ p.textCap ∧ p.textCap ≤ 4096 ∧ 4 ≤ p.chordCap ∧ p.chordCap ≤ 1024 ∧ 1 ≤ p.sampleCap ∧ p.sampleCap ≤ 4194304 := by
  simp only [Params.legal, Bool.and_eq_true, decide_eq_true_eq] at h
  omega

/-- With legal parameters a window is read-only exactly if it lies where PITCH or WBUF do (R61, R67). -/
theorem readOnly_iff {p : Params} (hp : p.legal = true) {a n : Nat} (hn : 0 < n) {w : Window} (h : windowOf p a n = some w) :
    w.readOnly = true ↔ (0x3000 ≤ a ∧ a ≤ 0x3FFF) ∨ (0x04000000 ≤ a ∧ a ≤ 0x04FFFFFF) := by
  obtain ⟨hm, h1, h2⟩ := windowOf_some h
  obtain ⟨-, c1, -, c2, -, c3⟩ := legal_caps hp
  simp only [windows, textBase, ctabBase, pitchBase, vbufBase, ibufBase, mbufBase, wbufBase, List.mem_cons,
    List.not_mem_nil, or_false] at hm
  rcases hm with rfl | rfl | rfl | rfl | rfl | rfl | rfl <;> simp at h1 h2 ⊢ <;> omega

/-- Where an access that is not refused goes, with legal parameters (R63, R65 to R68): a register offset if it lies in REGS, memory
otherwise. -/
theorem accessTarget_none_iff {p : Params} (hp : p.legal = true) (isWrite : Bool) {a n : Nat} (hn : 0 < n) :
    accessTarget p isWrite a n = none ↔
      a % n ≠ 0 ∨ (a < 0x1000 ∧ n ≠ 4) ∨
      (0x1000 ≤ a ∧ ∀ w ∈ windows p, ¬(w.base ≤ a ∧ a + n ≤ w.base + w.size)) ∨
      (isWrite = true ∧ ((0x3000 ≤ a ∧ a ≤ 0x3FFF) ∨ (0x04000000 ≤ a ∧ a ≤ 0x04FFFFFF))) := by
  unfold accessTarget regsEnd
  by_cases h1 : a % n = 0
  · by_cases h2 : a < 0x1000
    · by_cases h3 : n = 4
      · subst h3
        rw [if_neg (by simp [h1]), if_pos h2, if_pos rfl]
        constructor
        · intro h; cases h
        · rintro (h | h | ⟨h, -⟩ | ⟨-, h⟩) <;> omega
      · simp [h1, h2, h3]
    · have h2' : 0x1000 ≤ a := by omega
      rw [if_neg (by simp [h1]), if_neg h2]
      cases hw : windowOf p a n with
      | none => exact ⟨fun _ => .inr (.inr (.inl ⟨h2', windowOf_none.mp hw⟩)), fun _ => rfl⟩
      | some w =>
        have hno : ¬ ∀ w ∈ windows p, ¬(w.base ≤ a ∧ a + n ≤ w.base + w.size) := by
          rw [← windowOf_none, hw]; simp
        have hro := readOnly_iff hp hn hw
        cases isWrite with
        | false =>
          constructor
          · intro h; cases h
          · rintro (h | h | ⟨-, h⟩ | ⟨h, -⟩)
            · exact absurd h1 h
            · omega
            · exact absurd h hno
            · cases h
        | true =>
          simp only [Bool.true_and, true_and]
          constructor
          · intro h
            split at h
            · exact .inr (.inr (.inr (hro.mp ‹_›)))
            · cases h
          · rintro (h | h | ⟨-, h⟩ | h)
            · exact absurd h1 h
            · omega
            · exact absurd h hno
            · rw [if_pos (hro.mpr h)]
  · simp [h1]

/-- An access in REGS goes to its offset, any other to memory. -/
theorem accessTarget_some {p : Params} {isWrite : Bool} {a n : Nat} {t : Target} (h : accessTarget p isWrite a n = some t) :
    (a < 0x1000 ∧ n = 4 ∧ a % 4 = 0 ∧ t = .register a) ∨ (0x1000 ≤ a ∧ t = .memory) := by
  unfold accessTarget regsEnd at h
  split at h
  · cases h
  · split at h
    · split at h
      · injection h with h; refine .inl ⟨‹_›, ‹_›, ?_, h.symm⟩; simp_all
      · cases h
    · split at h
      · cases h
      · split at h
        · cases h
        · injection h with h; exact .inr ⟨by omega, h.symm⟩

theorem AccessSize.bytes_pos (size : AccessSize) : 0 < size.bytes := by cases size <;> decide

/-- A write of a whole register is performed at its offset. -/
theorem hostWrite_register {a : Nat} (h : a < 0x1000) (h4 : a % 4 = 0) (v : Word) (s : State) :
    hostWrite a 4 v s = writeOffset a v s := by
  simp [hostWrite, accessTarget, regsEnd, h, h4]

/-- A read of a whole register answers its value. -/
theorem hostRead_register {a : Nat} (h : a < 0x1000) (h4 : a % 4 = 0) {r : Reg} (hr : regAt a = some r) (s : State) :
    hostRead a 4 s = s.answer (readReg s r) := by
  simp [hostRead, accessTarget, regsEnd, h, h4, hr]

/-- A read of a reserved offset answers 0 (R36). -/
theorem hostRead_reserved {a : Nat} (h : a < 0x1000) (h4 : a % 4 = 0) (hr : regAt a = none) (s : State) :
    hostRead a 4 s = s.answer 0 := by
  simp [hostRead, accessTarget, regsEnd, h, h4, hr]

/-! ## Events while a command runs -/

/-- Everything an event can do while a command is in flight (R76, R271): it changes IE, flags and the model's own records at most, no
flag of the last completion being set and ERRCODE staying, or it is a reset. -/
theorem perform_busy_cases (e : BusEvent) (s : State) (h : s.busy = true) :
    (∃ ie st reads d, perform e s = { s with ctrlIE := ie, status := st, busReads := reads, draws := d } ∧
      st.errcode = s.status.errcode ∧ (s.status.done = false → st.done = false) ∧ (s.status.err = false → st.err = false) ∧
      s.draws ≤ d) ∨
    (perform e s = softReset s ∧ ∃ v, e = .write 0x00000004 .four v ∧ v.getLsbD 1 = true) ∨
    (perform e s = powerOnReset s ∧ e = .powerOn) := by
  cases e with
  | read a size =>
    rcases hostRead_cases a.toNat size.bytes s with ⟨-, h1⟩ | ⟨v, d, hd, h1⟩
    · exact .inl ⟨_, _, _, _, h1, rfl, id, id, le_rfl⟩
    · exact .inl ⟨_, _, _, _, h1, rfl, id, id, hd⟩
  | write a size v =>
    rcases hostWrite_cases a.toNat size.bytes v s with ⟨-, h1⟩ | ⟨o, ho, h1⟩ | ⟨-, h1⟩
    · exact .inl ⟨_, _, _, _, h1, rfl, id, id, le_rfl⟩
    · rcases writeOffset_busy_cases o v s h with ⟨hr, h2⟩ | ⟨-, h2⟩ | ⟨-, h2⟩ | ⟨-, -, -, h2⟩
      · by_cases hv : v.getLsbD 1 = true
        · refine .inr (.inl ⟨by rw [perform, h1, h2, writeCtrl, if_pos hv], v, ?_, hv⟩)
          rcases accessTarget_some ho with ⟨ha, hn, h4, hto⟩ | ⟨-, hto⟩
          · injection hto with hto
            subst hto
            have hq : a.toNat / 4 = 1 := by
              unfold regAt regList at hr
              rcases hk : a.toNat / 4 with _ | _ | k
              · rw [hk] at hr; simp at hr
              · rfl
              · rw [hk] at hr
                exfalso
                have hlt : k < 17 := by
                  by_contra hc
                  rw [List.getElem?_eq_none (by simp; omega)] at hr
                  cases hr
                interval_cases k <;> simp at hr
            have ha' : a = 0x00000004 := by
              apply BitVec.eq_of_toNat_eq
              show a.toNat = 4
              omega
            have hs : size = .four := by cases size <;> simp_all [AccessSize.bytes]
            rw [ha', hs]
          · cases hto
        · exact .inl ⟨_, _, _, _, by rw [perform, h1, h2, writeCtrl, if_neg hv], rfl, id, id, le_rfl⟩
      · refine .inl ⟨_, _, _, _, h1.trans h2, rfl, ?_, ?_, le_rfl⟩
        · intro hd; simp [Status.clearBits, hd]
        · intro hd; simp [Status.clearBits, hd]
      · exact .inl ⟨_, _, _, _, h1.trans h2, rfl, id, id, le_rfl⟩
      · exact .inl ⟨_, _, _, _, h1.trans h2, rfl, id, id, le_rfl⟩
    · exact .inl ⟨_, _, _, _, h1.trans (by rw [writeMemory, if_pos h] : _ = s.setWbusy), rfl, id, id, le_rfl⟩
  | powerOn => exact .inr (.inr ⟨rfl, rfl⟩)

end Sys2Proof.Machine
end

