-- ==== Sys2Proof/Laws/Rounding.lean ====
section
/-! SUPPORT. Laws/Rounding.lean: what rounding to nearest even does: it is monotone, and exact on what the format holds (R12). -/

namespace Sys2Proof.Machine

/-! ## Powers of two -/

theorem two_zpow_split (z : ℤ) : (2 : ℚ) ^ z = 2 ^ z.toNat / 2 ^ (-z).toNat := by
  rcases le_total 0 z with h | h
  · obtain ⟨n, rfl⟩ := Int.eq_ofNat_of_zero_le h
    simp
  · obtain ⟨n, hn⟩ := Int.eq_ofNat_of_zero_le (neg_nonneg.2 h)
    have : z = -(n : ℤ) := by omega
    subst this
    simp

theorem two_zpow_pos (z : ℤ) : (0 : ℚ) < 2 ^ z := zpow_pos (by norm_num) z

/-- The fraction `numOf mag exp / denOf exp` is mag · 2^exp. -/
theorem numOf_div_denOf (mag : ℕ) (exp : ℤ) : (numOf mag exp : ℚ) / (denOf exp : ℚ) = mag * 2 ^ exp := by
  rw [two_zpow_split, numOf, denOf]; push_cast; ring

theorem denOf_pos (exp : ℤ) : 0 < denOf exp := by unfold denOf; positivity

/-- floor(log2) of a positive fraction. -/
theorem floorLog2_spec {num den : ℕ} (hn : 0 < num) (hd : 0 < den) :
    (2 : ℚ) ^ floorLog2 num den ≤ (num : ℚ) / den ∧ (num : ℚ) / den < 2 ^ (floorLog2 num den + 1) := by
  have hdq : (0 : ℚ) < den := by exact_mod_cast hd
  have n1 : (2 : ℚ) ^ (num.log2 : ℤ) ≤ num := by
    rw [zpow_natCast]; exact_mod_cast Nat.log2_self_le hn.ne'
  have n2 : (num : ℚ) < 2 ^ ((num.log2 : ℤ) + 1) := by
    rw [← Nat.cast_succ, zpow_natCast]; exact_mod_cast Nat.lt_log2_self
  have d1 : (2 : ℚ) ^ (den.log2 : ℤ) ≤ den := by
    rw [zpow_natCast]; exact_mod_cast Nat.log2_self_le hd.ne'
  have d2 : (den : ℚ) < 2 ^ ((den.log2 : ℤ) + 1) := by
    rw [← Nat.cast_succ, zpow_natCast]; exact_mod_cast Nat.lt_log2_self
  have two : (2 : ℚ) ≠ 0 := by norm_num
  set e : ℤ := (num.log2 : ℤ) - (den.log2 : ℤ) with he
  have hi : (num : ℚ) / den < 2 ^ (e + 1) := by
    rw [div_lt_iff₀ hdq]
    calc (num : ℚ) < 2 ^ ((num.log2 : ℤ) + 1) := n2
      _ = 2 ^ (e + 1) * 2 ^ (den.log2 : ℤ) := by rw [← zpow_add₀ two]; congr 1; omega
      _ ≤ 2 ^ (e + 1) * den := by gcongr
  have lo : (2 : ℚ) ^ (e - 1) ≤ (num : ℚ) / den := by
    rw [le_div_iff₀ hdq]
    calc (2 : ℚ) ^ (e - 1) * den ≤ 2 ^ (e - 1) * 2 ^ ((den.log2 : ℤ) + 1) := by gcongr
      _ = 2 ^ (num.log2 : ℤ) := by rw [← zpow_add₀ two]; congr 1; omega
      _ ≤ num := n1
  have key : den * 2 ^ e.toNat ≤ num * 2 ^ (-e).toNat ↔ (2 : ℚ) ^ e ≤ (num : ℚ) / den := by
    rw [le_div_iff₀ hdq, two_zpow_split e, div_mul_eq_mul_div, div_le_iff₀ (by positivity), mul_comm]
    exact_mod_cast Iff.rfl
  unfold floorLog2
  rw [← he]
  by_cases h : den * 2 ^ e.toNat ≤ num * 2 ^ (-e).toNat
  · rw [if_pos h]; exact ⟨key.1 h, hi⟩
  · rw [if_neg h, sub_add_cancel]
    exact ⟨lo, not_le.1 (fun hh => h (key.2 hh))⟩

/-! ## Rounding to an integer -/

/-- Everything `roundEven` can answer: a nearest integer, the even one at a tie. -/
theorem roundEven_spec {num den : ℕ} (hd : 0 < den) :
    2 * (roundEven num den : ℚ) - 1 ≤ 2 * ((num : ℚ) / den) ∧
    2 * ((num : ℚ) / den) ≤ 2 * (roundEven num den : ℚ) + 1 ∧
    (2 * ((num : ℚ) / den) = 2 * (roundEven num den : ℚ) + 1 → roundEven num den % 2 = 0) ∧
    (2 * ((num : ℚ) / den) = 2 * (roundEven num den : ℚ) - 1 → roundEven num den % 2 = 0) := by
  have hdq : (0 : ℚ) < den := by exact_mod_cast hd
  have hdm := Nat.div_add_mod num den
  have hlt := Nat.mod_lt num hd
  set k := num / den
  set r := num % den
  have hx : (num : ℚ) / den = k + (r : ℚ) / den := by
    rw [← hdm]; push_cast; field_simp
  have r0 : (0 : ℚ) ≤ (r : ℚ) / den := by positivity
  have r1 : (r : ℚ) / den < 1 := by rw [div_lt_one hdq]; exact_mod_cast hlt
  have cmp : (den < 2 * r ↔ 1 < 2 * ((r : ℚ) / den)) ∧ (2 * r = den ↔ 2 * ((r : ℚ) / den) = 1) := by
    rw [← mul_div_assoc, lt_div_iff₀ hdq, div_eq_iff hdq.ne', one_mul]
    constructor <;> exact_mod_cast Iff.rfl
  have hr : roundEven num den = if den < 2 * r ∨ (2 * r = den ∧ k % 2 = 1) then k + 1 else k := rfl
  rw [hr, hx]
  split_ifs with h
  · push_cast
    rw [cmp.1, cmp.2] at h
    refine ⟨?_, ?_, ?_, ?_⟩
    · rcases h with h | h <;> linarith [h]
    · linarith
    · intro h2; exfalso; linarith
    · intro h2
      rcases h with h | h
      · exfalso; linarith
      · omega
  · rw [not_or, cmp.1, cmp.2] at h
    refine ⟨by linarith, by linarith [h.1], ?_, ?_⟩
    · intro h2
      have : 2 * ((r : ℚ) / den) = 1 := by linarith
      have := h.2
      have hk : ¬ k % 2 = 1 := fun hk => this ⟨by assumption, hk⟩
      omega
    · intro h2; exfalso; linarith

theorem roundEven_mono {a b c d : ℕ} (hb : 0 < b) (hd : 0 < d) (h : (a : ℚ) / b ≤ (c : ℚ) / d) :
    roundEven a b ≤ roundEven c d := by
  obtain ⟨a1, a2, a3, a4⟩ := roundEven_spec (num := a) hb
  obtain ⟨c1, c2, c3, c4⟩ := roundEven_spec (num := c) hd
  by_contra hlt
  rw [not_le] at hlt
  have hle : (roundEven c d : ℚ) + 1 ≤ roundEven a b := by exact_mod_cast hlt
  have e1 : (roundEven a b : ℚ) = roundEven c d + 1 := by linarith
  have e2 : roundEven a b = roundEven c d + 1 := by exact_mod_cast e1
  have := a4 (by linarith)
  have := c3 (by linarith)
  omega

theorem roundEven_of_eq {a b k : ℕ} (hb : 0 < b) (h : (a : ℚ) / b = k) : roundEven a b = k := by
  have e : a = k * b := by
    rw [div_eq_iff (by exact_mod_cast hb.ne')] at h; exact_mod_cast h
  subst e
  rw [roundEven, Nat.mul_div_cancel _ hb, Nat.mul_mod_left]
  exact if_neg (by omega)

/-! ## Rounding to a pattern -/

/-- The weight of the last bit of a format's subnormals. -/
def qminOf (fb eb : ℕ) : ℤ := 2 - 2 ^ (eb - 1) - fb

/-- The number that the sign-free pattern `p` of a format stands for. -/
def magValue (fb eb p : ℕ) : ℚ :=
  if p / 2 ^ fb = 0 then (p : ℚ) * 2 ^ qminOf fb eb
  else ((2 ^ fb + p % 2 ^ fb : ℕ) : ℚ) * 2 ^ (qminOf fb eb + (p / 2 ^ fb - 1 : ℕ))

/-- The exponent of the last bit kept. -/
def quantum (fb eb num den : ℕ) : ℤ := max (floorLog2 num den - fb) (qminOf fb eb)

/-- The pattern before it is cut at infinity. -/
def rawMag (fb eb num den : ℕ) : ℕ :=
  (quantum fb eb num den - qminOf fb eb).toNat * 2 ^ fb +
    roundEven (num * 2 ^ (-quantum fb eb num den).toNat) (den * 2 ^ (quantum fb eb num den).toNat)

theorem roundMag_eq (fb eb num den : ℕ) :
    roundMag fb eb num den = if num = 0 then 0 else min (rawMag fb eb num den) ((2 ^ eb - 1) * 2 ^ fb) := rfl

theorem scaled_div (num den : ℕ) (q : ℤ) (hd : 0 < den) :
    ((num * 2 ^ (-q).toNat : ℕ) : ℚ) / ((den * 2 ^ q.toNat : ℕ) : ℚ) = (num : ℚ) / den / 2 ^ q := by
  have : (den : ℚ) ≠ 0 := by exact_mod_cast hd.ne'
  rw [two_zpow_split q]; push_cast; field_simp

theorem floorLog2_mono {a b c d : ℕ} (ha : 0 < a) (hb : 0 < b) (hc : 0 < c) (hd : 0 < d)
    (h : (a : ℚ) / b ≤ (c : ℚ) / d) : floorLog2 a b ≤ floorLog2 c d := by
  have h1 := (floorLog2_spec ha hb).1
  have h2 := (floorLog2_spec hc hd).2
  have : (2 : ℚ) ^ floorLog2 a b < 2 ^ (floorLog2 c d + 1) := lt_of_le_of_lt (h1.trans h) h2
  have := (zpow_lt_zpow_iff_right₀ (by norm_num : (1 : ℚ) < 2)).1 this
  omega

/-- The rounded multiple of the quantum is at most 2^(fb + 1). -/
theorem roundEven_quantum_le {fb eb num den : ℕ} (hn : 0 < num) (hd : 0 < den) :
    roundEven (num * 2 ^ (-quantum fb eb num den).toNat) (den * 2 ^ (quantum fb eb num den).toNat) ≤ 2 ^ (fb + 1) := by
  have hs := (floorLog2_spec hn hd).2
  have hq : floorLog2 num den - fb ≤ quantum fb eb num den := le_max_left _ _
  have hb : 0 < den * 2 ^ (quantum fb eb num den).toNat := by positivity
  calc _ ≤ roundEven (2 ^ (fb + 1)) 1 := by
        apply roundEven_mono hb one_pos
        rw [scaled_div _ _ _ hd, div_le_iff₀ (two_zpow_pos _)]
        refine hs.le.trans ?_
        push_cast
        rw [div_one, ← zpow_natCast (2 : ℚ) (fb + 1), ← zpow_add₀ (by norm_num)]
        exact zpow_le_zpow_right₀ (by norm_num) (by push_cast; omega)
    _ = 2 ^ (fb + 1) := roundEven_of_eq one_pos (by push_cast; ring)

/-- Above the subnormals the rounded multiple of the quantum is at least 2^fb. -/
theorem le_roundEven_quantum {fb eb num den : ℕ} (hn : 0 < num) (hd : 0 < den)
    (hq : quantum fb eb num den = floorLog2 num den - fb) :
    2 ^ fb ≤ roundEven (num * 2 ^ (-quantum fb eb num den).toNat) (den * 2 ^ (quantum fb eb num den).toNat) := by
  have hs := (floorLog2_spec hn hd).1
  have hb : 0 < den * 2 ^ (quantum fb eb num den).toNat := by positivity
  calc 2 ^ fb = roundEven (2 ^ fb) 1 := (roundEven_of_eq one_pos (by push_cast; ring)).symm
    _ ≤ _ := by
        apply roundEven_mono one_pos hb
        rw [scaled_div _ _ _ hd, le_div_iff₀ (two_zpow_pos _)]
        refine le_trans (le_of_eq ?_) hs
        push_cast
        rw [div_one, ← zpow_natCast (2 : ℚ) fb, ← zpow_add₀ (by norm_num), hq]
        congr 1; omega

theorem rawMag_mono {fb eb a b c d : ℕ} (ha : 0 < a) (hb : 0 < b) (hc : 0 < c) (hd : 0 < d)
    (h : (a : ℚ) / b ≤ (c : ℚ) / d) : rawMag fb eb a b ≤ rawMag fb eb c d := by
  have hl := floorLog2_mono ha hb hc hd h
  have hq : quantum fb eb a b ≤ quantum fb eb c d := max_le_max (by omega) le_rfl
  have h0 : qminOf fb eb ≤ quantum fb eb a b := le_max_right _ _
  unfold rawMag
  rcases hq.eq_or_lt with e | e
  · rw [← e]
    refine Nat.add_le_add_left (roundEven_mono (by positivity) (by positivity) ?_) _
    rw [scaled_div _ _ _ hb, scaled_div _ _ _ hd]
    exact div_le_div_of_nonneg_right h (two_zpow_pos _).le
  · have u := roundEven_quantum_le (fb := fb) (eb := eb) ha hb
    have hqc : quantum fb eb c d = floorLog2 c d - fb := by
      unfold quantum at e ⊢; rw [max_def] at *; split_ifs at * <;> omega
    have l := le_roundEven_quantum (fb := fb) (eb := eb) hc hd hqc
    obtain ⟨n, hn⟩ := Int.eq_ofNat_of_zero_le (sub_nonneg.2 h0)
    obtain ⟨m, hm⟩ := Int.eq_ofNat_of_zero_le (sub_nonneg.2 (h0.trans hq))
    have hnm : n + 1 ≤ m := by omega
    rw [hn, hm, Int.toNat_natCast, Int.toNat_natCast]
    have := Nat.mul_le_mul_right (2 ^ fb) hnm
    rw [Nat.add_mul, one_mul] at this
    rw [pow_succ] at u
    omega

/-- Rounding is monotone. -/
theorem roundMag_mono {fb eb a b c d : ℕ} (hb : 0 < b) (hd : 0 < d) (h : (a : ℚ) / b ≤ (c : ℚ) / d) :
    roundMag fb eb a b ≤ roundMag fb eb c d := by
  rw [roundMag_eq, roundMag_eq]
  rcases Nat.eq_zero_or_pos a with ha | ha
  · rw [if_pos ha]; exact Nat.zero_le _
  · have hc : 0 < c := by
      rcases Nat.eq_zero_or_pos c with hc | hc
      · subst hc
        have : (0 : ℚ) < (a : ℚ) / b := by positivity
        simp at h; linarith
      · exact hc
    rw [if_neg ha.ne', if_neg hc.ne']
    exact min_le_min (rawMag_mono ha hb hc hd h) le_rfl

/-- Rounding depends on the number alone, not on the fraction that stands for it. -/
theorem roundMag_congr {fb eb a b c d : ℕ} (hb : 0 < b) (hd : 0 < d) (h : (a : ℚ) / b = (c : ℚ) / d) :
    roundMag fb eb a b = roundMag fb eb c d :=
  le_antisymm (roundMag_mono hb hd h.le) (roundMag_mono hd hb h.ge)

/-- The floor of the logarithm is known from the binade. -/
theorem floorLog2_eq {num den : ℕ} (hn : 0 < num) (hd : 0 < den) (e : ℤ) (h1 : (2 : ℚ) ^ e ≤ (num : ℚ) / den)
    (h2 : (num : ℚ) / den < 2 ^ (e + 1)) : floorLog2 num den = e := by
  obtain ⟨s1, s2⟩ := floorLog2_spec hn hd
  have a := (zpow_lt_zpow_iff_right₀ (by norm_num : (1 : ℚ) < 2)).1 (lt_of_le_of_lt s1 h2)
  have b := (zpow_lt_zpow_iff_right₀ (by norm_num : (1 : ℚ) < 2)).1 (lt_of_le_of_lt h1 s2)
  omega

/-- Rounding is exact on every number the format holds: it gives the number's own pattern. -/
theorem roundMag_exact {fb eb num den p : ℕ} (hd : 0 < den) (hp : p ≤ (2 ^ eb - 1) * 2 ^ fb)
    (h : (num : ℚ) / den = magValue fb eb p) : roundMag fb eb num den = p := by
  have hdq : (den : ℚ) ≠ 0 := by exact_mod_cast hd.ne'
  have two : (2 : ℚ) ≠ 0 := by norm_num
  have hfb : 0 < 2 ^ fb := by positivity
  have hdm := Nat.div_add_mod p (2 ^ fb)
  have hml := Nat.mod_lt p hfb
  rw [roundMag_eq]
  by_cases h0 : p / 2 ^ fb = 0
  · -- a subnormal pattern, or zero
    rw [magValue, if_pos h0] at h
    rcases Nat.eq_zero_or_pos num with hn | hn
    · rw [if_pos hn]
      subst hn
      have : (p : ℚ) * 2 ^ qminOf fb eb = 0 := by rw [← h]; simp
      rcases mul_eq_zero.1 this with hz | hz
      · exact_mod_cast hz.symm
      · exact absurd hz (two_zpow_pos _).ne'
    · rw [if_neg hn.ne']
      have hlt : (num : ℚ) / den < 2 ^ ((fb : ℤ) + qminOf fb eb) := by
        rw [h, zpow_add₀ two, zpow_natCast]
        refine mul_lt_mul_of_pos_right ?_ (two_zpow_pos _)
        exact_mod_cast Nat.lt_of_div_eq_zero hfb h0
      have hlog : floorLog2 num den < (fb : ℤ) + qminOf fb eb :=
        (zpow_lt_zpow_iff_right₀ (by norm_num : (1 : ℚ) < 2)).1 (lt_of_le_of_lt (floorLog2_spec hn hd).1 hlt)
      have hq : quantum fb eb num den = qminOf fb eb := max_eq_right (by omega)
      rw [rawMag, hq, sub_self, Int.toNat_zero, zero_mul, zero_add,
        roundEven_of_eq (k := p) (by positivity) ?_, min_eq_left hp]
      rw [scaled_div _ _ _ hd, h, mul_div_cancel_right₀ _ (two_zpow_pos _).ne']
  · -- a normal pattern
    rw [magValue, if_neg h0] at h
    have hn : 0 < num := by
      rcases Nat.eq_zero_or_pos num with hn | hn
      · subst hn
        have : (0 : ℚ) < ((2 ^ fb + p % 2 ^ fb : ℕ) : ℚ) * 2 ^ (qminOf fb eb + (p / 2 ^ fb - 1 : ℕ)) :=
          mul_pos (by positivity) (two_zpow_pos _)
        rw [← h] at this; simp at this
      · exact hn
    rw [if_neg hn.ne']
    have hlog : floorLog2 num den = (fb : ℤ) + (qminOf fb eb + (p / 2 ^ fb - 1 : ℕ)) := by
      apply floorLog2_eq hn hd
      · rw [h, zpow_add₀ two, zpow_natCast]
        refine mul_le_mul_of_nonneg_right ?_ (two_zpow_pos _).le
        exact_mod_cast Nat.le_add_right _ _
      · rw [h, show (fb : ℤ) + (qminOf fb eb + (p / 2 ^ fb - 1 : ℕ)) + 1 =
          ((fb + 1 : ℕ) : ℤ) + (qminOf fb eb + (p / 2 ^ fb - 1 : ℕ)) by push_cast; ring,
          zpow_add₀ two (((fb + 1 : ℕ) : ℤ)), zpow_natCast]
        refine mul_lt_mul_of_pos_right ?_ (two_zpow_pos _)
        have : 2 ^ fb + p % 2 ^ fb < 2 ^ (fb + 1) := by rw [pow_succ]; omega
        exact_mod_cast this
    have hq : quantum fb eb num den = qminOf fb eb + (p / 2 ^ fb - 1 : ℕ) := by
      unfold quantum; rw [hlog, max_eq_left] <;> omega
    rw [rawMag, hq, add_sub_cancel_left, Int.toNat_natCast,
      roundEven_of_eq (k := 2 ^ fb + p % 2 ^ fb) (by positivity) ?_]
    · have e : (p / 2 ^ fb - 1) * 2 ^ fb + (2 ^ fb + p % 2 ^ fb) = p := by
        obtain ⟨m, hm⟩ := Nat.exists_eq_succ_of_ne_zero h0
        rw [hm, Nat.succ_eq_add_one, Nat.add_sub_cancel, ← Nat.add_assoc, ← Nat.succ_mul, Nat.mul_comm, ← hm]
        exact hdm
      rw [e, min_eq_left hp]
    · rw [scaled_div _ _ _ hd, h, mul_div_cancel_right₀ _ (two_zpow_pos _).ne']

/-- A number at most that of a pattern rounds to at most that pattern. -/
theorem roundMag_le {fb eb num den p : ℕ} (hd : 0 < den) (hp : p ≤ (2 ^ eb - 1) * 2 ^ fb)
    (h : (num : ℚ) / den ≤ magValue fb eb p) : roundMag fb eb num den ≤ p := by
  have key : magValue fb eb p =
      ((if p / 2 ^ fb = 0 then numOf p (qminOf fb eb)
        else numOf (2 ^ fb + p % 2 ^ fb) (qminOf fb eb + (p / 2 ^ fb - 1 : ℕ)) : ℕ) : ℚ) /
      ((if p / 2 ^ fb = 0 then denOf (qminOf fb eb)
        else denOf (qminOf fb eb + (p / 2 ^ fb - 1 : ℕ)) : ℕ) : ℚ) := by
    unfold magValue; split_ifs <;> rw [numOf_div_denOf]
  have hpos : 0 < (if p / 2 ^ fb = 0 then denOf (qminOf fb eb)
      else denOf (qminOf fb eb + (p / 2 ^ fb - 1 : ℕ))) := by split_ifs <;> exact denOf_pos _
  exact (roundMag_mono hd hpos (h.trans key.le)).trans (roundMag_exact hpos hp key.symm).le

/-! ## Rounding gives a nearest pattern -/

/-- The pattern before the cut stands for the rounded multiple of the quantum, also where rounding carries into the next binade. -/
theorem magValue_rawMag {fb eb num den : ℕ} (hn : 0 < num) (hd : 0 < den) :
    magValue fb eb (rawMag fb eb num den) =
      (roundEven (num * 2 ^ (-quantum fb eb num den).toNat) (den * 2 ^ (quantum fb eb num den).toNat) : ℚ) *
        2 ^ quantum fb eb num den := by
  have hk := roundEven_quantum_le (fb := fb) (eb := eb) hn hd
  have hl : quantum fb eb num den = floorLog2 num den - fb → 2 ^ fb ≤
      roundEven (num * 2 ^ (-quantum fb eb num den).toNat) (den * 2 ^ (quantum fb eb num den).toNat) :=
    le_roundEven_quantum hn hd
  have h0 : qminOf fb eb ≤ quantum fb eb num den := le_max_right _ _
  have hc : quantum fb eb num den = floorLog2 num den - fb ∨ quantum fb eb num den = qminOf fb eb := max_choice _ _
  have hfb : 0 < 2 ^ fb := by positivity
  unfold rawMag
  generalize roundEven _ _ = k at *
  generalize quantum fb eb num den = Q at *
  obtain ⟨d, hdd⟩ := Int.eq_ofNat_of_zero_le (sub_nonneg.2 h0)
  obtain rfl : Q = qminOf fb eb + d := by omega
  rw [add_sub_cancel_left, Int.toNat_natCast]
  rw [pow_succ] at hk
  have small : d ≠ 0 → 2 ^ fb ≤ k := fun h => by
    rcases hc with h' | h'
    · exact hl h'
    · omega
  rcases Nat.lt_or_ge k (2 ^ fb) with h1 | h1
  · have hd0 : d = 0 := by by_contra hne; have := small hne; omega
    subst hd0
    rw [magValue, if_pos (Nat.div_eq_of_lt (by omega))]
    simp
  · rcases Nat.lt_or_ge k (2 ^ fb * 2) with h2 | h2
    · obtain ⟨f, rfl⟩ := Nat.exists_eq_add_of_le h1
      have e : d * 2 ^ fb + (2 ^ fb + f) = 2 ^ fb * (d + 1) + f := by ring
      rw [e, magValue, Nat.mul_add_div hfb, Nat.div_eq_of_lt (by omega : f < 2 ^ fb), Nat.mul_add_mod,
        Nat.mod_eq_of_lt (by omega : f < 2 ^ fb), if_neg (by omega)]
      simp
    · obtain rfl : k = 2 ^ fb * 2 := by omega
      have e : d * 2 ^ fb + 2 ^ fb * 2 = 2 ^ fb * (d + 2) + 0 := by ring
      rw [e, magValue, Nat.mul_add_div hfb, Nat.zero_div, Nat.mul_add_mod, Nat.zero_mod, if_neg (by omega),
        show d + 2 + 0 - 1 = d + 1 by omega]
      push_cast
      rw [show qminOf fb eb + ((d : ℤ) + 1) = qminOf fb eb + d + 1 by ring, zpow_add₀ (by norm_num : (2 : ℚ) ≠ 0) _ 1]
      ring

/-- What every pattern stands for: a multiple of a power of two, with at most fb + 1 bits, not below the last bit of the
subnormals. -/
theorem magValue_form (fb eb p : ℕ) :
    ∃ n : ℕ, ∃ e : ℤ, magValue fb eb p = n * 2 ^ e ∧ n < 2 ^ (fb + 1) ∧ qminOf fb eb ≤ e := by
  have hfb : 0 < 2 ^ fb := by positivity
  have hm := Nat.mod_lt p hfb
  unfold magValue
  split_ifs with h
  · exact ⟨p, _, rfl, by rw [pow_succ]; have := Nat.lt_of_div_eq_zero hfb h; omega, le_rfl⟩
  · exact ⟨_, _, rfl, by rw [pow_succ]; omega, by omega⟩

/-- An integer within one half of a number is a nearest one, and another is as near only at a tie. -/
theorem nearest_of_half {k : ℕ} {x : ℚ} (h1 : 2 * (k : ℚ) - 1 ≤ 2 * x) (h2 : 2 * x ≤ 2 * k + 1) (m : ℕ) :
    |(k : ℚ) - x| ≤ |(m : ℚ) - x| ∧ (|(k : ℚ) - x| = |(m : ℚ) - x| → m ≠ k → 2 * x = 2 * k + 1 ∨ 2 * x = 2 * k - 1) := by
  have hk : |(k : ℚ) - x| ≤ 1 / 2 := abs_le.2 ⟨by linarith, by linarith⟩
  rcases lt_trichotomy m k with h | rfl | h
  · have h' : (m : ℚ) + 1 ≤ k := by exact_mod_cast h
    have hm : |(m : ℚ) - x| = x - m := by rw [abs_of_nonpos (by linarith)]; ring
    rw [hm]
    refine ⟨by linarith, fun he _ => .inr ?_⟩
    rw [he] at hk; linarith
  · exact ⟨le_rfl, fun _ h => absurd rfl h⟩
  · have h' : (k : ℚ) + 1 ≤ m := by exact_mod_cast h
    have hm : |(m : ℚ) - x| = m - x := abs_of_nonneg (by linarith)
    rw [hm]
    refine ⟨by linarith, fun he _ => .inl ?_⟩
    rw [he] at hk; linarith

/-- No pattern is nearer to a number than its rounding before the cut, and where another is as near, the rounding is even. -/
theorem rawMag_nearest {fb eb num den : ℕ} (hfb : 1 ≤ fb) (hn : 0 < num) (hd : 0 < den) (q : ℕ) :
    |magValue fb eb (rawMag fb eb num den) - (num : ℚ) / den| ≤ |magValue fb eb q - (num : ℚ) / den| ∧
    (|magValue fb eb (rawMag fb eb num den) - (num : ℚ) / den| = |magValue fb eb q - (num : ℚ) / den| →
      magValue fb eb q ≠ magValue fb eb (rawMag fb eb num den) → rawMag fb eb num den % 2 = 0) := by
  have hv := magValue_rawMag (fb := fb) (eb := eb) hn hd
  have hpos := two_zpow_pos (quantum fb eb num den)
  obtain ⟨s1, s2, s3, s4⟩ := roundEven_spec (num := num * 2 ^ (-quantum fb eb num den).toNat)
    (den := den * 2 ^ (quantum fb eb num den).toNat) (by positivity)
  rw [scaled_div _ _ _ hd] at s1 s2 s3 s4
  have heven : rawMag fb eb num den % 2 =
      roundEven (num * 2 ^ (-quantum fb eb num den).toNat) (den * 2 ^ (quantum fb eb num den).toNat) % 2 := by
    obtain ⟨f, rfl⟩ := Nat.exists_eq_add_of_le hfb
    unfold rawMag
    rw [pow_add, pow_one, ← mul_assoc, mul_comm _ 2, mul_assoc, Nat.mul_add_mod]
  rw [hv, heven]
  have hlow : quantum fb eb num den ≠ qminOf fb eb → (2 : ℚ) ^ fb ≤ (num : ℚ) / den / 2 ^ quantum fb eb num den := by
    intro hne
    have hq : quantum fb eb num den = floorLog2 num den - fb :=
      (max_choice _ _).resolve_right hne
    rw [le_div_iff₀ hpos, hq, ← zpow_natCast (2 : ℚ) fb, ← zpow_add₀ (by norm_num : (2 : ℚ) ≠ 0)]
    exact le_trans (le_of_eq (by congr 1; omega)) (floorLog2_spec hn hd).1
  have hq0 : qminOf fb eb ≤ quantum fb eb num den := le_max_right _ _
  have hr : (num : ℚ) / den = (num : ℚ) / den / 2 ^ quantum fb eb num den * 2 ^ quantum fb eb num den :=
    (div_mul_cancel₀ _ hpos.ne').symm
  generalize roundEven _ _ = k at *
  generalize quantum fb eb num den = Q at *
  generalize (num : ℚ) / den / 2 ^ Q = x at *
  rw [hr]
  have scale : ∀ u : ℚ, |u * 2 ^ Q - x * 2 ^ Q| = |u - x| * 2 ^ Q := fun u => by
    rw [← sub_mul, abs_mul, abs_of_pos hpos]
  obtain ⟨n, e, hform, hnb, he⟩ := magValue_form fb eb q
  rw [scale, hform]
  rcases le_or_gt Q e with hQ | hQ
  · obtain ⟨d, hdd⟩ := Int.eq_ofNat_of_zero_le (sub_nonneg.2 hQ)
    have hm : (n : ℚ) * 2 ^ e = ((n * 2 ^ d : ℕ) : ℚ) * 2 ^ Q := by
      rw [show e = (d : ℤ) + Q by omega, zpow_add₀ (by norm_num : (2 : ℚ) ≠ 0), zpow_natCast]; push_cast; ring
    rw [hm, scale]
    obtain ⟨n1, n2⟩ := nearest_of_half s1 s2 (n * 2 ^ d)
    refine ⟨mul_le_mul_of_nonneg_right n1 hpos.le, fun h1 h2 => ?_⟩
    rcases n2 (mul_right_cancel₀ hpos.ne' h1) (fun h => h2 (by rw [h])) with h | h
    · exact s3 h
    · exact s4 h
  · have hx := hlow (by omega)
    have hu : (n : ℚ) * 2 ^ e < 2 ^ fb * 2 ^ Q := by
      calc (n : ℚ) * 2 ^ e < 2 ^ (fb + 1) * 2 ^ e :=
            mul_lt_mul_of_pos_right (by exact_mod_cast hnb) (two_zpow_pos e)
        _ = 2 ^ fb * 2 ^ (e + 1) := by rw [zpow_add₀ (by norm_num : (2 : ℚ) ≠ 0) e 1]; ring
        _ ≤ 2 ^ fb * 2 ^ Q := mul_le_mul_of_nonneg_left (zpow_le_zpow_right₀ (by norm_num) (by omega)) (by positivity)
    have hb := (nearest_of_half s1 s2 (2 ^ fb)).1
    rw [show (((2 ^ fb : ℕ)) : ℚ) = 2 ^ fb by push_cast; rfl, abs_of_nonpos (a := (2 : ℚ) ^ fb - x) (by linarith)] at hb
    have hlt : |(k : ℚ) - x| * 2 ^ Q < |(n : ℚ) * 2 ^ e - x * 2 ^ Q| := by
      have h1 : |(k : ℚ) - x| * 2 ^ Q ≤ (x - 2 ^ fb) * 2 ^ Q := mul_le_mul_of_nonneg_right (by linarith) hpos.le
      have h2 : x * 2 ^ Q - (n : ℚ) * 2 ^ e ≤ |(n : ℚ) * 2 ^ e - x * 2 ^ Q| := by
        rw [abs_sub_comm]; exact le_abs_self _
      nlinarith
    exact ⟨hlt.le, fun h => absurd h hlt.ne⟩

/-- Below half a last place above the largest finite number, rounding stays finite. -/
theorem rawMag_lt {fb eb num den : ℕ} (heb : 2 ≤ eb) (hn : 0 < num) (hd : 0 < den)
    (h : (num : ℚ) / den < (2 ^ (fb + 1) - 1 / 2) * 2 ^ (qminOf fb eb + (2 ^ eb - 3 : ℕ))) :
    rawMag fb eb num den < (2 ^ eb - 1) * 2 ^ fb := by
  have h4 : 4 ≤ 2 ^ eb := by
    calc 4 = 2 ^ 2 := rfl
      _ ≤ 2 ^ eb := Nat.pow_le_pow_right (by norm_num) heb
  have hfb : 0 < 2 ^ fb := by positivity
  have hk := roundEven_quantum_le (fb := fb) (eb := eb) hn hd
  have hs := (roundEven_spec (num := num * 2 ^ (-quantum fb eb num den).toNat)
    (den := den * 2 ^ (quantum fb eb num den).toNat) (by positivity)).1
  rw [scaled_div _ _ _ hd] at hs
  have hq0 : qminOf fb eb ≤ quantum fb eb num den := le_max_right _ _
  have hq1 : quantum fb eb num den ≤ qminOf fb eb + (2 ^ eb - 3 : ℕ) := by
    refine max_le ?_ (by omega)
    have h1 : (2 : ℚ) ^ floorLog2 num den < 2 ^ (((fb + 1 : ℕ) : ℤ) + (qminOf fb eb + (2 ^ eb - 3 : ℕ))) := by
      rw [zpow_add₀ (by norm_num : (2 : ℚ) ≠ 0), zpow_natCast]
      refine lt_of_le_of_lt (floorLog2_spec hn hd).1 (h.trans ?_)
      exact mul_lt_mul_of_pos_right (by linarith) (two_zpow_pos _)
    have h2 := (zpow_lt_zpow_iff_right₀ (by norm_num : (1 : ℚ) < 2)).1 h1
    push_cast at h2 ⊢
    omega
  have hpos := two_zpow_pos (quantum fb eb num den)
  unfold rawMag
  generalize roundEven _ _ = k at *
  generalize quantum fb eb num den = Q at *
  obtain ⟨d, hdd⟩ := Int.eq_ofNat_of_zero_le (sub_nonneg.2 hq0)
  rw [hdd, Int.toNat_natCast]
  rw [pow_succ] at hk
  have hd3 : d ≤ 2 ^ eb - 3 := by omega
  rcases hd3.eq_or_lt with h1 | h1
  · have hx : (num : ℚ) / den / 2 ^ Q < 2 ^ (fb + 1) - 1 / 2 := by
      rw [div_lt_iff₀ hpos, show Q = qminOf fb eb + (2 ^ eb - 3 : ℕ) by omega]; exact h
    have hk2 : (k : ℚ) < 2 ^ (fb + 1) := by linarith
    have hk3 : k < 2 ^ fb * 2 := by rw [← pow_succ]; exact_mod_cast hk2
    calc d * 2 ^ fb + k < d * 2 ^ fb + 2 ^ fb * 2 := by omega
      _ = (d + 2) * 2 ^ fb := by ring
      _ ≤ _ := Nat.mul_le_mul_right _ (by omega)
  · calc d * 2 ^ fb + k ≤ d * 2 ^ fb + 2 ^ fb * 2 := by omega
      _ = (d + 2) * 2 ^ fb := by ring
      _ < _ := Nat.mul_lt_mul_of_pos_right (by omega) hfb

/-- Everything rounding can do below the overflow bound: a nearest finite pattern, the even one at a tie. -/
theorem roundMag_nearest {fb eb num den : ℕ} (hfb : 1 ≤ fb) (heb : 2 ≤ eb) (hd : 0 < den)
    (h : (num : ℚ) / den < (2 ^ (fb + 1) - 1 / 2) * 2 ^ (qminOf fb eb + (2 ^ eb - 3 : ℕ))) :
    roundMag fb eb num den < (2 ^ eb - 1) * 2 ^ fb ∧ ∀ q : ℕ,
      |magValue fb eb (roundMag fb eb num den) - (num : ℚ) / den| ≤ |magValue fb eb q - (num : ℚ) / den| ∧
      (|magValue fb eb (roundMag fb eb num den) - (num : ℚ) / den| = |magValue fb eb q - (num : ℚ) / den| →
        magValue fb eb q ≠ magValue fb eb (roundMag fb eb num den) → roundMag fb eb num den % 2 = 0) := by
  rw [roundMag_eq]
  rcases Nat.eq_zero_or_pos num with rfl | hn
  · have h4 : 4 ≤ 2 ^ eb := by
      calc 4 = 2 ^ 2 := rfl
        _ ≤ 2 ^ eb := Nat.pow_le_pow_right (by norm_num) heb
    refine ⟨Nat.mul_pos (by omega) (by positivity), fun q => ⟨?_, fun _ _ => rfl⟩⟩
    simp [magValue]
  · have hlt := rawMag_lt heb hn hd h
    rw [if_neg hn.ne', min_eq_left hlt.le]
    exact ⟨hlt, rawMag_nearest hfb hn hd⟩

end Sys2Proof.Machine
end

