-- ==== Sys2Proof/Laws/Float.lean ====
section
/-! SUPPORT. Laws/Float.lean: patterns, their data and their values: what a finite pattern stands for, and when an operation is exact. -/

namespace Sys2Proof.Machine

/-! ## What a format holds -/

/-- Every number k · 2^e with at most fb + 1 bits, not below the last bit of the subnormals and below the overflow bound, has a finite
pattern. -/
theorem exists_pattern {fb eb k : ℕ} {e : ℤ} (heb : 2 ≤ eb) (hk : k < 2 ^ (fb + 1)) (he : qminOf fb eb ≤ e)
    (hlt : (k : ℚ) * 2 ^ e < 2 ^ ((2 : ℤ) ^ (eb - 1))) :
    ∃ p, p < (2 ^ eb - 1) * 2 ^ fb ∧ magValue fb eb p = (k : ℚ) * 2 ^ e := by
  have two : (2 : ℚ) ≠ 0 := by norm_num
  have hfb : 0 < 2 ^ fb := by positivity
  have heb' : 2 ≤ 2 ^ (eb - 1) := by
    calc 2 = 2 ^ 1 := rfl
      _ ≤ 2 ^ (eb - 1) := Nat.pow_le_pow_right (by norm_num) (by omega)
  have hpe : 2 ^ eb = 2 * 2 ^ (eb - 1) := by
    rw [← pow_succ']; congr 1; omega
  rcases Nat.eq_zero_or_pos k with rfl | hk0
  · refine ⟨0, Nat.mul_pos (by omega) hfb, ?_⟩
    simp [magValue]
  have hL1 := Nat.log2_self_le hk0.ne'
  have hL2 : k < 2 ^ (k.log2 + 1) := Nat.lt_log2_self
  have hL : k.log2 ≤ fb := by
    have := (Nat.pow_lt_pow_iff_right (by norm_num : 1 < 2)).1 (lt_of_le_of_lt hL1 hk)
    omega
  generalize k.log2 = L at *
  obtain ⟨d, hd⟩ := Int.eq_ofNat_of_zero_le (sub_nonneg.2 he)
  by_cases hn : fb ≤ d + L
  · -- a normal pattern: the exponent is e + L - fb
    have hm1 : 2 ^ fb ≤ k * 2 ^ (fb - L) := by
      calc 2 ^ fb = 2 ^ L * 2 ^ (fb - L) := by rw [← pow_add]; congr 1; omega
        _ ≤ _ := Nat.mul_le_mul_right _ hL1
    have hm2 : k * 2 ^ (fb - L) < 2 * 2 ^ fb := by
      calc k * 2 ^ (fb - L) < 2 ^ (L + 1) * 2 ^ (fb - L) := Nat.mul_lt_mul_of_pos_right hL2 (by positivity)
        _ = 2 * 2 ^ fb := by rw [← pow_add, ← pow_succ']; congr 1; omega
    set f := k * 2 ^ (fb - L) - 2 ^ fb with hf
    set b := d + L - fb + 1 with hb
    have hdiv : (b * 2 ^ fb + f) / 2 ^ fb = b := by
      rw [Nat.mul_comm, Nat.mul_add_div hfb, Nat.div_eq_of_lt (by omega), Nat.add_zero]
    have hmod : (b * 2 ^ fb + f) % 2 ^ fb = f := by
      rw [Nat.mul_comm, Nat.mul_add_mod, Nat.mod_eq_of_lt (by omega)]
    have hval : magValue fb eb (b * 2 ^ fb + f) = (k : ℚ) * 2 ^ e := by
      rw [magValue, hdiv, hmod, if_neg (by omega), show 2 ^ fb + f = k * 2 ^ (fb - L) by omega]
      have h2 : qminOf fb eb + (b - 1 : ℕ) = e - (fb - L : ℕ) := by omega
      rw [h2, zpow_sub₀ two, zpow_natCast]
      push_cast
      field_simp
    refine ⟨b * 2 ^ fb + f, ?_, hval⟩
    have hbe : b + 2 ≤ 2 ^ eb := by
      have h1 : (2 : ℚ) ^ ((L : ℤ) + e) < 2 ^ ((2 : ℤ) ^ (eb - 1)) := by
        refine lt_of_le_of_lt ?_ hlt
        rw [zpow_add₀ two, zpow_natCast]
        exact mul_le_mul_of_nonneg_right (by exact_mod_cast hL1) (two_zpow_pos _).le
      have h2 := (zpow_lt_zpow_iff_right₀ (by norm_num : (1 : ℚ) < 2)).1 h1
      have h3 : ((2 : ℤ) ^ (eb - 1)) = ((2 ^ (eb - 1) : ℕ) : ℤ) := by push_cast; rfl
      have h4 : qminOf fb eb = 2 - ((2 ^ (eb - 1) : ℕ) : ℤ) - fb := by unfold qminOf; push_cast; rfl
      rw [h3] at h2
      omega
    calc b * 2 ^ fb + f < b * 2 ^ fb + 2 ^ fb := by omega
      _ = (b + 1) * 2 ^ fb := by ring
      _ ≤ _ := Nat.mul_le_mul_right _ (by omega)
  · -- a subnormal pattern
    have hp : k * 2 ^ d < 2 ^ fb := by
      calc k * 2 ^ d < 2 ^ (L + 1) * 2 ^ d := Nat.mul_lt_mul_of_pos_right hL2 (by positivity)
        _ = 2 ^ (L + 1 + d) := by rw [← pow_add]
        _ ≤ 2 ^ fb := Nat.pow_le_pow_right (by norm_num) (by omega)
    refine ⟨k * 2 ^ d, lt_of_lt_of_le hp (Nat.le_mul_of_pos_left _ (by omega)), ?_⟩
    rw [magValue, if_pos (Nat.div_eq_of_lt hp), show e = (d : ℤ) + qminOf fb eb by omega, zpow_add₀ two, zpow_natCast]
    push_cast; ring

/-! ## The data of patterns -/

/-- The magnitude pattern of a binary64 pattern: all but its sign. -/
def mag64 (x : F64) : ℕ := x.toNat % 2 ^ 63

/-- The magnitude pattern of a binary32 pattern. -/
def mag32 (x : F32) : ℕ := x.toNat % 2 ^ 31

/-- The sign of a binary64 pattern. -/
def neg64 (x : F64) : Bool := decide (2 ^ 63 ≤ x.toNat)

/-- The sign of a binary32 pattern. -/
def neg32 (x : F32) : Bool := decide (2 ^ 31 ≤ x.toNat)

theorem signed64_self (x : F64) : signed64 (neg64 x) (mag64 x) = x := by
  apply BitVec.eq_of_toNat_eq
  have := x.isLt
  unfold signed64 neg64 mag64
  rw [BitVec.toNat_ofNat]
  by_cases h : 2 ^ 63 ≤ x.toNat <;> simp only [h, decide_true, decide_false, if_true, Bool.false_eq_true, if_false] <;> omega

theorem signed32_self (x : F32) : signed32 (neg32 x) (mag32 x) = x := by
  apply BitVec.eq_of_toNat_eq
  have := x.isLt
  unfold signed32 neg32 mag32
  rw [BitVec.toNat_ofNat]
  by_cases h : 2 ^ 31 ≤ x.toNat <;> simp only [h, decide_true, decide_false, if_true, Bool.false_eq_true, if_false] <;> omega

theorem mag64_signed64 {neg : Bool} {m : ℕ} (h : m < 2 ^ 63) : mag64 (signed64 neg m) = m := by
  unfold mag64 signed64
  rw [BitVec.toNat_ofNat]
  cases neg <;> simp only [if_true, Bool.false_eq_true, if_false] <;> omega

theorem neg64_signed64 {neg : Bool} {m : ℕ} (h : m < 2 ^ 63) : neg64 (signed64 neg m) = neg := by
  unfold neg64 signed64
  rw [BitVec.toNat_ofNat]
  cases neg <;> simp only [if_true, Bool.false_eq_true, if_false, decide_eq_true_eq, decide_eq_false_iff_not] <;> omega

theorem mag32_signed32 {neg : Bool} {m : ℕ} (h : m < 2 ^ 31) : mag32 (signed32 neg m) = m := by
  unfold mag32 signed32
  rw [BitVec.toNat_ofNat]
  cases neg <;> simp only [if_true, Bool.false_eq_true, if_false] <;> omega

theorem neg32_signed32 {neg : Bool} {m : ℕ} (h : m < 2 ^ 31) : neg32 (signed32 neg m) = neg := by
  unfold neg32 signed32
  rw [BitVec.toNat_ofNat]
  cases neg <;> simp only [if_true, Bool.false_eq_true, if_false, decide_eq_true_eq, decide_eq_false_iff_not] <;> omega

/-- What a binary64 pattern stands for, by its sign and magnitude pattern (R12, R98). -/
theorem datum64_cases (x : F64) :
    (mag64 x < 0x7FF0000000000000 ∧ ∃ mag exp, datum64 x = .fin (neg64 x) mag exp ∧
      (mag : ℚ) * 2 ^ exp = magValue 52 11 (mag64 x) ∧ mag < 2 ^ 53 ∧ qminOf 52 11 ≤ exp ∧ (mag = 0 ↔ mag64 x = 0)) ∨
    (mag64 x = 0x7FF0000000000000 ∧ datum64 x = .inf (neg64 x)) ∨
    (0x7FF0000000000000 < mag64 x ∧ datum64 x = .nan) := by
  have hx := x.isLt
  unfold datum64 datumOf
  have hneg : decide (x.toNat / 2 ^ (52 + 11) % 2 = 1) = neg64 x := by
    unfold neg64; rw [decide_eq_decide]; omega
  have hb : x.toNat / 2 ^ 52 % 2 ^ 11 = mag64 x / 2 ^ 52 := by unfold mag64; omega
  have hf : x.toNat % 2 ^ 52 = mag64 x % 2 ^ 52 := by unfold mag64; omega
  have hm : mag64 x < 2 ^ 63 := Nat.mod_lt _ (by norm_num)
  simp only [hneg, hb, hf]
  generalize mag64 x = m at *
  by_cases h1 : m / 2 ^ 52 = 2 ^ 11 - 1
  · rw [if_pos h1]
    by_cases h2 : m % 2 ^ 52 = 0
    · rw [if_pos h2]; exact .inr (.inl ⟨by omega, rfl⟩)
    · rw [if_neg h2]; exact .inr (.inr ⟨by omega, rfl⟩)
  · rw [if_neg h1]
    refine .inl ⟨by omega, ?_⟩
    by_cases h2 : m / 2 ^ 52 = 0
    · rw [if_pos h2]
      refine ⟨_, _, rfl, ?_, by omega, le_rfl, by omega⟩
      rw [magValue, if_pos h2, Nat.mod_eq_of_lt (by omega)]
      rfl
    · rw [if_neg h2]
      refine ⟨_, _, rfl, ?_, by omega, by unfold qminOf; omega, by omega⟩
      rw [magValue, if_neg h2]
      rfl

/-- What a binary32 pattern stands for, by its sign and magnitude pattern (R12, R97). -/
theorem datum32_cases (x : F32) :
    (mag32 x < 0x7F800000 ∧ ∃ mag exp, datum32 x = .fin (neg32 x) mag exp ∧
      (mag : ℚ) * 2 ^ exp = magValue 23 8 (mag32 x) ∧ mag < 2 ^ 24 ∧ -149 ≤ exp ∧ exp ≤ 104 ∧ (mag = 0 ↔ mag32 x = 0)) ∨
    (mag32 x = 0x7F800000 ∧ datum32 x = .inf (neg32 x)) ∨
    (0x7F800000 < mag32 x ∧ datum32 x = .nan) := by
  have hx := x.isLt
  unfold datum32 datumOf
  have hneg : decide (x.toNat / 2 ^ (23 + 8) % 2 = 1) = neg32 x := by
    unfold neg32; rw [decide_eq_decide]; omega
  have hb : x.toNat / 2 ^ 23 % 2 ^ 8 = mag32 x / 2 ^ 23 := by unfold mag32; omega
  have hf : x.toNat % 2 ^ 23 = mag32 x % 2 ^ 23 := by unfold mag32; omega
  have hm : mag32 x < 2 ^ 31 := Nat.mod_lt _ (by norm_num)
  simp only [hneg, hb, hf]
  generalize mag32 x = m at *
  by_cases h1 : m / 2 ^ 23 = 2 ^ 8 - 1
  · rw [if_pos h1]
    by_cases h2 : m % 2 ^ 23 = 0
    · rw [if_pos h2]; exact .inr (.inl ⟨by omega, rfl⟩)
    · rw [if_neg h2]; exact .inr (.inr ⟨by omega, rfl⟩)
  · rw [if_neg h1]
    refine .inl ⟨by omega, ?_⟩
    by_cases h2 : m / 2 ^ 23 = 0
    · rw [if_pos h2]
      refine ⟨_, _, rfl, ?_, by omega, by norm_num, by norm_num, by omega⟩
      rw [magValue, if_pos h2, Nat.mod_eq_of_lt (by omega)]
      rfl
    · rw [if_neg h2]
      refine ⟨_, _, rfl, ?_, by omega, by norm_num, by norm_num; omega, by omega⟩
      rw [magValue, if_neg h2]
      rfl

theorem isFinite64_iff (x : F64) : isFinite64 x = true ↔ mag64 x < 0x7FF0000000000000 := by simp [isFinite64, mag64]

theorem isFinite32_iff (x : F32) : isFinite32 x = true ↔ mag32 x < 0x7F800000 := by simp [isFinite32, mag32]

theorem isNaN64_iff (x : F64) : isNaN64 x = true ↔ 0x7FF0000000000000 < mag64 x := by
  unfold isNaN64
  rcases datum64_cases x with ⟨h, m, e, hd, -⟩ | ⟨h, hd⟩ | ⟨h, hd⟩ <;> simp [hd] <;> omega

theorem isNaN32_iff (x : F32) : isNaN32 x = true ↔ 0x7F800000 < mag32 x := by
  unfold isNaN32
  rcases datum32_cases x with ⟨h, m, e, hd, -⟩ | ⟨h, hd⟩ | ⟨h, hd⟩ <;> simp [hd] <;> omega

/-! ## Values -/

/-- The sign as a factor. -/
def signOf (neg : Bool) : ℚ := if neg then -1 else 1

theorem signOf_xor (a b : Bool) : signOf (a ^^ b) = signOf a * signOf b := by cases a <;> cases b <;> simp [signOf]

theorem value64_eq {x : F64} (h : isFinite64 x = true) : value64 x = signOf (neg64 x) * magValue 52 11 (mag64 x) := by
  rw [isFinite64_iff] at h
  rcases datum64_cases x with ⟨-, m, e, hd, hv, -⟩ | ⟨h', -⟩ | ⟨h', -⟩
  · simp only [value64, hd, datumValue, hv]; rfl
  · omega
  · omega

theorem value32_eq {x : F32} (h : isFinite32 x = true) : value32 x = signOf (neg32 x) * magValue 23 8 (mag32 x) := by
  rw [isFinite32_iff] at h
  rcases datum32_cases x with ⟨-, m, e, hd, hv, -⟩ | ⟨h', -⟩ | ⟨h', -⟩
  · simp only [value32, hd, datumValue, hv]; rfl
  · omega
  · omega

theorem magValue_nonneg (fb eb p : ℕ) : 0 ≤ magValue fb eb p := by
  unfold magValue; split_ifs <;> exact mul_nonneg (by positivity) (two_zpow_pos _).le

/-- The value of a magnitude pattern determines the pattern. -/
theorem magValue_inj {fb eb p q : ℕ} (hp : p ≤ (2 ^ eb - 1) * 2 ^ fb) (hq : q ≤ (2 ^ eb - 1) * 2 ^ fb)
    (h : magValue fb eb p = magValue fb eb q) : p = q := by
  obtain ⟨n, d, hd, hv⟩ : ∃ n d : ℕ, 0 < d ∧ (n : ℚ) / d = magValue fb eb p := by
    unfold magValue
    split_ifs
    · exact ⟨_, _, denOf_pos _, numOf_div_denOf _ _⟩
    · exact ⟨_, _, denOf_pos _, numOf_div_denOf _ _⟩
  rw [← roundMag_exact hd hp hv, roundMag_exact hd hq (hv.trans h)]

theorem magValue_eq_zero {fb eb p : ℕ} (h : magValue fb eb p = 0) : p = 0 := by
  unfold magValue at h
  split_ifs at h with h0
  · rcases mul_eq_zero.1 h with hz | hz
    · exact_mod_cast hz
    · exact absurd hz (two_zpow_pos _).ne'
  · rcases mul_eq_zero.1 h with hz | hz
    · have : 0 < 2 ^ fb := by positivity
      have hz' : 2 ^ fb + p % 2 ^ fb = 0 := by exact_mod_cast hz
      omega
    · exact absurd hz (two_zpow_pos _).ne'

/-- Two finite binary64 patterns of one sign and one value are the same pattern. -/
theorem eq_of_value64 {x y : F64} (hx : isFinite64 x = true) (hy : isFinite64 y = true) (hn : neg64 x = neg64 y)
    (h : value64 x = value64 y) : x = y := by
  rw [value64_eq hx, value64_eq hy, hn] at h
  rw [isFinite64_iff] at hx hy
  have hm : mag64 x = mag64 y := by
    apply magValue_inj (fb := 52) (eb := 11) (by omega) (by omega)
    cases hb : neg64 y <;> simpa [signOf, hb] using h
  rw [← signed64_self x, ← signed64_self y, hn, hm]

/-! ## Exact operations -/

/-- Rounding a number that binary64 holds gives that number. -/
theorem rne64_exact {neg : Bool} {num den k : ℕ} {e : ℤ} (hd : 0 < den) (h : (num : ℚ) / den = (k : ℚ) * 2 ^ e)
    (hk : k < 2 ^ 53) (he : -1074 ≤ e) (hlt : (k : ℚ) * 2 ^ e < 2 ^ (1024 : ℤ)) :
    isFinite64 (rne64 neg num den) = true ∧ value64 (rne64 neg num den) = signOf neg * ((k : ℚ) * 2 ^ e) ∧
    neg64 (rne64 neg num den) = neg := by
  obtain ⟨p, hp, hv⟩ := exists_pattern (fb := 52) (eb := 11) (k := k) (e := e) (by norm_num) hk
    (by unfold qminOf; norm_num; exact he) (by norm_num at hlt ⊢; exact hlt)
  have hr : roundMag 52 11 num den = p := roundMag_exact hd hp.le (h.trans hv.symm)
  have hp' : p < 0x7FF0000000000000 := by omega
  have hfin : isFinite64 (rne64 neg num den) = true := by
    rw [isFinite64_iff, rne64, hr, mag64_signed64 (by omega)]; exact hp'
  refine ⟨hfin, ?_, by rw [rne64, hr, neg64_signed64 (by omega)]⟩
  rw [value64_eq hfin, rne64, hr, neg64_signed64 (by omega), mag64_signed64 (by omega), hv]

/-- Widening is exact. -/
theorem f32to64_exact {x : F32} (h : isFinite32 x = true) :
    isFinite64 (f32to64 x) = true ∧ value64 (f32to64 x) = value32 x ∧ neg64 (f32to64 x) = neg32 x := by
  rcases datum32_cases x with ⟨-, m, e, hd, hv, hm, he1, he2, -⟩ | ⟨h', -⟩ | ⟨h', -⟩
  · have hlt : (m : ℚ) * 2 ^ e < 2 ^ (1024 : ℤ) := by
      calc (m : ℚ) * 2 ^ e ≤ 2 ^ (24 : ℤ) * 2 ^ (104 : ℤ) := by
            apply mul_le_mul
            · have : (m : ℚ) ≤ (2 ^ 24 : ℕ) := by exact_mod_cast hm.le
              refine this.trans (by norm_num)
            · exact zpow_le_zpow_right₀ (by norm_num) he2
            · exact (two_zpow_pos _).le
            · exact (two_zpow_pos _).le
        _ < 2 ^ (1024 : ℤ) := by
            rw [← zpow_add₀ (by norm_num)]; exact zpow_lt_zpow_right₀ (by norm_num) (by norm_num)
    have := rne64_exact (neg := neg32 x) (denOf_pos e) (numOf_div_denOf m e) (by omega) (by omega) hlt
    simp only [f32to64, hd]
    refine ⟨this.1, ?_, this.2.2⟩
    rw [this.2.1, value32, hd]; rfl
  · rw [isFinite32_iff] at h; omega
  · rw [isFinite32_iff] at h; omega

/-- A product that binary64 holds is exact. -/
theorem mul64_exact {x y : F64} (hx : isFinite64 x = true) (hy : isFinite64 y = true) {k : ℕ} {e : ℤ}
    (h : |value64 x * value64 y| = (k : ℚ) * 2 ^ e) (hk : k < 2 ^ 53) (he : -1074 ≤ e)
    (hlt : (k : ℚ) * 2 ^ e < 2 ^ (1024 : ℤ)) :
    isFinite64 (mul64 x y) = true ∧ value64 (mul64 x y) = value64 x * value64 y ∧
    neg64 (mul64 x y) = (neg64 x ^^ neg64 y) := by
  rw [isFinite64_iff] at hx hy
  rcases datum64_cases x with ⟨-, m, p, hdx, -⟩ | ⟨h', -⟩ | ⟨h', -⟩
  · rcases datum64_cases y with ⟨-, n, q, hdy, -⟩ | ⟨h', -⟩ | ⟨h', -⟩
    · have vx : value64 x = signOf (neg64 x) * ((m : ℚ) * 2 ^ p) := by simp only [value64, hdx, datumValue]; rfl
      have vy : value64 y = signOf (neg64 y) * ((n : ℚ) * 2 ^ q) := by simp only [value64, hdy, datumValue]; rfl
      have hval : ((m * n : ℕ) : ℚ) * 2 ^ (p + q) = (k : ℚ) * 2 ^ e := by
        rw [← h, vx, vy, abs_mul, abs_mul (signOf (neg64 x)), abs_mul (signOf (neg64 y))]
        have h1 : ∀ b, |signOf b| = 1 := by intro b; cases b <;> simp [signOf]
        rw [h1, h1, abs_of_nonneg (mul_nonneg (Nat.cast_nonneg m) (two_zpow_pos p).le),
          abs_of_nonneg (mul_nonneg (Nat.cast_nonneg n) (two_zpow_pos q).le), zpow_add₀ (by norm_num)]
        push_cast; ring
      have := rne64_exact (neg := neg64 x ^^ neg64 y) (denOf_pos (p + q)) ((numOf_div_denOf (m * n) (p + q)).trans hval) hk he hlt
      simp only [mul64, hdx, hdy]
      refine ⟨this.1, ?_, this.2.2⟩
      rw [this.2.1, vx, vy, ← hval, signOf_xor, zpow_add₀ (by norm_num)]
      push_cast; ring
    · omega
    · omega
  · omega
  · omega

/-- The value of a finite datum, for rewriting. -/
theorem value64_fin {x : F64} {neg : Bool} {m : ℕ} {e : ℤ} (h : datum64 x = .fin neg m e) :
    value64 x = signOf neg * ((m : ℚ) * 2 ^ e) := by
  simp only [value64, h, datumValue]; rfl

/-- A finite pattern has a finite datum of its own sign. -/
theorem finite_datum {x : F64} (h : isFinite64 x = true) : ∃ m e, datum64 x = .fin (neg64 x) m e := by
  rw [isFinite64_iff] at h
  rcases datum64_cases x with ⟨-, m, e, hd, -⟩ | ⟨h', -⟩ | ⟨h', -⟩
  · exact ⟨m, e, hd⟩
  · omega
  · omega

theorem signedInt_cast (neg : Bool) (n : ℕ) : ((signedInt neg n : ℤ) : ℚ) = signOf neg * n := by
  cases neg <;> simp [signedInt, signOf]

/-- Two finite data brought to their lower exponent. -/
theorem signedInt_align (neg : Bool) (m : ℕ) (p e : ℤ) (h : e ≤ p) :
    ((signedInt neg (m * 2 ^ (p - e).toNat) : ℤ) : ℚ) * 2 ^ e = signOf neg * ((m : ℚ) * 2 ^ p) := by
  obtain ⟨d, hd⟩ := Int.eq_ofNat_of_zero_le (sub_nonneg.2 h)
  rw [signedInt_cast, hd, Int.toNat_natCast, show p = (d : ℤ) + e by omega, zpow_add₀ (by norm_num), zpow_natCast]
  push_cast; ring

/-- Everything add64 does on finite operands: the exact sum, rounded once. -/
theorem add64_finite {x y : F64} (hx : isFinite64 x = true) (hy : isFinite64 y = true) :
    (value64 x + value64 y = 0 ∧ add64 x y = signed64 (neg64 x && neg64 y) 0) ∨
    (value64 x + value64 y ≠ 0 ∧ ∃ num den : ℕ, 0 < den ∧ (num : ℚ) / (den : ℚ) = |value64 x + value64 y| ∧
      add64 x y = rne64 (decide (value64 x + value64 y < 0)) num den) := by
  obtain ⟨m, p, hdx⟩ := finite_datum hx
  obtain ⟨n, q, hdy⟩ := finite_datum hy
  have hsum : ((signedInt (neg64 x) (m * 2 ^ (p - min p q).toNat) + signedInt (neg64 y) (n * 2 ^ (q - min p q).toNat) : ℤ) : ℚ)
      * 2 ^ min p q = value64 x + value64 y := by
    push_cast
    rw [add_mul, signedInt_align _ _ _ _ (min_le_left p q), signedInt_align _ _ _ _ (min_le_right p q),
      value64_fin hdx, value64_fin hdy]
  simp only [add64, hdx, hdy]
  generalize signedInt (neg64 x) (m * 2 ^ (p - min p q).toNat) + signedInt (neg64 y) (n * 2 ^ (q - min p q).toNat) = v at *
  have hpos := two_zpow_pos (min p q)
  by_cases hv : v = 0
  · left
    rw [if_pos hv]
    exact ⟨by rw [← hsum, hv]; simp, rfl⟩
  · right
    rw [if_neg hv]
    refine ⟨by rw [← hsum]; exact mul_ne_zero (by exact_mod_cast hv) hpos.ne', numOf v.natAbs (min p q), denOf (min p q), denOf_pos (min p q), ?_, ?_⟩
    · rw [numOf_div_denOf, ← hsum, abs_mul, abs_of_pos hpos, Nat.cast_natAbs, Int.cast_abs]
    · congr 1
      rw [decide_eq_decide, ← hsum]
      constructor
      · intro h; exact mul_neg_of_neg_of_pos (by exact_mod_cast h) hpos
      · intro h
        by_contra hc
        have : (0 : ℚ) ≤ (v : ℚ) := by exact_mod_cast not_lt.1 hc
        exact absurd h (not_lt.2 (mul_nonneg this hpos.le))

/-- Everything mul64 does on finite operands: the exact product, rounded once. -/
theorem mul64_finite {x y : F64} (hx : isFinite64 x = true) (hy : isFinite64 y = true) :
    ∃ num den : ℕ, 0 < den ∧ (num : ℚ) / (den : ℚ) = |value64 x * value64 y| ∧
      mul64 x y = rne64 (neg64 x ^^ neg64 y) num den := by
  obtain ⟨m, p, hdx⟩ := finite_datum hx
  obtain ⟨n, q, hdy⟩ := finite_datum hy
  refine ⟨numOf (m * n) (p + q), denOf (p + q), denOf_pos (p + q), ?_, by simp only [mul64, hdx, hdy]⟩
  rw [numOf_div_denOf, value64_fin hdx, value64_fin hdy, abs_mul, abs_mul (signOf (neg64 x)), abs_mul (signOf (neg64 y))]
  have h1 : ∀ b, |signOf b| = 1 := by intro b; cases b <;> simp [signOf]
  rw [h1, h1, abs_of_nonneg (mul_nonneg (Nat.cast_nonneg m) (two_zpow_pos p).le),
    abs_of_nonneg (mul_nonneg (Nat.cast_nonneg n) (two_zpow_pos q).le), zpow_add₀ (by norm_num)]
  push_cast; ring

/-- Everything div64 does on finite operands with a divisor that is no zero: the exact quotient, rounded once. -/
theorem div64_finite {x y : F64} (hx : isFinite64 x = true) (hy : isFinite64 y = true) (h0 : value64 y ≠ 0) :
    ∃ num den : ℕ, 0 < den ∧ (num : ℚ) / (den : ℚ) = |value64 x / value64 y| ∧
      div64 x y = rne64 (neg64 x ^^ neg64 y) num den := by
  obtain ⟨m, p, hdx⟩ := finite_datum hx
  obtain ⟨n, q, hdy⟩ := finite_datum hy
  have hn : n ≠ 0 := by rintro rfl; rw [value64_fin hdy] at h0; simp at h0
  have hnq : (n : ℚ) ≠ 0 := by exact_mod_cast hn
  have hd : ((denOf (p - q) : ℕ) : ℚ) ≠ 0 := by exact_mod_cast (denOf_pos (p - q)).ne'
  refine ⟨numOf m (p - q), n * denOf (p - q), Nat.mul_pos (Nat.pos_of_ne_zero hn) (denOf_pos _), ?_,
    by simp only [div64, hdx, hdy, if_neg hn]⟩
  rw [abs_div, value64_fin hdx, value64_fin hdy, abs_mul (signOf (neg64 x)), abs_mul (signOf (neg64 y))]
  have h1 : ∀ b, |signOf b| = 1 := by intro b; cases b <;> simp [signOf]
  rw [h1, h1, abs_of_nonneg (mul_nonneg (Nat.cast_nonneg m) (two_zpow_pos p).le),
    abs_of_nonneg (mul_nonneg (Nat.cast_nonneg n) (two_zpow_pos q).le)]
  have h2 := numOf_div_denOf m (p - q)
  rw [zpow_sub₀ (by norm_num)] at h2
  have hq := (two_zpow_pos q).ne'
  push_cast
  rw [mul_comm (n : ℚ), ← div_div, h2]
  field_simp

/-- Rounding a number at most that of a finite pattern gives at most that pattern, with the sign given. -/
theorem rne64_le {neg : Bool} {num den p : ℕ} (hd : 0 < den) (hp : p < 0x7FF0000000000000)
    (h : (num : ℚ) / den ≤ magValue 52 11 p) :
    mag64 (rne64 neg num den) ≤ p ∧ isFinite64 (rne64 neg num den) = true ∧ neg64 (rne64 neg num den) = neg := by
  have hr : roundMag 52 11 num den ≤ p := roundMag_le hd (by omega) h
  rw [isFinite64_iff, rne64, mag64_signed64 (by omega), neg64_signed64 (by omega)]
  exact ⟨hr, by omega, rfl⟩

/-- The order of finite patterns is that of their values. -/
theorem lt64_iff {x y : F64} (hx : isFinite64 x = true) (hy : isFinite64 y = true) :
    lt64 x y = true ↔ value64 x < value64 y := by
  obtain ⟨m, p, hdx⟩ := finite_datum hx
  obtain ⟨n, q, hdy⟩ := finite_datum hy
  simp only [lt64, hdx, hdy, decide_eq_true_eq]
  rw [value64_fin hdx, value64_fin hdy, ← signedInt_align _ _ _ _ (min_le_left p q),
    ← signedInt_align _ _ _ _ (min_le_right p q), mul_lt_mul_iff_left₀ (two_zpow_pos _)]
  exact_mod_cast Iff.rfl

/-- Narrowing a binary64 number that binary32 holds gives its pattern. -/
theorem f64to32_exact {y : F64} (hy : isFinite64 y = true) {p : ℕ} (hp : p < 0x7F800000)
    (h : |value64 y| = magValue 23 8 p) : f64to32 y = signed32 (neg64 y) p := by
  obtain ⟨m, e, hd⟩ := finite_datum hy
  simp only [f64to32, hd, rne32]
  rw [roundMag_exact (denOf_pos e) (by omega : p ≤ _) ?_]
  rw [numOf_div_denOf, ← h, value64_fin hd, abs_mul, abs_of_nonneg (mul_nonneg (Nat.cast_nonneg m) (two_zpow_pos e).le)]
  have h1 : |signOf (neg64 y)| = 1 := by cases neg64 y <;> simp [signOf]
  rw [h1, one_mul]

/-- Narrowing a binary64 number at most that of a finite binary32 pattern gives at most that pattern. -/
theorem f64to32_le {y : F64} (hy : isFinite64 y = true) {p : ℕ} (hp : p < 0x7F800000)
    (h : |value64 y| ≤ magValue 23 8 p) :
    mag32 (f64to32 y) ≤ p ∧ isFinite32 (f64to32 y) = true ∧ neg32 (f64to32 y) = neg64 y := by
  obtain ⟨m, e, hd⟩ := finite_datum hy
  have hr : roundMag 23 8 (numOf m e) (denOf e) ≤ p := by
    refine roundMag_le (denOf_pos e) (by omega) ?_
    refine le_trans (le_of_eq ?_) h
    rw [numOf_div_denOf, value64_fin hd, abs_mul, abs_of_nonneg (mul_nonneg (Nat.cast_nonneg m) (two_zpow_pos e).le)]
    have h1 : |signOf (neg64 y)| = 1 := by cases neg64 y <;> simp [signOf]
    rw [h1, one_mul]
  rw [isFinite32_iff]
  simp only [f64to32, hd, rne32]
  rw [mag32_signed32 (by omega), neg32_signed32 (by omega)]
  exact ⟨hr, by omega, rfl⟩

/-! ## Signs, and rounding by the number alone -/

theorem getLsbD_neg64 (x : F64) : x.getLsbD 63 = neg64 x := by
  have := x.isLt
  rw [neg64, ← BitVec.testBit_toNat, Nat.testBit_eq_decide_div_mod_eq, decide_eq_decide]
  omega

theorem getLsbD_neg32 (x : F32) : x.getLsbD 31 = neg32 x := by
  have := x.isLt
  rw [neg32, ← BitVec.testBit_toNat, Nat.testBit_eq_decide_div_mod_eq, decide_eq_decide]
  omega

theorem roundMag64_le_inf (num den : ℕ) : roundMag 52 11 num den ≤ 0x7FF0000000000000 := by
  rw [roundMag_eq]; split_ifs <;> omega

theorem roundMag32_le_inf (num den : ℕ) : roundMag 23 8 num den ≤ 0x7F800000 := by
  rw [roundMag_eq]; split_ifs <;> omega

theorem neg64_rne64 (neg : Bool) (num den : ℕ) : neg64 (rne64 neg num den) = neg :=
  neg64_signed64 (by have := roundMag64_le_inf num den; omega)

theorem neg32_rne32 (neg : Bool) (num den : ℕ) : neg32 (rne32 neg num den) = neg :=
  neg32_signed32 (by have := roundMag32_le_inf num den; omega)

theorem rne64_congr {neg : Bool} {a b c d : ℕ} (hb : 0 < b) (hd : 0 < d) (h : (a : ℚ) / b = (c : ℚ) / d) :
    rne64 neg a b = rne64 neg c d := by rw [rne64, rne64, roundMag_congr hb hd h]

theorem rne32_congr {neg : Bool} {a b c d : ℕ} (hb : 0 < b) (hd : 0 < d) (h : (a : ℚ) / b = (c : ℚ) / d) :
    rne32 neg a b = rne32 neg c d := by rw [rne32, rne32, roundMag_congr hb hd h]

/-- A finite pattern has value 0 exactly if it is a zero. -/
theorem value64_eq_zero {x : F64} (hx : isFinite64 x = true) : value64 x = 0 ↔ mag64 x = 0 := by
  rw [value64_eq hx]
  have hs : signOf (neg64 x) ≠ 0 := by cases neg64 x <;> simp [signOf]
  constructor
  · intro h; exact magValue_eq_zero ((mul_eq_zero.1 h).resolve_left hs)
  · intro h; rw [h]; simp [magValue]

end Sys2Proof.Machine
end

