-- ==== Sys2Proof/Laws/PerInstr.lean ====
section
/-! SUPPORT. Laws/PerInstr.lean: statements about each instruction as syntax, one lemma per constructor. -/

namespace Sys2Proof.Laws.WordShape

/-- The word of an instruction is made of well-formed fields, whose reserved bits are 0, and reading the fields back from the word
gives them (R90, R92). -/
def Statement (i : Sys2Proof.Instr) : Prop :=
  i.wellFormed = true ∧ Sys2Proof.fieldsOf (Sys2Proof.encode i) = i.fields

theorem nop : Statement .nop := ⟨by decide, by decide⟩
theorem ptempo : Statement .ptempo := ⟨by decide, by decide⟩
theorem pchord : Statement .pchord := ⟨by decide, by decide⟩
theorem synth : Statement .synth := ⟨by decide, by decide⟩
theorem mixI : Statement .mixI := ⟨by decide, by decide⟩
theorem mixV : Statement .mixV := ⟨by decide, by decide⟩
theorem encodeM : Statement .encodeM := ⟨by decide, by decide⟩
theorem encodeV : Statement .encodeV := ⟨by decide, by decide⟩
theorem encodeI : Statement .encodeI := ⟨by decide, by decide⟩

end Sys2Proof.Laws.WordShape
end

