-- ==== Sys2Proof/Laws/Sine.lean ====
section
/-! SUPPORT. Laws/Sine.lean: what every SIN gives, said once, so that no proof about SYNTH unfolds the sine. -/

namespace Sys2Proof.Laws

open Sys2Proof.Machine

/-- Whatever the implementation and the argument: a finite pattern of magnitude at most that of 1.0, +0 at +0, and at a NaN not
negative. -/
theorem sinOf_limits (impl : Nat) (x : F64) :
    isFinite64 (sinOf impl x) = true ∧ magAtMostOne64 (sinOf impl x) = true ∧ (x = 0 → sinOf impl x = 0) ∧
    (isNaN64 x = true → (sinOf impl x).getLsbD 63 = false) := by
  have zero : isFinite64 0 = true ∧ magAtMostOne64 0 = true ∧ (0 : F64).getLsbD 63 = false := by decide
  unfold sinOf
  by_cases hx : isFinite64 x = true
  · rw [if_pos hx]
    generalize (if impl = 0 then sinCorrect x else Config.sinOther (impl - 1) x) = y
    have number : ¬isNaN64 x = true := by
      rw [isNaN64_iff]; unfold isFinite64 at hx; unfold mag64; simp only [decide_eq_true_eq] at hx; omega
    refine ⟨?_, ?_, ?_, fun h => absurd h number⟩ <;> dsimp only <;> split <;> rename_i hy
    all_goals simp_all [sinAdmissible]
    exact fun h => hy.2.resolve_left (not_not.mpr h)
  · rw [if_neg hx]
    generalize Config.sinNonFinite impl x = y
    refine ⟨?_, ?_, fun h => absurd zero.1 (h ▸ hx), fun hn => ?_⟩ <;> dsimp only <;> split <;> rename_i hy
    all_goals simp_all [sinNonFiniteOk]

end Sys2Proof.Laws
end

