-- ==== Sys2Proof/Tests/Slice0.lean ====
section
/-! SUPPORT. Tests/Slice0.lean: checks of the model against values of the spec (95_test_vectors.md, or worked by hand from the
rule named), and for every obligation with hypotheses a state and operands that meet them. -/

namespace Sys2Proof.Tests

open Sys2Proof.Machine Sys2Proof.Claim

/- The kernel evaluates these theorems: one at a time, each within the memory of one. -/
set_option Elab.async false

/-! ## Helpers -/

/-- The next state, if there is one. -/
def next? (o : Host.Outcome State Fault Refusal) : Option State :=
  match o with
  | .next t => some t
  | .fault _ => none
  | .refused _ => none

/-- TEXT and TEXT_LEN. -/
def withText (bytes : List Byte) (s : State) : State :=
  { s.writeBytes textBase bytes with textLen := BitVec.ofNat 32 bytes.length }

/-- CTAB and CHORD_COUNT. -/
def withChords (ws : List Word) (s : State) : State :=
  { s.writeBytes ctabBase (wordBytes ws) with chordCount := BitVec.ofNat 32 ws.length }

/-- VBUF and VBUF_LEN. -/
def withVocal (xs : List F32) (s : State) : State :=
  { s.writeBytes vbufBase (wordBytes xs) with vbufLen := BitVec.ofNat 32 xs.length }

/-- IBUF and IBUF_LEN. -/
def withBacking (xs : List F32) (s : State) : State :=
  { s.writeBytes ibufBase (wordBytes xs) with ibufLen := BitVec.ofNat 32 xs.length }

/-- MBUF and MBUF_LEN. -/
def withMix (xs : List F32) (s : State) : State :=
  { s.writeBytes mbufBase (wordBytes xs) with mbufLen := BitVec.ofNat 32 xs.length }

/-- The command word `w` accepted, and one step. -/
def runWord (w : Nat) (s : State) : Option State := next? (step (s.withFetchWord 32 w))

/-- One event offered, and one step. -/
def offered (e : BusEvent) (s : State) : State := { s with queue := [⟨e, false⟩] }

/-- What one event makes of a state. -/
def happen (e : BusEvent) (s : State) : Option State := next? (step (offered e s))

/-! ## Well-formedness: an ill-formed term for each check -/

theorem test_reserved_bit_is_refused : CommandFields.wellFormed ⟨0x00, 0, 1⟩ = false := by decide
theorem test_unknown_op_is_refused : CommandFields.wellFormed ⟨0x03, 0, 0⟩ = false := by decide
theorem test_nop_select_is_refused : CommandFields.wellFormed ⟨0x00, 1, 0⟩ = false := by decide
theorem test_mix_select_two_is_refused : CommandFields.wellFormed ⟨0x20, 2, 0⟩ = false := by decide
theorem test_encode_select_three_is_refused : CommandFields.wellFormed ⟨0x30, 3, 0⟩ = false := by decide
theorem test_encode_select_two_is_accepted : CommandFields.wellFormed ⟨0x30, 2, 0⟩ = true := by decide

/-- R7's bounds, and a pitch table that does not rise. -/
theorem test_illegal_parameters :
    [{ Params.default with textCap := 0 }, { Params.default with textCap := 4097 }, { Params.default with chordCap := 3 },
     { Params.default with chordCap := 1025 }, { Params.default with sampleCap := 0 },
     { Params.default with sampleCap := 4194305 },
     { Params.default with pitch := Vector.replicate 12 0x407B800000000000 }, Params.default].map Params.legal =
    [false, false, false, false, false, false, false, true] := by decide +kernel

/-! ## Decoding: words written out from R91 (bytes in address order, R62) and V-C14, V-C15 -/

theorem test_decode_nop : decodeBytes [0x00, 0x00, 0x00, 0x00] = .ok .nop := by decide
theorem test_decode_ptempo : decodeBytes [0x01, 0x00, 0x00, 0x00] = .ok .ptempo := by decide
theorem test_decode_pchord : decodeBytes [0x02, 0x00, 0x00, 0x00] = .ok .pchord := by decide
theorem test_decode_synth : decodeBytes [0x10, 0x00, 0x00, 0x00] = .ok .synth := by decide
theorem test_decode_mixI : decodeBytes [0x20, 0x00, 0x00, 0x00] = .ok .mixI := by decide
theorem test_decode_mixV : decodeBytes [0x20, 0x01, 0x00, 0x00] = .ok .mixV := by decide
theorem test_decode_encodeM : decodeBytes [0x30, 0x00, 0x00, 0x00] = .ok .encodeM := by decide
theorem test_decode_encodeV : decodeBytes [0x30, 0x01, 0x00, 0x00] = .ok .encodeV := by decide
theorem test_decode_encodeI : decodeBytes [0x30, 0x02, 0x00, 0x00] = .ok .encodeI := by decide

/-- Every constructor's word, as the table numbers its bits. -/
theorem test_table_words :
    [0x000, 0x001, 0x002, 0x010, 0x020, 0x120, 0x030, 0x130, 0x230].map (decodeTableWord 32) =
    [some .nop, some .ptempo, some .pchord, some .synth, some .mixI, some .mixV, some .encodeM, some .encodeV,
     some .encodeI] := by decide

theorem test_illegal_words :
    [0x00000100, 0x00000003, 0x00000011, 0x00000220, 0x00000420, 0x00000330, 0xFFFFFFFF].map (decodeTableWord 32) =
    List.replicate 7 none := by decide

/-- R95: one length only. -/
theorem test_other_lengths : decodeBytes [] = .error .notOneWord ∧ decodeBytes [0x10, 0x00] = .error .notOneWord ∧
    decodeBytes [0x00, 0x00, 0x00, 0x00, 0x00] = .error .notOneWord := by decide

/-! ## NOP and completion -/

/-- V-C1: from reset, NOP. -/
theorem test_nop_completes :
    (runWord 0x000 State.reset).map (fun t => (t.statusWord, t.lastCmd, t.irq)) = some (0x00000002, 0, false) := by decide

/-- V-C12, V-C13: a NOP clears ERR and ERRCODE at issue and keeps NAN. -/
theorem test_nop_keeps_the_sticky_flag :
    (runWord 0x000 { State.reset with status := { Status.clear with err := true, nan := true, errcode := 5 } }).map
      State.statusWord = some 0x0000000A := by decide

/-- V-C15: illegal words complete with ILLEGAL_CMD. -/
theorem test_illegal_word_reports :
    [0x003, 0x011, 0x220, 0x420, 0xFFFFFFFF].map (fun w => (runWord w State.reset).map State.statusWord) =
    List.replicate 5 (some 0x00000106) := by decide

/-! ## PTEMPO -/

/-- V-P10: "BPM 140-150". -/
theorem test_ptempo_first_run :
    (runWord 0x001 (withText [0x42, 0x50, 0x4D, 0x20, 0x31, 0x34, 0x30, 0x2D, 0x31, 0x35, 0x30] State.reset)).map
      (fun t => (t.bpm, t.statusWord)) = some (140, 2) := by decide +kernel

/-- V-P12 (23 digits 9) and V-P9 ("12.9"). -/
theorem test_ptempo_clamps :
    (runWord 0x001 (withText (List.replicate 23 0x39) State.reset)).map State.bpm = some 200 ∧
    (runWord 0x001 (withText [0x31, 0x32, 0x2E, 0x39] State.reset)).map State.bpm = some 60 := by decide +kernel

/-! ## PCHORD -/

/-- V-P24: "Dbm,G#m|Ebmaj9". -/
theorem test_pchord_accidentals :
    (runWord 0x002 (withText [0x44, 0x62, 0x6D, 0x2C, 0x47, 0x23, 0x6D, 0x7C, 0x45, 0x62, 0x6D, 0x61, 0x6A, 0x39]
      State.reset)).map (fun t => ((List.range 3).map t.chord, t.chordCount, t.statusWord)) =
    some ([0x11, 0x18, 0x03], 3, 2) := by decide +kernel

/-- V-P27: "cm am xC H7": all dropped, the fallback. -/
theorem test_pchord_fallback :
    (runWord 0x002 (withText [0x63, 0x6D, 0x20, 0x61, 0x6D, 0x20, 0x78, 0x43, 0x20, 0x48, 0x37] State.reset)).map
      (fun t => ((List.range 4).map t.chord, t.chordCount)) = some ([0x00, 0x07, 0x19, 0x05], 4) := by decide +kernel

/-! ## SYNTH -/

/-- The set-up of V-S2: A major at 200 BPM and 24000 Hz, 4 samples. -/
def aMajor : State := { withChords [0x09] State.reset with bpm := 200, ibufLen := 4 }

/-- V-S2. -/
theorem test_synth_samples :
    (runWord 0x010 aMajor).map (fun t => ((List.range 4).map (Wave.ibuf.sample t), t.statusWord)) =
    some ([0x00000000, 0x37C9483C, 0x38C7DF79, 0x395E3C98], 2) := by decide +kernel

/-- V-S3's samples 999 and 2000, V-S4's last attack sample and its boundary zero. -/
theorem test_synth_windows :
    synthSample { withChords [0x00] State.reset with bpm := 200, ibufSr := 2500, ibufLen := 3001 } 999 = 0x3BB720DA ∧
    synthSample { withChords [0x00] State.reset with bpm := 200, ibufSr := 2500, ibufLen := 3001 } 2000 = 0xBE228154 ∧
    synthSample { withChords [0x00, 0x07] State.reset with bpm := 200, ibufSr := 1000, ibufLen := 1201 } 1199 = 0xBDC2FC7E ∧
    synthSample { withChords [0x00, 0x07] State.reset with bpm := 200, ibufSr := 1000, ibufLen := 1201 } 1200 = 0 := by
  decide +kernel

/-! ## MIX -/

/-- V-M20. -/
theorem test_mixI_samples :
    (runWord 0x020 (withVocal [0x3F000000, 0xBF400000, 0x3E800000] (withBacking [0x3F400000, 0xBF000000] State.reset))).map
      (fun t => ((List.range 3).map (Wave.mbuf.sample t), t.mbufLen, t.mbufSr, t.statusWord)) =
    some ([0x3F800000, 0xBF800000, 0x3E800000], 3, 24000, 2) := by decide +kernel

/-- V-M10: infinity less infinity is replaced by +0.0 and noted. -/
theorem test_mixI_nan :
    (runWord 0x020 (withVocal [0x7F800000] (withBacking [0xFF800000] State.reset))).map
      (fun t => (Wave.mbuf.sample t 0, t.statusWord)) = some (0, 0x0000000A) := by decide +kernel

/-- V-M5 and V-M13: MIX V with gains 1.0 and +0.0 keeps -0.0, and notes an infinity. -/
theorem test_mixV_samples :
    (runWord 0x120 { withVocal [0x80000000, 0x7F800000] State.reset with gainI := 0 }).map
      (fun t => ((List.range 2).map (Wave.mbuf.sample t), t.statusWord)) = some ([0x80000000, 0], 0x0000000A) := by
  decide +kernel

/-- V-M23 and V-M24: only MIX I looks at IBUF_SR. -/
theorem test_mix_rates :
    (runWord 0x020 { State.reset with ibufSr := 22050 }).map State.statusWord = some 0x00000506 ∧
    (runWord 0x120 { State.reset with ibufSr := 22050 }).map State.statusWord = some 0x00000002 := by decide +kernel

/-! ## ENCODE -/

/-- V-E40, with the header V-E30. -/
theorem test_encodeM_stream :
    (runWord 0x030 (withMix [0x3F800000, 0xBF800000, 0x3E800000] State.reset)).map
      (fun t => (t.bytesAt wbufBase 50, t.wavLen, t.statusWord)) =
    some ([0x52, 0x49, 0x46, 0x46, 0x2A, 0x00, 0x00, 0x00, 0x57, 0x41, 0x56, 0x45, 0x66, 0x6D, 0x74, 0x20,
           0x10, 0x00, 0x00, 0x00, 0x01, 0x00, 0x01, 0x00, 0xC0, 0x5D, 0x00, 0x00, 0x80, 0xBB, 0x00, 0x00,
           0x02, 0x00, 0x10, 0x00, 0x64, 0x61, 0x74, 0x61, 0x06, 0x00, 0x00, 0x00,
           0xFF, 0x7F, 0x00, 0x80, 0x00, 0x20], 50, 2) := by decide +kernel

/-- V-E45: the payload, WAV_LEN and NAN. -/
theorem test_encodeV_nan :
    (runWord 0x130 (withVocal [0x7FC00000, 0x3F000000] State.reset)).map
      (fun t => (t.bytesAt (wbufBase + 44) 4, t.wavLen, t.statusWord)) =
    some ([0x00, 0x00, 0x00, 0x40], 48, 0x0000000A) := by decide +kernel

/-- V-E46: the payload of V-S2's samples. -/
theorem test_encodeI_payload :
    (runWord 0x230 (withBacking [0x00000000, 0x37C9483C, 0x38C7DF79, 0x395E3C98] State.reset)).map
      (fun t => (t.bytesAt (wbufBase + 44) 8, t.wavLen)) =
    some ([0x00, 0x00, 0x01, 0x00, 0x03, 0x00, 0x07, 0x00], 52) := by decide +kernel

/-- V-E9 to V-E16: ties away from zero, and the clamp. -/
theorem test_quantizer :
    [0x37800000, 0xB7800000, 0x38400000, 0x38A00000, 0xB8A00000, 0x377FFFFF, 0x3F7FFF00, 0xBF7FFF00].map quantize =
    [1, -1, 2, 3, -3, 0, 32767, -32768] := by decide +kernel

/-- V-E41 to V-E44: the order of ENCODE's checks. -/
theorem test_encode_errors :
    (runWord 0x030 State.reset).map State.statusWord = some 0x00000306 ∧
    (runWord 0x030 { State.reset with mbufLen := 3, mbufSr := 0 }).map State.statusWord = some 0x00000406 ∧
    (runWord 0x030 { State.reset with mbufLen := 4194305, mbufSr := 0 }).map State.statusWord = some 0x00000206 := by
  decide +kernel

/-! ## The bus -/

/-- V-B10, V-B11, V-B12: BPM is WARL. -/
theorem test_bpm_write :
    [500, 0, 0xFFFFFFFF].map (fun v => (happen (.write 0x014 .four v) State.reset).map State.bpm) =
    [some 200, some 60, some 200] := by decide

/-- V-B1: byte and halfword reads of a sample. -/
theorem test_read_sizes :
    [(0x01000003, AccessSize.one), (0x01000000, .one), (0x01000002, .two)].map (fun p =>
      (happen (.read p.1 p.2) (withVocal [0x3F800000] State.reset)).map State.busReads) =
    [some [0x3F], some [0x00], some [0x3F80]] := by decide +kernel

/-- V-B2, V-B3, V-B7: refused reads. -/
theorem test_refused_reads :
    [(0x00001002, AccessSize.four), (0x008, .two), (0x05000000, .four)].map (fun p =>
      (happen (.read p.1 p.2) State.reset).map (fun t => (t.busReads, t.statusWord))) =
    List.replicate 3 (some ([0], 0x00000040)) := by decide +kernel

/-- V-B4, V-B8, V-B9: refused writes. -/
theorem test_refused_writes :
    [(0x00003000, AccessSize.four), (0x00001400, .one), (0x04000000, .one)].map (fun p =>
      (happen (.write p.1 p.2 0) State.reset).map (fun t => (t.mem, t.statusWord))) =
    List.replicate 3 (some ([], 0x00000040)) := by decide +kernel

/-- V-C5 to V-C9: writes while BUSY. -/
theorem test_busy_writes :
    [BusEvent.write 0x00C .four 0x20, .write 0x014 .four 100, .write 0x01000000 .four 0x3F800000, .write 0x000 .four 0].map
      (fun e => (happen e (issue 0x10 State.reset)).map (fun t => (t.statusWord, t.lastCmd, t.bpm))) =
    [some (0x11, 0x10, 120), some (0x21, 0x10, 120), some (0x21, 0x10, 120), some (0x21, 0x10, 120)] := by decide +kernel

/-- V-C10: writes while IDLE to a read-only register and a reserved offset. -/
theorem test_idle_ignored_writes :
    [(0x000 : Word), 0x03C, 0x048, 0x04C, 0xFFC].map (fun a => happen (.write a .four 0xFFFFFFFF) State.reset) =
    List.replicate 5 (some State.reset) := by decide +kernel

/-- V-C11: STATUS = 0x506, a write of 2. -/
theorem test_status_write :
    (happen (.write 0x008 .four 2) { State.reset with status := { Status.clear with done := true, err := true, errcode := 5 } }).map
      State.statusWord = some 0x00000504 := by decide

/-- V-B14: only IE is stored. -/
theorem test_ctrl_write :
    (happen (.write 0x004 .four 0xFFFFFFFD) State.reset).map State.ctrlWord = some 1 := by decide

/-- R263: a soft reset abandons SYNTH, with IE written 1 beside it (R23). -/
theorem test_soft_reset :
    (happen (.write 0x004 .four 3) (issue 0x10 { aMajor with ctrlIE := true })).map
      (fun t => (t.eng, t.ctrlIE, t.bpm, t.statusWord, t.chord 0)) = some (none, false, 120, 0, 9) := by decide +kernel

/-! ## Witnesses: the hypotheses of each obligation, met

One theorem for each obligation that has hypotheses, in the order of Obligations.lean. -/

/-- The event `e` is next, and nothing else is offered. -/
theorem offers_offered (e : BusEvent) (s : State) : offers (offered e s) e [] := ⟨false, rfl, .inr rfl⟩

theorem witness_DecodeIsTheOpcodeMap :
    ([0x00000003, 0x00000330, 0x00000400, 0xFFFFFFFF] : List Word).all (fun w =>
      decide (w ∉ ([0x00000000, 0x00000001, 0x00000002, 0x00000010, 0x00000020, 0x00000120, 0x00000030, 0x00000130,
        0x00000230] : List Word))) = true := by decide

theorem witness_IllegalWordsAreTheListedOnes :
    State.reset.eng = none ∧ decodeWord 0x00000003 = .error .unknownOp ∧ decodeWord 0x00000400 = .error .reservedBits ∧
    decodeWord 0x00000100 = .error .illegalSelect ∧ decodeWord 0x00000220 = .error .illegalSelect ∧
    decodeWord 0x00000330 = .error .illegalSelect := by decide

theorem witness_StepRunsTheDecodedCommand :
    (completes (State.reset.withFetchWord 32 0x10) 0x10 ∧ decodeWord 0x10 = .ok .synth) ∧ 0x10 < 2 ^ 32 := by
  unfold completes; decide

theorem witness_StepCompletesAnIllegalWord :
    (completes (State.reset.withFetchWord 32 0x3) 0x3 ∧ decodeWord 0x3 = .error .unknownOp) ∧
    completes (State.reset.withFetchWord 32 0x330) 0x330 := by unfold completes; decide

theorem witness_EveryCommandEnds : (offered (.read 0x008 .four) (issue 0x20 State.reset)).eng = some 0x20 := by decide

theorem witness_IdleCmdWriteIsAccepted :
    (offered (.write 0x00C .four 0x10) State.reset).eng = none ∧
    offers (offered (.write 0x00C .four 0x10) State.reset) (.write 0x00C .four 0x10) [] := ⟨rfl, offers_offered _ _⟩

theorem witness_BusyCmdWriteIsDropped :
    (offered (.write 0x00C .four 0x20) (issue 0x10 State.reset)).eng = some 0x10 ∧
    offers (offered (.write 0x00C .four 0x20) (issue 0x10 State.reset)) (.write 0x00C .four 0x20) [] :=
  ⟨rfl, offers_offered _ _⟩

theorem witness_FailedCommandChangesOnlyStatus :
    (next? (exec .synth State.reset)).map (fun t => t.status.err) = some true := by decide +kernel

theorem witness_CommandsWriteOnlyTheirOutputs : (next? (exec .synth aMajor)).isSome = true := by decide +kernel

/-- " C, G" and " C, G ": with and without a last run. -/
theorem witness_TokensAreTheMaximalRuns :
    (∀ b ∈ ([0x20] : List Byte), isDelimiter b = true) ∧ (∀ b ∈ ([0x47] : List Byte), isDelimiter b = false) ∧
    (∀ b ∈ ([] : List Byte), isDelimiter b = false) ∧
    (∀ p ∈ [(([0x43] : List Byte), ([0x2C, 0x20] : List Byte))],
      p.1 ≠ [] ∧ (∀ b ∈ p.1, isDelimiter b = false) ∧ p.2 ≠ [] ∧ (∀ b ∈ p.2, isDelimiter b = true)) := by decide

theorem witness_RootIsTheClassOfTheCandidateName :
    ((candidateName [0x42, 0x62, 0x6D], 10) ∈ alias17) ∧ tokenRoot [0x43, 0x62] = none ∧ tokenRoot [] = none := by decide

theorem witness_FallbackWhenNoTokenHasARoot :
    (∀ t ∈ tokens [0x63, 0x20, 0x48], tokenRoot t = none) ∧ (∃ t ∈ tokens [0x63, 0x20, 0x47], tokenRoot t ≠ none) := by decide

/-- "x120y" in TEXT. -/
def tempoText : State := withText [0x78, 0x31, 0x32, 0x30, 0x79] State.reset

theorem witness_PtempoReadsTheFirstDigitRun :
    tempoText.textLen.toNat ≤ tempoText.params.textCap ∧
    tempoText.text = ([0x78] : List Byte) ++ [0x31, 0x32, 0x30] ++ [0x79] ∧
    (∀ b ∈ ([0x78] : List Byte), ¬(0x30 ≤ b.toNat ∧ b.toNat ≤ 0x39)) ∧ ([0x31, 0x32, 0x30] : List Byte) ≠ [] ∧
    (∀ b ∈ ([0x31, 0x32, 0x30] : List Byte), 0x30 ≤ b.toNat ∧ b.toNat ≤ 0x39) ∧
    (∀ b, ([0x79] : List Byte).head? = some b → ¬(0x30 ≤ b.toNat ∧ b.toNat ≤ 0x39)) := by
  refine ⟨by decide, by decide, by decide, by decide, by decide, fun b h => ?_⟩
  cases h
  decide

theorem witness_PtempoDefaultsTo120 :
    (withText [0x78] State.reset).textLen.toNat ≤ (withText [0x78] State.reset).params.textCap ∧
    (∀ b ∈ (withText [0x78] State.reset).text, ¬(0x30 ≤ b.toNat ∧ b.toNat ≤ 0x39)) ∧
    (∀ b ∈ State.reset.text, ¬(0x30 ≤ b.toNat ∧ b.toNat ≤ 0x39)) := by decide

/-- The same text, whose digit run "120" splits before its last digit; and 23 digits, where the exact number leaves 2^12 far behind. -/
theorem witness_SaturatingTempoAgrees :
    tempoText.textLen.toNat ≤ tempoText.params.textCap ∧
    tempoText.text = ([0x78] : List Byte) ++ [0x31, 0x32, 0x30] ++ [0x79] ∧
    (∀ b ∈ ([0x78] : List Byte), ¬(0x30 ≤ b.toNat ∧ b.toNat ≤ 0x39)) ∧ ([0x31, 0x32, 0x30] : List Byte) ≠ [] ∧
    (∀ b ∈ ([0x31, 0x32, 0x30] : List Byte), 0x30 ≤ b.toNat ∧ b.toNat ≤ 0x39) ∧
    (∀ b, ([0x79] : List Byte).head? = some b → ¬(0x30 ≤ b.toNat ∧ b.toNat ≤ 0x39)) ∧
    ([0x31, 0x32, 0x30] : List Byte) = [0x31, 0x32] ++ 0x30 :: [] ∧
    (withText (List.replicate 23 0x39) State.reset).text = [] ++ List.replicate 23 0x39 ++ [] :=
  ⟨witness_PtempoReadsTheFirstDigitRun.1, witness_PtempoReadsTheFirstDigitRun.2.1, by decide, by decide, by decide,
    witness_PtempoReadsTheFirstDigitRun.2.2.2.2.2, rfl, by decide +kernel⟩

/-- The smallest legal chord table. -/
def fourChords : Params := { Params.default with chordCap := 4 }

/-- Tokens with a root, "Bm" and "C", and a text whose sequence, the fallback's four chords, just fits. -/
theorem witness_PchordWritesTheSequence :
    (tokenRoot [0x42, 0x6D] = some 11 ∧ tokenMinor [0x42, 0x6D] = true) ∧
    (tokenRoot [0x43] = some 0 ∧ tokenMinor [0x43] = false) ∧
    { State.reset with params := fourChords }.params.legal = true ∧
    { State.reset with params := fourChords }.textLen.toNat ≤ { State.reset with params := fourChords }.params.textCap ∧
    (chordSequence { State.reset with params := fourChords }.text).length ≤
      { State.reset with params := fourChords }.params.chordCap := by decide

/-- "C C C C C" with four entries. -/
def fiveChords : State := { withText [0x43, 0x20, 0x43, 0x20, 0x43, 0x20, 0x43, 0x20, 0x43] State.reset with params := fourChords }

theorem witness_ParseCommandsReportErrors :
    { State.reset with textLen := 1025 }.params.textCap < { State.reset with textLen := 1025 }.textLen.toNat ∧
    fiveChords.textLen.toNat ≤ fiveChords.params.textCap ∧
    fiveChords.params.chordCap < (chordSequence fiveChords.text).length := by decide +kernel

theorem witness_SamplesPerChordIsTheFloor : ∀ p ∈ [(1, 200), (1, 60), (2 ^ 31 - 1, 60), (2 ^ 31 - 1, 200)],
    1 ≤ p.1 ∧ p.1 ≤ 2 ^ 31 - 1 ∧ 60 ≤ p.2 ∧ p.2 ≤ 200 := by decide

/-- Each case at its edges. -/
theorem witness_EnvelopeHasThreeCases :
    (∀ c ∈ [(0, 1), (1999, 2000), (1999, 4001)], c.1 < c.2 ∧ c.1 < 2000) ∧
    (∀ c ∈ [(2000, 2001), (2000, 4000), (2001, 4001), (4000, 4001)], c.1 < c.2 ∧ 2000 ≤ c.1 ∧ c.2 - 2000 ≤ c.1) ∧
    (2000 < 4001 ∧ 2000 ≤ 2000 ∧ 2000 < 4001 - 2000) := by decide

/-- The NaN of an overflowed phase at time 0. -/
theorem witness_EverySineIsAdmissible : isNaN64 (mul64 0x7FF0000000000000 0) = true := by decide +kernel

/-- A minor on B, the largest legal entry, at the lowest and the highest rate. -/
def bMinor (rate : Word) : State := { withChords [0x1B] State.reset with ibufLen := 1, ibufSr := rate }

theorem bMinor_ok : synthOperandsOk (bMinor 1) ∧ synthOperandsOk (bMinor 0x7FFFFFFF) := by
  unfold synthOperandsOk legalRate; decide +kernel

theorem witness_SynthWritesTheFormula : synthOperandsOk (bMinor 1) ∧ synthOperandsOk aMajor :=
  ⟨bMinor_ok.1, by unfold synthOperandsOk legalRate; decide +kernel⟩

/-- The invariant holds of an idle state whose written bytes lie in CTAB and whose registers are as after reset. -/
theorem bMinor_inv (rate : Word) : (bMinor rate).Inv where
  params := by have h : Params.default.legal = true := by decide +kernel
               exact h
  memory := by have h : Memory.wf (bMinor 1).mem = true := by decide
               exact h
  populated := by have h : ∀ c ∈ (bMinor 1).mem, ramAddress (bMinor 1).params c.1 = true := by decide +kernel
                  exact h
  tempo := by have h : 60 ≤ (120 : Word).toNat ∧ (120 : Word).toNat ≤ 200 := by decide
              exact h
  inFlight := by intro w h; cases h
  error := by intro h; cases h
  code := by have h : (0 : Byte).toNat ≤ 8 := by decide
             exact h
  stream := .inl rfl
  drawn := Nat.zero_lt_one

/-- A legal pitch table so high that every frequency overflows. -/
def hugePitch : Params := { Params.default with pitch :=
  #v[0x7FEFFFFFFFFFFFF0, 0x7FEFFFFFFFFFFFF1, 0x7FEFFFFFFFFFFFF2, 0x7FEFFFFFFFFFFFF3, 0x7FEFFFFFFFFFFFF4, 0x7FEFFFFFFFFFFFF5,
     0x7FEFFFFFFFFFFFF6, 0x7FEFFFFFFFFFFFF7, 0x7FEFFFFFFFFFFFF8, 0x7FEFFFFFFFFFFFF9, 0x7FEFFFFFFFFFFFFA, 0x7FEFFFFFFFFFFFFB] }

theorem bMinor_huge_ok : synthOperandsOk { bMinor 1 with params := hugePitch } := by
  unfold synthOperandsOk legalRate; decide +kernel

theorem witness_SynthSamplesStayBelowHalf :
    synthOperandsOk (bMinor 1) ∧ synthOperandsOk { bMinor 1 with params := hugePitch } := ⟨bMinor_ok.1, bMinor_huge_ok⟩

/-- At the boundary sample 0 too, with the default table and with the highest. -/
theorem witness_SynthBoundariesAreZero :
    ((bMinor 0x7FFFFFFF).params.legal = true ∧ synthOperandsOk (bMinor 0x7FFFFFFF) ∧
      0 < (bMinor 0x7FFFFFFF).ibufLen.toNat ∧
      0 % (240 * (bMinor 0x7FFFFFFF).ibufSr.toNat / (bMinor 0x7FFFFFFF).bpm.toNat) = 0) ∧
    hugePitch.legal = true ∧ synthOperandsOk { bMinor 1 with params := hugePitch } :=
  ⟨⟨by decide +kernel, bMinor_ok.2, by decide, by decide⟩, by decide +kernel, bMinor_huge_ok⟩

/-- Two states that differ in what SYNTH does not read. -/
theorem witness_SynthDependsOnItsOperandsAlone :
    { aMajor with wavLen := 46 }.ibufLen = aMajor.ibufLen ∧ { aMajor with wavLen := 46 }.ibufSr = aMajor.ibufSr ∧
    { aMajor with wavLen := 46 }.bpm = aMajor.bpm ∧ { aMajor with wavLen := 46 }.chordCount = aMajor.chordCount ∧
    { aMajor with wavLen := 46 }.params = aMajor.params ∧
    (∀ k, k < aMajor.chordCount.toNat →
      { aMajor with wavLen := 46 }.wordAt (0x00002000 + 4 * k) = aMajor.wordAt (0x00002000 + 4 * k)) ∧
    (next? (exec .synth aMajor)).map (fun t => t.status.errcode) = some 0 :=
  ⟨rfl, rfl, rfl, rfl, rfl, fun _ _ => rfl, by decide +kernel⟩

/-- Lengths at 0 and at the capacity. -/
theorem witness_MixWritesTheLimitedSums :
    (State.reset.vbufLen.toNat ≤ State.reset.params.sampleCap ∧ legalRate State.reset.vbufSr ∧
      State.reset.ibufLen.toNat ≤ State.reset.params.sampleCap ∧ State.reset.ibufSr = State.reset.vbufSr) ∧
    { State.reset with vbufLen := 4194304 }.vbufLen.toNat ≤ { State.reset with vbufLen := 4194304 }.params.sampleCap := by
  unfold legalRate; decide

theorem witness_MixReportsTheFirstError :
    State.reset.params.sampleCap < ({ State.reset with vbufLen := 4194305 }).vbufLen.toNat ∧
    State.reset.params.sampleCap < ({ State.reset with ibufLen := 4194305 }).ibufLen.toNat ∧
    ¬legalRate ({ State.reset with vbufSr := 0 }).vbufSr ∧ ¬legalRate ({ State.reset with ibufSr := 0x80000000 }).ibufSr ∧
    legalRate ({ State.reset with ibufSr := 1 }).ibufSr ∧
    ({ State.reset with ibufSr := 1 }).vbufSr ≠ ({ State.reset with ibufSr := 1 }).ibufSr ∧
    legalRate State.reset.vbufSr ∧ State.reset.vbufLen.toNat ≤ State.reset.params.sampleCap := by
  unfold legalRate; decide

/-- The numbers next below -1, next above 1, the bounds themselves, and -0.0. -/
theorem witness_LimiterClampsToOne :
    ([0xFFF0000000000000, 0x7FF0000000000000, 0xBFF0000000000001, 0x3FF0000000000001, 0x3FF0000000000000,
      0xBFF0000000000000, 0x8000000000000000] : List F64).any isNaN64 = false ∧
    (isFinite64 0xBFF0000000000001 = true ∧ value64 0xBFF0000000000001 < -1) ∧
    (isFinite64 0x3FF0000000000001 = true ∧ 1 < value64 0x3FF0000000000001) ∧
    ([0x3FF0000000000000, 0xBFF0000000000000, 0x8000000000000000] : List F64).all (fun x =>
      isFinite64 x && decide (-1 ≤ value64 x) && decide (value64 x ≤ 1)) = true := by decide +kernel

theorem witness_MixedSamplesLieInRange :
    (next? (exec .mixI (withVocal [0x7FC00000] State.reset))).map (fun t => t.status.err) = some false ∧
    (next? (exec .mixV (withVocal [0x7F800000] State.reset))).map (fun t => t.status.err) = some false := by decide +kernel

/-- The bounds and both zeros. -/
def unitVocal : State := { withVocal [0x3F800000, 0xBF800000, 0x80000000, 0x00000000] State.reset with gainI := 0 }

theorem witness_SelfMixIsTheIdentity :
    unitVocal.vbufLen.toNat ≤ unitVocal.params.sampleCap ∧ legalRate unitVocal.vbufSr ∧ unitVocal.gainV = 0x3F800000 ∧
    unitVocal.gainI = 0x00000000 ∧
    (∀ i, i < unitVocal.vbufLen.toNat → (unitVocal.wordAt (0x01000000 + 4 * i)).toNat % 2 ^ 31 ≤ 0x3F800000) := by
  unfold legalRate; decide +kernel

theorem witness_ScalingIsExact :
    isFinite32 0x00000001 = true ∧ isFinite32 0xFF7FFFFF = true ∧ isNaN32 0x7FC00000 = true ∧ isNaN32 0xFF800001 = true := by
  decide

theorem witness_QuantizerRoundsHalfAway :
    (isFinite64 0x3FE0000000000000 = true ∧ 0 ≤ value64 0x3FE0000000000000) ∧
    (isFinite64 0x8000000000000000 = true ∧ 0 ≤ value64 0x8000000000000000) ∧
    (isFinite64 0xBFE0000000000000 = true ∧ value64 0xBFE0000000000000 < 0) ∧ isNaN64 0x7FF8000000000000 = true := by
  decide +kernel

theorem witness_QuantizerRoundTrip :
    ([0x3F800000, 0xBF800000, 0x80000000] : List F32).all (fun x =>
      isFinite32 x && decide (-1 ≤ value32 x) && decide (value32 x ≤ 1)) = true := by decide +kernel

/-- One sample and the highest rate. -/
def oneSample : State :=
  { State.reset with mbufLen := 1, vbufLen := 1, ibufLen := 1, mbufSr := 0x7FFFFFFF, vbufSr := 1, ibufSr := 24000 }

theorem witness_EncodeWritesTheStream :
    oneSample.params.legal = true ∧ encodeOperandsOk oneSample oneSample.mbufLen oneSample.mbufSr ∧
    encodeOperandsOk oneSample oneSample.vbufLen oneSample.vbufSr ∧
    encodeOperandsOk oneSample oneSample.ibufLen oneSample.ibufSr := by
  unfold encodeOperandsOk legalRate; decide +kernel

theorem witness_EncodeReportsTheFirstError :
    (Instr.encodeV, State.reset.vbufLen, State.reset.vbufSr) ∈
      [(Instr.encodeM, State.reset.mbufLen, State.reset.mbufSr), (Instr.encodeV, State.reset.vbufLen, State.reset.vbufSr),
       (Instr.encodeI, State.reset.ibufLen, State.reset.ibufSr)] ∧
    State.reset.params.sampleCap < (4194305 : Word).toNat ∧
    (State.reset.vbufLen.toNat ≤ State.reset.params.sampleCap ∧ State.reset.vbufLen.toNat = 0) ∧
    ((4194304 : Word).toNat ≤ State.reset.params.sampleCap ∧ (4194304 : Word).toNat ≠ 0 ∧ ¬legalRate 0 ∧
      ¬legalRate 0x80000000) := by unfold legalRate; decide

/-- A third, and a tie between 1 and its successor; zero, the numbers next below the two overflow thresholds, the thresholds
themselves; for each operation operands of each of its clauses. -/
theorem witness_RoundingIsToNearestEven :
    (0 < 3 ∧ isFinite64 0x3FD5555555555556 = true) ∧
    (isFinite64 0x3FF0000000000001 = true ∧
      value64 0x3FF0000000000001 ≠ value64 (rne64 false (2 ^ 53 + 1) (2 ^ 53)) ∧
      |value64 (rne64 false (2 ^ 53 + 1) (2 ^ 53)) - ((2 ^ 53 + 1 : Nat) : ℚ) / (2 ^ 53 : Nat)| =
        |value64 0x3FF0000000000001 - ((2 ^ 53 + 1 : Nat) : ℚ) / (2 ^ 53 : Nat)|) ∧
    ((((2 ^ 54 - 1) * 2 ^ 970 - 1 : Nat) : ℚ) / (1 : Nat) < (2 ^ 54 - 1) * 2 ^ 970 ∧
      (2 ^ 54 - 1) * 2 ^ 970 ≤ (((2 ^ 54 - 1) * 2 ^ 970 : Nat) : ℚ) / (1 : Nat)) ∧
    ((((2 ^ 25 - 1) * 2 ^ 103 - 1 : Nat) : ℚ) / (1 : Nat) < (2 ^ 25 - 1) * 2 ^ 103 ∧
      (2 ^ 25 - 1) * 2 ^ 103 ≤ (((2 ^ 25 - 1) * 2 ^ 103 : Nat) : ℚ) / (1 : Nat)) ∧
    (isFinite64 0x3FF0000000000000 = true ∧ ((1 : Nat) : ℚ) / (1 : Nat) = |value64 0x3FF0000000000000|) ∧
    (value64 0x8000000000000000 + value64 0x8000000000000000 = 0 ∧
      value64 0x3FF0000000000000 + value64 0xC000000000000000 ≠ 0 ∧
      ((1 : Nat) : ℚ) / (1 : Nat) = |value64 0x3FF0000000000000 + value64 0xC000000000000000|) ∧
    ((2 : Nat) : ℚ) / (1 : Nat) = |value64 0x3FF0000000000000 * value64 0xC000000000000000| ∧
    (value64 0xC000000000000000 ≠ 0 ∧
      ((1 : Nat) : ℚ) / (2 : Nat) = |value64 0x3FF0000000000000 / value64 0xC000000000000000|) ∧
    isNaN64 0x7FF8000000000000 = true := by decide +kernel

/-- An infinity of each sign, a zero, and a number that is neither. -/
theorem witness_RoundingIsToNearestEven_specials :
    isInf64 0x7FF0000000000000 ∧ isInf64 0xFFF0000000000000 ∧ isZero64 0x8000000000000000 ∧
    ¬isZero64 0x3FF0000000000000 ∧ isNaN64 0x3FF0000000000000 = false ∧ isFinite64 0x3FF0000000000000 = true := by
  unfold isInf64 isZero64; decide

theorem witness_WideningIsExact : isFinite32 0x80000001 = true ∧ isFinite32 0x7F7FFFFF = true ∧
    isNaN32 0x7F7FFFFF = false ∧ isNaN32 0x7F800000 = false := by decide

theorem witness_SampleProductsAreExact : isFinite32 0x7F7FFFFF = true ∧ isFinite32 0x00000001 = true := by decide

/-- A misaligned word, a halfword of a register, the first byte past TEXT, an unmapped word; a write to PITCH and to WBUF. -/
theorem witness_RefusedAccessOnlySetsAddrErr :
    State.reset.params.legal = true ∧
    (∀ p ∈ [(0x1002, 4), (0x008, 2), (0x1400, 1), (0x0FFF, 1), (0x05000000, 4), (0x3060, 4), (0xFFFFFFFC, 4)],
      refused State.reset.params false p.1 p.2) ∧
    (∀ p ∈ [(0x3000, 4), (0x305C, 4), (0x04000000, 1), (0x04FFFFFF, 1)], refused State.reset.params true p.1 p.2) ∧
    offers (offered (.read 0x1002 .four) State.reset) (.read 0x1002 .four) [] ∧
    offers (offered (.write 0x3000 .four 0) State.reset) (.write 0x3000 .four 0) [] := by
  refine ⟨by decide +kernel, ?_, ?_, offers_offered _ _, offers_offered _ _⟩ <;>
    (unfold refused populated; decide +kernel)

/-- A register, the two that are written, CMD, a reserved offset, the last word of VBUF, the last byte of TEXT. -/
theorem witness_BusyWritesAreDropped :
    State.reset.params.legal = true ∧ (issue 0x10 State.reset).eng = some 0x10 ∧
    (∀ p ∈ [(0x000, 4), (0x004, 4), (0x008, 4), (0x00C, 4), (0x04C, 4), (0xFFC, 4), (0x01FFFFFC, 4), (0x13FF, 1)],
      ¬refused State.reset.params true p.1 p.2) ∧
    offers (offered (.write 0x13FF .one 0) (issue 0x10 State.reset)) (.write 0x13FF .one 0) [] := by
  refine ⟨by decide +kernel, rfl, ?_, offers_offered _ _⟩
  unfold refused populated; decide +kernel

theorem witness_BpmWriteIsClamped :
    (offered (.write 0x014 .four 500) State.reset).eng = none ∧
    offers (offered (.write 0x014 .four 500) State.reset) (.write 0x014 .four 500) [] ∧
    State.reset.textLen.toNat ≤ State.reset.params.textCap := ⟨rfl, offers_offered _ _, by decide⟩

/-- A write and then a read of the same place. -/
def writeThenRead (a : Word) (size : AccessSize) (v : Word) : State :=
  { State.reset with queue := [promptly (.write a size v), promptly (.read a size)] }

/-- A plain register, a read-only one, the first and the last reserved offset. -/
theorem witness_PlainRegistersReadBack :
    ((writeThenRead 0x010 .four 7).eng = none ∧
      (0x00000010 : Word) ∈ ([0x00000010, 0x00000018, 0x0000001C, 0x00000020, 0x00000024, 0x00000028, 0x0000002C, 0x00000030,
        0x00000034, 0x00000038] : List Word) ∧ regAddr .mbufSr ≠ 0x10 ∧
      offers (writeThenRead 0x010 .four 7) (.write 0x010 .four 7) [promptly (.read 0x010 .four)]) ∧
    (0x0000003C : Word) ∈ ([0x00000000, 0x0000003C, 0x00000040, 0x00000044, 0x00000048] : List Word) ∧
    (∀ a ∈ [(0x4C : Nat), 0xFFC], 0x4C ≤ a ∧ a ≤ 0xFFC ∧ a % 4 = 0) ∧
    (∀ a : Word, (offered (.write a .four 7) State.reset).eng = none ∧
      offers (offered (.write a .four 7) State.reset) (.write a .four 7) []) :=
  ⟨⟨rfl, by decide, by decide, false, rfl, .inr rfl⟩, by decide, by decide, fun _ => ⟨rfl, offers_offered _ _⟩⟩

/-- The first byte of TEXT and the last halfword of CTAB. -/
theorem witness_MemoryWriteThenRead :
    State.reset.params.legal = true ∧ (writeThenRead 0x1000 .one 7).eng = none ∧
    (∀ p ∈ [(0x1000, 1), (0x23FE, 2)], 0x1000 ≤ p.1 ∧ ¬refused State.reset.params true p.1 p.2) ∧
    offers (writeThenRead 0x1000 .one 7) (.write 0x1000 .one 7) [promptly (.read 0x1000 .one)] := by
  refine ⟨by decide +kernel, rfl, ?_, false, rfl, .inr rfl⟩
  unfold refused populated; decide +kernel

/-- A byte outside the running command's output range, a register, and a reserved offset; WBUF's last byte while IDLE. -/
theorem witness_ReadsAnswerAndChangeNothing :
    State.reset.params.legal = true ∧
    (∀ p ∈ [(0x3000, 4), (0x008, 4), (0x04C, 4), (0xFFC, 4), (0x0480002B, 1)], ¬refused State.reset.params false p.1 p.2) ∧
    (∀ k, k < 4 → (issue 0x10 aMajor).inFlight (0x3000 + k) = false) ∧ (0x00000008 : Word) = regAddr .status ∧
    offers (offered (.read 0x3000 .four) (issue 0x10 aMajor)) (.read 0x3000 .four) [] := by
  refine ⟨by decide +kernel, ?_, by decide +kernel, by decide, offers_offered _ _⟩
  unfold refused populated; decide +kernel

theorem witness_PitchWindowReadsTheTable :
    0 < 12 ∧ 11 < 12 ∧ State.reset.params.pitch.toList.getD 9 0 = 0x407B800000000000 := by decide

theorem witness_StatusWriteClearsOnes :
    offers (offered (.write 0x008 .four 0x7E) State.reset) (.write 0x008 .four 0x7E) [] ∧ 0 < 32 ∧ 31 < 32 :=
  ⟨offers_offered _ _, by decide, by decide⟩

theorem witness_CtrlWriteSetsIeOrResets :
    offers (offered (.write 0x004 .four 3) State.reset) (.write 0x004 .four 3) [] ∧ (3 : Word).getLsbD 1 = true ∧
    offers (offered (.write 0x004 .four 1) State.reset) (.write 0x004 .four 1) [] ∧ (1 : Word).getLsbD 1 = false :=
  ⟨offers_offered _ _, by decide, offers_offered _ _, by decide⟩

theorem witness_SoftResetAbandonsTheCommand :
    (2 : Word).getLsbD 1 = true ∧
    (∀ s ∈ [State.reset, issue 0x10 aMajor, issue 0x3 aMajor],
      offers (offered (.write 0x004 .four 2) s) (.write 0x004 .four 2) []) ∧
    State.reset.eng = none ∧ ((issue 0x10 aMajor).eng = some 0x10 ∧ decodeWord 0x10 = .ok .synth) ∧
    ((issue 0x3 aMajor).eng = some 0x3 ∧ decodeWord 0x3 = .error .unknownOp) :=
  ⟨by decide, fun s _ => offers_offered _ s, rfl, ⟨rfl, by decide⟩, rfl, by decide⟩

theorem witness_PowerOnResetsEverything : offers (offered .powerOn aMajor) .powerOn [] := offers_offered _ _

theorem witness_StepKeepsTheInvariant : (bMinor 24000).Inv ∧ ∃ t, step (bMinor 24000) = .next t := ⟨bMinor_inv _, _, rfl⟩

theorem witness_ResultDependsOnAcceptanceAlone :
    (issue 0x10 aMajor).eng = some 0x10 ∧
    (∀ e ∈ [BusEvent.read 0x02000000 .four, .write 0x014 .four 60, .write 0x004 .four 1, .write 0x00C .four 0x20],
      isReset e = false) := by decide +kernel

end Sys2Proof.Tests
end

section
/-! PROOFS. Binary floating point (R12) and the limits of SIN (R7, R153, R154): O25, O41 and O42. -/

namespace Sys2Proof.Machine

/-! ## Signs and magnitudes -/

theorem abs_signOf (neg : Bool) : |signOf neg| = 1 := by cases neg <;> simp [signOf]

theorem abs_value64 {x : F64} (hx : isFinite64 x = true) : |value64 x| = magValue 52 11 (mag64 x) := by
  rw [value64_eq hx, abs_mul, abs_signOf, one_mul, abs_of_nonneg (magValue_nonneg _ _ _)]

theorem abs_value32 {x : F32} (hx : isFinite32 x = true) : |value32 x| = magValue 23 8 (mag32 x) := by
  rw [value32_eq hx, abs_mul, abs_signOf, one_mul, abs_of_nonneg (magValue_nonneg _ _ _)]

/-- A greater magnitude pattern stands for a greater number: rounding is monotone, and the identity on patterns. -/
theorem magValue_mono {fb eb p q : ℕ} (hpq : p ≤ q) (hq : q ≤ (2 ^ eb - 1) * 2 ^ fb) :
    magValue fb eb p ≤ magValue fb eb q := by
  obtain ⟨n, e, hv, -, -⟩ := magValue_form fb eb q
  have hfrac : (numOf n e : ℚ) / denOf e = magValue fb eb q := (numOf_div_denOf n e).trans hv.symm
  by_contra hlt
  have hle : roundMag fb eb (numOf n e) (denOf e) ≤ p :=
    roundMag_le (denOf_pos e) (hpq.trans hq) (hfrac.le.trans (not_le.1 hlt).le)
  rw [roundMag_exact (denOf_pos e) hq hfrac] at hle
  exact hlt (by rw [le_antisymm hpq hle])

/-! ## A sign does not disturb nearest -/

/-- If `v` is at least as near to `r` as `w`, all three not negative, then a signed `v` is at least as near to the signed `r` as `w`
with any sign, and what follows from a tie with another `w` follows from one with another signed `w`. -/
theorem signed_nearest {v w r : ℚ} {P : Prop} (s t : Bool) (hv : 0 ≤ v) (hw : 0 ≤ w) (hr : 0 ≤ r) (hzero : r = 0 → v = 0)
    (hle : |v - r| ≤ |w - r|) (htie : |v - r| = |w - r| → w ≠ v → P) :
    |signOf s * v - signOf s * r| ≤ |signOf t * w - signOf s * r| ∧
    (|signOf s * v - signOf s * r| = |signOf t * w - signOf s * r| → signOf t * w ≠ signOf s * v → P) := by
  have hs : ∀ u, |signOf s * u - signOf s * r| = |u - r| := fun u => by
    rw [← mul_sub, abs_mul, abs_signOf, one_mul]
  rw [hs]
  by_cases hst : t = s
  · rw [hst, hs]
    exact ⟨hle, fun h hne => htie h fun hwv => hne (by rw [hwv])⟩
  · have hopp : |signOf t * w - signOf s * r| = w + r := by
      have ht : signOf t = -signOf s := by cases s <;> cases t <;> simp_all [signOf]
      rw [ht, show -signOf s * w - signOf s * r = -(signOf s * (w + r)) by ring, abs_neg, abs_mul, abs_signOf, one_mul,
        abs_of_nonneg (add_nonneg hw hr)]
    have hwr : |w - r| ≤ w + r := abs_le.2 ⟨by linarith, by linarith⟩
    rw [hopp]
    refine ⟨hle.trans hwr, fun h hne => htie (le_antisymm hle (h ▸ hwr)) fun hwv => hne ?_⟩
    -- with w = v a tie across 0 leaves only zeros
    subst hwv
    have hw0 : w = 0 := by
      rcases abs_cases (w - r) with ⟨ha, -⟩ | ⟨ha, -⟩
      · exact hzero (by linarith)
      · linarith
    simp [hw0]

/-- Rounding a zero gives a zero. -/
theorem magValue_roundMag_of_zero {fb eb num den : ℕ} (hd : 0 < den) (h : (num : ℚ) / den = 0) :
    magValue fb eb (roundMag fb eb num den) = 0 := by
  have hden : (den : ℚ) ≠ 0 := by exact_mod_cast hd.ne'
  have hnum : num = 0 := by exact_mod_cast (div_eq_zero_iff.1 h).resolve_right hden
  simp [hnum, roundMag_eq, magValue]

/-! ## Overflow

Rounding is monotone and never goes past the infinity, so it is enough that the threshold itself rounds to the infinity. -/

theorem roundMag64_overflow {num den : ℕ} (hd : 0 < den) (h : (2 ^ 54 - 1) * 2 ^ 970 ≤ (num : ℚ) / den) :
    roundMag 52 11 num den = 0x7FF0000000000000 := by
  have threshold : roundMag 52 11 ((2 ^ 54 - 1) * 2 ^ 970) 1 = 0x7FF0000000000000 := by decide +kernel
  refine le_antisymm (roundMag64_le_inf num den) (threshold.symm.le.trans (roundMag_mono one_pos hd (le_trans ?_ h)))
  have hcast : (((2 ^ 54 - 1 : ℕ)) : ℚ) = 2 ^ 54 - 1 := by norm_num
  rw [Nat.cast_mul, hcast, Nat.cast_pow, Nat.cast_ofNat, Nat.cast_one, div_one]

theorem roundMag32_overflow {num den : ℕ} (hd : 0 < den) (h : (2 ^ 25 - 1) * 2 ^ 103 ≤ (num : ℚ) / den) :
    roundMag 23 8 num den = 0x7F800000 := by
  have threshold : roundMag 23 8 ((2 ^ 25 - 1) * 2 ^ 103) 1 = 0x7F800000 := by decide +kernel
  refine le_antisymm (roundMag32_le_inf num den) (threshold.symm.le.trans (roundMag_mono one_pos hd (le_trans ?_ h)))
  have hcast : (((2 ^ 25 - 1 : ℕ)) : ℚ) = 2 ^ 25 - 1 := by norm_num
  rw [Nat.cast_mul, hcast, Nat.cast_pow, Nat.cast_ofNat, Nat.cast_one, div_one]

/-! ## Narrowing -/

/-- Everything f64to32 does on a finite operand: its value, rounded once. -/
theorem f64to32_finite {x : F64} (hx : isFinite64 x = true) {num den : ℕ} (hd : 0 < den)
    (h : (num : ℚ) / den = |value64 x|) : f64to32 x = rne32 (neg64 x) num den := by
  obtain ⟨m, e, hdx⟩ := finite_datum hx
  simp only [f64to32, hdx]
  refine rne32_congr (denOf_pos e) hd ?_
  rw [h, value64_fin hdx, abs_mul, abs_signOf, one_mul, numOf_div_denOf,
    abs_of_nonneg (mul_nonneg (Nat.cast_nonneg m) (two_zpow_pos e).le)]

end Sys2Proof.Machine

namespace Sys2Proof.Claim

open Sys2Proof.Machine

/-! ## The limits of SIN -/

/-- Settles O25: a magnitude of at most 1.0's pattern is a number of at most 1. -/
theorem everySineIsAdmissible : Obligations.EverySineIsAdmissible := by
  unfold Obligations.EverySineIsAdmissible
  intro impl x
  obtain ⟨hfin, hone, -, hnan⟩ := Laws.sinOf_limits impl x
  obtain ⟨-, -, hzero, -⟩ := Laws.sinOf_limits impl 0
  have hmag : mag64 (sinOf impl x) ≤ 0x3FF0000000000000 := of_decide_eq_true hone
  have one : magValue 52 11 0x3FF0000000000000 = 1 := by decide +kernel
  have habs : |value64 (sinOf impl x)| ≤ 1 := by
    rw [abs_value64 hfin, ← one]; exact magValue_mono hmag (by norm_num)
  obtain ⟨hlo, hhi⟩ := abs_le.1 habs
  exact ⟨hzero rfl, hfin, hlo, hhi, hnan⟩

/-! ## Widening -/

theorem isNaN32_f32to64 (x : F32) : isNaN32 x = isNaN64 (f32to64 x) := by
  rcases datum32_cases x with ⟨hm, -⟩ | ⟨hm, hd⟩ | ⟨-, hd⟩
  · have hfin := (f32to64_exact ((isFinite32_iff x).2 hm)).1
    rw [isFinite64_iff] at hfin
    have h32 : ¬isNaN32 x = true := by rw [isNaN32_iff]; omega
    have h64 : ¬isNaN64 (f32to64 x) = true := by rw [isNaN64_iff]; omega
    rw [Bool.eq_false_iff.2 h32, Bool.eq_false_iff.2 h64]
  · simp only [isNaN32, f32to64, hd]
    cases neg32 x <;> decide
  · simp only [isNaN32, f32to64, hd]
    decide

/-- Narrowing takes a widened sample back to its pattern. -/
theorem f64to32_f32to64 {x : F32} (hx : isNaN32 x = false) : f64to32 (f32to64 x) = x := by
  rcases datum32_cases x with ⟨hm, -⟩ | ⟨hm, hd⟩ | ⟨-, hd⟩
  · have h32 := (isFinite32_iff x).2 hm
    obtain ⟨hfin, hval, hneg⟩ := f32to64_exact h32
    rw [f64to32_exact hfin hm (by rw [hval, abs_value32 h32]), hneg, signed32_self]
  · have back : ∀ neg, f64to32 (inf64 neg) = signed32 neg 0x7F800000 := by decide
    simp only [f32to64, hd]
    rw [back, ← hm, signed32_self]
  · simp [isNaN32, hd] at hx

/-- Settles O42: a finite sample has few enough bits that rounding its value is exact, and the sign and the value give the pattern
back. -/
theorem wideningIsExact : Obligations.WideningIsExact := by
  unfold Obligations.WideningIsExact
  intro x
  refine ⟨fun h => ?_, by decide +kernel, by decide +kernel, by decide, by decide, isNaN32_f32to64 x, f64to32_f32to64⟩
  obtain ⟨hfin, hval, -⟩ := f32to64_exact h
  exact ⟨hfin, hval⟩

/-! ## Rounding once -/

theorem rne64_nearestEven (neg : Bool) {num den : ℕ} (hd : 0 < den) (h : (num : ℚ) / den < (2 ^ 54 - 1) * 2 ^ 970) :
    nearestEven64 (signOf neg * ((num : ℚ) / den)) (rne64 neg num den) := by
  have bound : ((2 : ℚ) ^ (52 + 1) - 1 / 2) * 2 ^ (qminOf 52 11 + (2 ^ 11 - 3 : ℕ)) = (2 ^ 54 - 1) * 2 ^ 970 := by
    rw [show qminOf 52 11 + _ = ((971 : ℕ) : ℤ) by norm_num [qminOf], zpow_natCast, pow_succ _ 970]
    generalize (2 : ℚ) ^ 970 = b
    ring
  obtain ⟨hlt, hnear⟩ := roundMag_nearest (fb := 52) (eb := 11) (by norm_num) (by norm_num) hd (bound ▸ h)
  have hmag : mag64 (rne64 neg num den) = roundMag 52 11 num den := mag64_signed64 (by omega)
  have hfin : isFinite64 (rne64 neg num den) = true := by rw [isFinite64_iff, hmag]; omega
  refine ⟨hfin, fun z hz => ?_⟩
  obtain ⟨hle, htie⟩ := hnear (mag64 z)
  rw [value64_eq hfin, value64_eq hz, hmag, neg64_rne64]
  refine signed_nearest neg (neg64 z) (magValue_nonneg _ _ _) (magValue_nonneg _ _ _) (by positivity)
    (magValue_roundMag_of_zero hd) hle fun h1 h2 => ?_
  have heven := htie h1 h2
  rw [← hmag, mag64] at heven
  omega

theorem rne32_nearestEven (neg : Bool) {num den : ℕ} (hd : 0 < den) (h : (num : ℚ) / den < (2 ^ 25 - 1) * 2 ^ 103) :
    nearestEven32 (signOf neg * ((num : ℚ) / den)) (rne32 neg num den) := by
  have bound : ((2 : ℚ) ^ (23 + 1) - 1 / 2) * 2 ^ (qminOf 23 8 + (2 ^ 8 - 3 : ℕ)) = (2 ^ 25 - 1) * 2 ^ 103 := by
    rw [show qminOf 23 8 + _ = ((104 : ℕ) : ℤ) by norm_num [qminOf], zpow_natCast, pow_succ _ 103]
    generalize (2 : ℚ) ^ 103 = b
    ring
  obtain ⟨hlt, hnear⟩ := roundMag_nearest (fb := 23) (eb := 8) (by norm_num) (by norm_num) hd (bound ▸ h)
  have hmag : mag32 (rne32 neg num den) = roundMag 23 8 num den := mag32_signed32 (by omega)
  have hfin : isFinite32 (rne32 neg num den) = true := by rw [isFinite32_iff, hmag]; omega
  refine ⟨hfin, fun z hz => ?_⟩
  obtain ⟨hle, htie⟩ := hnear (mag32 z)
  rw [value32_eq hfin, value32_eq hz, hmag, neg32_rne32]
  refine signed_nearest neg (neg32 z) (magValue_nonneg _ _ _) (magValue_nonneg _ _ _) (by positivity)
    (magValue_roundMag_of_zero hd) hle fun h1 h2 => ?_
  have heven := htie h1 h2
  rw [← hmag, mag32] at heven
  omega

theorem rne64_overflow (neg : Bool) {num den : ℕ} (hd : 0 < den) (h : (2 ^ 54 - 1) * 2 ^ 970 ≤ (num : ℚ) / den) :
    rne64 neg num den = signedInf neg := by
  rw [rne64, roundMag64_overflow hd h]; cases neg <;> decide

theorem rne32_overflow (neg : Bool) {num den : ℕ} (hd : 0 < den) (h : (2 ^ 25 - 1) * 2 ^ 103 ≤ (num : ℚ) / den) :
    rne32 neg num den = if neg then 0xFF800000 else 0x7F800000 := by
  rw [rne32, roundMag32_overflow hd h]; cases neg <;> decide

/-! ## The classes of operands, as data -/

theorem inf64_eq_signedInf (neg : Bool) : inf64 neg = signedInf neg := by cases neg <;> decide

theorem isNaN64_nan64 : isNaN64 nan64 = true := by decide

theorem datum64_of_isNaN64 {x : F64} (h : isNaN64 x = true) : datum64 x = .nan := of_decide_eq_true h

theorem eq_signedInf_of_isInf64 {x : F64} (h : isInf64 x) : x = signedInf (neg64 x) := by
  rcases h with rfl | rfl <;> decide

theorem datum64_of_isInf64 {x : F64} (h : isInf64 x) : datum64 x = .inf (neg64 x) := by
  rcases h with rfl | rfl <;> decide

theorem isZero64_iff (x : F64) : isZero64 x ↔ mag64 x = 0 := by
  constructor
  · rintro (rfl | rfl) <;> decide
  · intro h
    rw [isZero64, ← signed64_self x, h]
    cases neg64 x
    · exact .inl (by decide)
    · exact .inr (by decide)

theorem isFinite64_of_isZero64 {x : F64} (h : isZero64 x) : isFinite64 x = true := by
  rw [isFinite64_iff, (isZero64_iff x).1 h]; norm_num

/-- A finite pattern's datum has its sign, and magnitude 0 exactly if it is a zero. -/
theorem datum64_of_isFinite64 {x : F64} (hx : isFinite64 x = true) :
    ∃ m e, datum64 x = .fin (neg64 x) m e ∧ (m = 0 ↔ isZero64 x) := by
  rw [isFinite64_iff] at hx
  rw [isZero64_iff]
  rcases datum64_cases x with ⟨-, m, e, hd, -, -, -, hm⟩ | ⟨h, -⟩ | ⟨h, -⟩
  · exact ⟨m, e, hd, hm⟩
  · omega
  · omega

theorem isInf64_of_not_isNaN64 {x : F64} (hn : isNaN64 x = false) (hf : ¬isFinite64 x = true) : isInf64 x := by
  rw [isFinite64_iff] at hf
  have hn' : ¬isNaN64 x = true := by simp [hn]
  rw [isNaN64_iff] at hn'
  have hmag : mag64 x = 0x7FF0000000000000 := by omega
  rw [isInf64, ← signed64_self x, hmag]
  cases neg64 x
  · exact .inl (by decide)
  · exact .inr (by decide)

/-! ## The three operations on all operands -/

/-- A zero sum is +0 but for two negative zeros: a sum of two negative numbers is 0 only for two zeros. -/
theorem signed64_zero_sum {x y : F64} (hx : isFinite64 x = true) (hy : isFinite64 y = true) (h : value64 x + value64 y = 0) :
    signed64 (neg64 x && neg64 y) 0 =
      if x = 0x8000000000000000 ∧ y = 0x8000000000000000 then 0x8000000000000000 else 0 := by
  by_cases hneg : neg64 x = true ∧ neg64 y = true
  · obtain ⟨hnx, hny⟩ := hneg
    have hx0 := magValue_nonneg 52 11 (mag64 x)
    have hy0 := magValue_nonneg 52 11 (mag64 y)
    rw [value64_eq hx, value64_eq hy, hnx, hny] at h
    simp only [signOf, if_true] at h
    have hzx : mag64 x = 0 := magValue_eq_zero (fb := 52) (eb := 11) (by linarith)
    have hzy : mag64 y = 0 := magValue_eq_zero (fb := 52) (eb := 11) (by linarith)
    rw [← signed64_self x, ← signed64_self y, hnx, hny, hzx, hzy]
    decide
  · have hne : ¬(x = 0x8000000000000000 ∧ y = 0x8000000000000000) := by
      rintro ⟨rfl, rfl⟩; exact hneg (by decide)
    rw [← Bool.and_eq_true, Bool.not_eq_true] at hneg
    rw [if_neg hne, hneg]; decide

theorem addRounds_holds (x y : F64) : addRounds x y := by
  refine ⟨fun hx hy => ?_, fun hx hy hne => ?_, fun hx => ?_, fun hx hy => ?_, fun hx => ?_⟩
  · rcases add64_finite hx hy with ⟨h0, hadd⟩ | ⟨h0, n, d, hd, hnd, hadd⟩
    · exact ⟨fun _ => hadd.trans (signed64_zero_sum hx hy h0), fun h => absurd h0 h⟩
    · exact ⟨fun h => absurd h h0, fun _ num den hden h => hadd.trans (rne64_congr hd hden (hnd.trans h.symm))⟩
  · have hsign : neg64 x ≠ neg64 y := fun h => hne (by
      rw [eq_signedInf_of_isInf64 hx, eq_signedInf_of_isInf64 hy, h])
    simp only [add64, datum64_of_isInf64 hx, datum64_of_isInf64 hy, if_neg hsign, isNaN64_nan64]
  · simp only [add64, datum64_of_isInf64 hx, if_true, inf64_eq_signedInf]
    exact (eq_signedInf_of_isInf64 hx).symm
  · obtain ⟨m, e, hdy, -⟩ := datum64_of_isFinite64 hy
    simp only [add64, datum64_of_isInf64 hx, hdy, inf64_eq_signedInf, and_self]
    exact (eq_signedInf_of_isInf64 hx).symm
  · simp only [add64, datum64_of_isNaN64 hx]
    cases datum64 y <;> exact ⟨isNaN64_nan64, isNaN64_nan64⟩

theorem mulRounds_holds (x y : F64) : mulRounds x y := by
  refine ⟨fun hx hy num den hden h => ?_, fun hx hy => ?_, fun hx hy hy0 => ?_, fun hx => ?_⟩
  · obtain ⟨n, d, hd, hnd, hmul⟩ := mul64_finite hx hy
    rw [getLsbD_neg64, getLsbD_neg64, hmul]
    exact rne64_congr hd hden (hnd.trans h.symm)
  · obtain ⟨m, e, hdy, hm⟩ := datum64_of_isFinite64 (isFinite64_of_isZero64 hy)
    simp only [mul64, datum64_of_isInf64 hx, hdy, if_pos (hm.2 hy), isNaN64_nan64, and_self]
  · rw [getLsbD_neg64, getLsbD_neg64]
    by_cases hfin : isFinite64 y = true
    · obtain ⟨m, e, hdy, hm⟩ := datum64_of_isFinite64 hfin
      simp only [mul64, datum64_of_isInf64 hx, hdy, if_neg (mt hm.1 hy0), inf64_eq_signedInf, Bool.xor_comm (neg64 y), and_self]
    · simp only [mul64, datum64_of_isInf64 hx, datum64_of_isInf64 (isInf64_of_not_isNaN64 hy hfin), inf64_eq_signedInf,
        Bool.xor_comm (neg64 y), and_self]
  · simp only [mul64, datum64_of_isNaN64 hx]
    cases datum64 y <;> exact ⟨isNaN64_nan64, isNaN64_nan64⟩

theorem divRounds_holds (x y : F64) : divRounds x y := by
  unfold divRounds
  rw [getLsbD_neg64 x, getLsbD_neg64 y]
  refine ⟨fun hx hy hy0 num den hden h => ?_, fun hx hy => ?_, fun hx hy => ?_, fun hx hx0 hy => ?_, fun hx hy => ?_,
    fun hx hy => ?_, fun hx => ?_⟩
  · obtain ⟨n, d, hd, hnd, hdiv⟩ := div64_finite hx hy hy0
    exact hdiv.trans (rne64_congr hd hden (hnd.trans h.symm))
  · obtain ⟨m, e, hdx, hm⟩ := datum64_of_isFinite64 (isFinite64_of_isZero64 hx)
    obtain ⟨n, f, hdy, hn⟩ := datum64_of_isFinite64 (isFinite64_of_isZero64 hy)
    simp only [div64, hdx, hdy, if_pos (hm.2 hx), if_pos (hn.2 hy), isNaN64_nan64]
  · simp only [div64, datum64_of_isInf64 hx, datum64_of_isInf64 hy, isNaN64_nan64]
  · obtain ⟨m, e, hdx, hm⟩ := datum64_of_isFinite64 hx
    obtain ⟨n, f, hdy, hn⟩ := datum64_of_isFinite64 (isFinite64_of_isZero64 hy)
    simp only [div64, hdx, hdy, if_neg (mt hm.1 hx0), if_pos (hn.2 hy), inf64_eq_signedInf]
  · obtain ⟨n, f, hdy, -⟩ := datum64_of_isFinite64 hy
    simp only [div64, datum64_of_isInf64 hx, hdy, inf64_eq_signedInf]
  · obtain ⟨m, e, hdx, -⟩ := datum64_of_isFinite64 hx
    simp only [div64, hdx, datum64_of_isInf64 hy, isZero64_iff, getLsbD_neg64]
    exact ⟨mag64_signed64 (by norm_num), neg64_signed64 (by norm_num)⟩
  · simp only [div64, datum64_of_isNaN64 hx]
    cases datum64 y <;> exact ⟨isNaN64_nan64, isNaN64_nan64⟩

/-- Settles O41: rounding below and above the overflow threshold, then each operation on each class of operands. -/
theorem roundingIsToNearestEven : Obligations.RoundingIsToNearestEven := by
  unfold Obligations.RoundingIsToNearestEven
  refine ⟨fun neg num den hd => ?_, fun x => ⟨fun hx num den hd h => ?_, fun hx => ?_⟩, by decide, by decide,
    fun x y => ⟨addRounds_holds x y, mulRounds_holds x y, divRounds_holds x y⟩⟩
  · rw [getLsbD_neg64, getLsbD_neg32]
    exact ⟨neg64_rne64 neg num den, neg32_rne32 neg num den, rne64_nearestEven neg hd, rne64_overflow neg hd,
      rne32_nearestEven neg hd, rne32_overflow neg hd⟩
  · rw [getLsbD_neg64]; exact f64to32_finite hx hd h
  · simp only [f64to32, datum64_of_isNaN64 hx]; decide

end Sys2Proof.Claim
end

section
/-! PROOFS. The state of the block (10_state.md): the invariant of every step, the plain registers, BPM, STATUS and irq: O46, O47,
O51, O54, O58 and O59. -/

namespace Sys2Proof.Machine

/-! ## Blocks of writable memory -/

/-- Every byte of [base, base + n) is a populated byte of a writable memory (R61, R66). -/
def RamBlock (p : Params) (base n : Nat) : Prop := ∀ a, base ≤ a → a < base + n → ramAddress p a = true

theorem ramBlock_empty (p : Params) (base : Nat) : RamBlock p base 0 := fun a h1 h2 => by omega

/-- A block inside a window other than PITCH is writable. -/
theorem ramBlock_of_window {p : Params} {base size : Nat} {ro : Bool} (hw : ⟨base, size, ro⟩ ∈ windows p)
    (hb : base ≠ pitchBase) {a n : Nat} (hlo : base ≤ a) (hhi : a + n ≤ base + size) : RamBlock p a n := by
  intro b hab hbn
  rw [ramAddress, List.any_eq_true]
  have hin : Window.holds ⟨base, size, ro⟩ b 1 = true := decide_eq_true (by dsimp only; omega)
  exact ⟨_, hw, by simp [hin, hb]⟩

theorem ramBlock_ctab {p : Params} {n : Nat} (h : n ≤ 4 * p.chordCap) : RamBlock p ctabBase n :=
  ramBlock_of_window (ro := false) (by simp [windows]) (by decide) le_rfl (Nat.add_le_add_left h _)

theorem ramBlock_ibuf {p : Params} {n : Nat} (h : n ≤ 4 * p.sampleCap) : RamBlock p ibufBase n :=
  ramBlock_of_window (ro := false) (by simp [windows]) (by decide) le_rfl (Nat.add_le_add_left h _)

theorem ramBlock_mbuf {p : Params} {n : Nat} (h : n ≤ 4 * p.sampleCap) : RamBlock p mbufBase n :=
  ramBlock_of_window (ro := false) (by simp [windows]) (by decide) le_rfl (Nat.add_le_add_left h _)

theorem ramBlock_wbuf {p : Params} {n : Nat} (h : n ≤ 44 + 2 * p.sampleCap) : RamBlock p wbufBase n :=
  ramBlock_of_window (ro := true) (by simp [windows]) (by decide) le_rfl
    (Nat.add_le_add_left h _)

/-- An access that reaches memory has its window, which is not a read-only one if it is a write (R66, R67). -/
theorem windowOf_of_accessTarget_memory {p : Params} {isWrite : Bool} {a n : Nat}
    (h : accessTarget p isWrite a n = some .memory) :
    ∃ w, windowOf p a n = some w ∧ (isWrite && w.readOnly) = false := by
  unfold accessTarget at h
  split at h
  · cases h
  · split at h
    · split at h <;> cases h
    · cases hw : windowOf p a n with
      | none => simp [hw] at h
      | some w => exact ⟨w, rfl, by simpa [hw] using h⟩

theorem readOnly_of_base_pitch {p : Params} {w : Window} (hw : w ∈ windows p) (hb : w.base = pitchBase) : w.readOnly = true := by
  have hall : ∀ u ∈ windows p, u.base = pitchBase → u.readOnly = true := by
    simp [windows, textBase, ctabBase, pitchBase, vbufBase, ibufBase, mbufBase, wbufBase]
  exact hall w hw hb

/-- A host write that reaches memory covers writable bytes alone: the one window without any is read-only (R66, R67). -/
theorem ramBlock_of_hostWrite {p : Params} {a n : Nat} (h : accessTarget p true a n = some .memory) : RamBlock p a n := by
  obtain ⟨w, hw, hro⟩ := windowOf_of_accessTarget_memory h
  obtain ⟨hmem, hlo, hhi⟩ := windowOf_some hw
  refine ramBlock_of_window hmem (fun hbase => ?_) hlo hhi
  rw [readOnly_of_base_pitch hmem hbase] at hro
  cases hro

/-- A command's output range lies in writable memory, whether or not the command will succeed (R71). -/
theorem ramBlock_outputRange (i : Instr) (s : State) : RamBlock s.params (outputRange i s).1 (outputRange i s).2 := by
  cases i with
  | nop => exact ramBlock_empty _ _
  | ptempo => exact ramBlock_empty _ _
  | pchord => exact ramBlock_ctab (Nat.mul_le_mul_left _ (min_le_right _ _))
  | synth => exact ramBlock_ibuf (Nat.mul_le_mul_left _ (min_le_right _ _))
  | mixI => exact ramBlock_mbuf (Nat.mul_le_mul_left _ (min_le_right _ _))
  | mixV => exact ramBlock_mbuf (Nat.mul_le_mul_left _ (min_le_right _ _))
  | encodeM => exact ramBlock_wbuf (Nat.add_le_add_left (Nat.mul_le_mul_left _ (min_le_right _ _)) _)
  | encodeV => exact ramBlock_wbuf (Nat.add_le_add_left (Nat.mul_le_mul_left _ (min_le_right _ _)) _)
  | encodeI => exact ramBlock_wbuf (Nat.add_le_add_left (Nat.mul_le_mul_left _ (min_le_right _ _)) _)

theorem ramBlock_inFlightRange (s : State) : RamBlock s.params s.inFlightRange.1 s.inFlightRange.2 := by
  unfold State.inFlightRange
  split
  · exact ramBlock_empty _ _
  · split
    · exact ramBlock_outputRange _ s
    · exact ramBlock_empty _ _

/-! ## What the clamp and the checks of a successful command say -/

theorem clampBpm_toNat (v : Nat) : (clampBpm v).toNat = min (max v 60) 200 := by
  rw [clampBpm, BitVec.toNat_ofNat, Nat.mod_eq_of_lt (by omega)]

/-- R28: the clamp's range. -/
theorem clampBpm_range (v : Nat) : 60 ≤ (clampBpm v).toNat ∧ (clampBpm v).toNat ≤ 200 := by
  rw [clampBpm_toNat]; omega

theorem lenOk_iff (p : Params) (n : Word) : lenOk p n = true ↔ n.toNat ≤ p.sampleCap := decide_eq_true_iff

/-- R152: a synthesis that meets no error fits IBUF. -/
theorem ibufLen_le_of_synthError_none {s : State} (h : synthError s = none) : s.ibufLen.toNat ≤ s.params.sampleCap := by
  rw [← lenOk_iff]
  by_contra hlen
  rw [synthError, if_pos (by simp [hlen])] at h
  cases h

/-- R177: a mix that meets no error fits MBUF. -/
theorem mixLength_le_of_mixError_none {s : State} {x : Wave} (h : mixError s x = none) : mixLength s x ≤ s.params.sampleCap := by
  have hlen : lenOk s.params s.vbufLen = true ∧ lenOk s.params (x.len s) = true := by
    by_contra hlen
    rw [mixError, if_pos (by simpa [or_iff_not_imp_left] using hlen)] at h
    cases h
  rw [lenOk_iff, lenOk_iff] at hlen
  exact max_le hlen.1 hlen.2

/-- R196: an encoding that meets no error has a sample and fits WBUF. -/
theorem len_range_of_encodeError_none {s : State} {src : Wave} (h : encodeError s src = none) :
    1 ≤ (src.len s).toNat ∧ (src.len s).toNat ≤ s.params.sampleCap := by
  have hlen : lenOk s.params (src.len s) = true := by
    by_contra hlen
    rw [encodeError, if_pos (by simp [hlen])] at h
    cases h
  refine ⟨Nat.pos_of_ne_zero fun h0 => ?_, (lenOk_iff _ _).1 hlen⟩
  have hzero : src.len s = 0 := BitVec.eq_of_toNat_eq h0
  rw [encodeError, if_neg (by simp [hlen]), if_pos hzero] at h
  cases h

/-! ## The operations of the state keep the invariant -/

theorem State.Inv.writeBytes {s : State} (h : s.Inv) {base : Nat} {bytes : List Byte}
    (hb : RamBlock s.params base bytes.length) : (s.writeBytes base bytes).Inv :=
  { h with
    memory := memWrite_wf _ _ _ h.memory
    populated := fun c hc => (mem_memWrite hc).elim (h.populated c) fun hin => hb c.1 hin.1 hin.2 }

theorem State.Inv.noteNan {s : State} (h : s.Inv) (met : Bool) : (s.noteNan met).Inv := { h with }

theorem State.Inv.setOvr {s : State} (h : s.Inv) : s.setOvr.Inv := { h with }

theorem State.Inv.setWbusy {s : State} (h : s.Inv) : s.setWbusy.Inv := { h with }

theorem State.Inv.setAddrErr {s : State} (h : s.Inv) : s.setAddrErr.Inv := { h with }

theorem State.Inv.answer {s : State} (h : s.Inv) (v : Word) : (s.answer v).Inv := { h with }

/-- R214: clearing flags can only end ERR, and sets no DONE. -/
theorem State.Inv.writeStatus {s : State} (h : s.Inv) (v : Word) : (writeStatus v s).Inv :=
  { h with
    inFlight := fun w hw => by
      obtain ⟨hlast, hdone, herr, hcode⟩ := h.inFlight w hw
      exact ⟨hlast, by simp [Machine.writeStatus, hdone], by simp [Machine.writeStatus, herr], hcode⟩
    error := fun he => h.error (Bool.and_eq_true_iff.1 he).1 }

/-- R231: the codes are 0x01 to 0x08. -/
theorem CmdError.code_range (e : CmdError) : e.code ≠ 0 ∧ e.code.toNat ≤ 8 := by cases e <;> decide

theorem State.Inv.failCommand {s : State} (h : s.Inv) (e : CmdError) : (failCommand e s).Inv :=
  { h with
    inFlight := fun _ hw => nomatch hw
    error := fun _ => e.code_range.1
    code := e.code_range.2 }

theorem State.Inv.finishCommand {s : State} (h : s.Inv) : (finishCommand s).Inv :=
  { h with
    inFlight := fun _ hw => nomatch hw
    error := fun he => nomatch he
    code := Nat.zero_le 8 }

/-- R210: the accepted word is the one in flight. -/
theorem State.Inv.issue {s : State} (h : s.Inv) (w : Word) : (issue w s).Inv :=
  { h with
    inFlight := fun _ hw => ⟨Option.some.inj hw, rfl, rfl, rfl⟩
    error := fun he => nomatch he
    code := Nat.zero_le 8 }

/-- R261: reset registers meet the invariant wherever memory, parameters and draws do. -/
theorem resetRegisters_inv {s : State} (hp : s.params.legal = true) (hm : Memory.wf s.mem = true)
    (hr : ∀ c ∈ s.mem, ramAddress s.params c.1 = true) (hd : s.powerOnDraw < s.draws) : (resetRegisters s).Inv where
  params := hp
  memory := hm
  populated := hr
  tempo := by rw [resetRegisters_bpm]; decide
  inFlight := fun _ hw => nomatch hw
  error := fun he => nomatch he
  code := Nat.zero_le 8
  stream := .inl rfl
  drawn := hd

theorem State.Inv.resetRegisters {s : State} (h : s.Inv) : (resetRegisters s).Inv :=
  resetRegisters_inv h.params h.memory h.populated h.drawn

@[simp] theorem freeBytes_length (draw base n : Nat) : (freeBytes draw base n).length = n := by simp [freeBytes]

theorem State.Inv.abandonOutput {s : State} (h : s.Inv) : (abandonOutput s).Inv :=
  { h.writeBytes (bytes := freeBytes s.draws s.inFlightRange.1 s.inFlightRange.2)
      (by rw [freeBytes_length]; exact ramBlock_inFlightRange s) with
    drawn := Nat.lt_succ_of_lt h.drawn }

/-! ## Completions keep the invariant and the parameters -/

theorem runPtempo_keeps_inv {s t : State} (h : s.Inv) (hr : runPtempo s = .ok t) : t.Inv ∧ t.params = s.params := by
  rcases runPtempo_cases s with he | hok
  · rw [he] at hr; cases hr
  · rw [hok] at hr; cases hr
    exact ⟨{ h with tempo := clampBpm_range _ }, rfl⟩

theorem runPchord_keeps_inv {s t : State} (h : s.Inv) (hr : runPchord s = .ok t) : t.Inv ∧ t.params = s.params := by
  rcases runPchord_cases s with ⟨e, he⟩ | ⟨hlen, hok⟩
  · rw [he] at hr; cases hr
  · rw [hok] at hr; cases hr
    have hmem : RamBlock s.params ctabBase (wordBytes (chordSequence s.text)).length :=
      ramBlock_ctab (by rw [wordBytes_length]; omega)
    exact ⟨{ h.writeBytes hmem with }, rfl⟩

theorem runSynth_keeps_inv {s t : State} (h : s.Inv) (hr : runSynth s = .ok t) : t.Inv ∧ t.params = s.params := by
  rcases runSynth_cases s with ⟨e, -, he⟩ | ⟨hnone, hok⟩
  · rw [he] at hr; cases hr
  · rw [hok] at hr; cases hr
    have hlen := ibufLen_le_of_synthError_none hnone
    exact ⟨h.writeBytes (ramBlock_ibuf (by rw [wordBytes_length, synthSamples_length]; omega)), rfl⟩

theorem runMix_keeps_inv {x : Wave} {s t : State} (h : s.Inv) (hr : runMix x s = .ok t) : t.Inv ∧ t.params = s.params := by
  rcases runMix_cases x s with ⟨e, -, he⟩ | ⟨hnone, hok⟩
  · rw [he] at hr; cases hr
  · rw [hok] at hr; cases hr
    have hlen := mixLength_le_of_mixError_none hnone
    have hmem : RamBlock s.params mbufBase (wordBytes (mixSamples s x)).length :=
      ramBlock_mbuf (by rw [wordBytes_length, mixSamples_length]; omega)
    exact ⟨{ h.writeBytes hmem with }, rfl⟩

/-- R196: 44 + 2·SAMPLE_CAP is below 2^32, so WAV_LEN holds the stream's length itself. -/
theorem runEncode_keeps_inv {src : Wave} {s t : State} (h : s.Inv) (hr : runEncode src s = .ok t) :
    t.Inv ∧ t.params = s.params := by
  rcases runEncode_cases src s with ⟨e, -, he⟩ | ⟨hnone, hok⟩
  · rw [he] at hr; cases hr
  · rw [hok] at hr; cases hr
    obtain ⟨hpos, hlen⟩ := len_range_of_encodeError_none hnone
    obtain ⟨-, -, -, -, -, hcap⟩ := legal_caps h.params
    have hmem : RamBlock s.params wbufBase (wavStream s src).length :=
      ramBlock_wbuf (by rw [wavStream_length]; omega)
    have hwav : (BitVec.ofNat 32 (44 + 2 * (src.len s).toNat)).toNat = 44 + 2 * (src.len s).toNat := by
      rw [BitVec.toNat_ofNat, Nat.mod_eq_of_lt (by omega)]
    refine ⟨{ h.writeBytes hmem with stream := .inr ?_ }, rfl⟩
    simp only [noteNan_wavLen, noteNan_params, writeBytes_params, hwav]
    omega

/-- What a command's pseudocode makes of a state of the invariant still meets it: the word stays in flight until the completion. -/
theorem runOf_keeps_inv {i : Instr} {s t : State} (h : s.Inv) (hr : runOf i s = .ok t) : t.Inv ∧ t.params = s.params := by
  cases i with
  | nop => cases hr; exact ⟨h, rfl⟩
  | ptempo => exact runPtempo_keeps_inv h hr
  | pchord => exact runPchord_keeps_inv h hr
  | synth => exact runSynth_keeps_inv h hr
  | mixI => exact runMix_keeps_inv h hr
  | mixV => exact runMix_keeps_inv h hr
  | encodeM => exact runEncode_keeps_inv h hr
  | encodeV => exact runEncode_keeps_inv h hr
  | encodeI => exact runEncode_keeps_inv h hr

theorem exec_keeps_inv {i : Instr} {s t : State} (h : s.Inv) (hs : exec i s = .next t) : t.Inv ∧ t.params = s.params := by
  rw [exec_eq] at hs
  rcases complete_cases s (runOf i s) with ⟨u, hr, hc⟩ | ⟨e, -, hc⟩ <;> rw [hc] at hs <;> cases hs
  · obtain ⟨hu, hparams⟩ := runOf_keeps_inv h hr
    exact ⟨hu.finishCommand, hparams⟩
  · exact ⟨h.failCommand e, rfl⟩

theorem engineStep_keeps_inv {w : Word} {s t : State} (h : s.Inv) (hs : engineStep w s = .next t) :
    t.Inv ∧ t.params = s.params := by
  rcases engineStep_cases w s with ⟨i, -, he⟩ | ⟨e, -, he⟩ <;> rw [he] at hs
  · exact exec_keeps_inv h hs
  · cases hs
    exact ⟨h.failCommand _, rfl⟩

/-! ## Host accesses and resets keep the invariant and the parameters -/

theorem softReset_keeps_inv {s : State} (h : s.Inv) : (softReset s).Inv ∧ (softReset s).params = s.params := by
  unfold softReset
  split
  · exact ⟨h.abandonOutput.resetRegisters, rfl⟩
  · exact ⟨h.resetRegisters, rfl⟩

theorem powerOnReset_keeps_inv {s : State} (h : s.Inv) : (powerOnReset s).Inv ∧ (powerOnReset s).params = s.params :=
  ⟨resetRegisters_inv (s := { s with mem := [], powerOnDraw := s.draws, draws := s.draws + 1 }) h.params rfl
    (fun _ hc => nomatch hc) (Nat.lt_succ_self _), rfl⟩

theorem writeCtrl_keeps_inv {s : State} (h : s.Inv) (v : Word) : (writeCtrl v s).Inv ∧ (writeCtrl v s).params = s.params := by
  unfold writeCtrl
  split
  · exact softReset_keeps_inv h
  · exact ⟨{ h with }, rfl⟩

theorem writeCmd_keeps_inv {s : State} (h : s.Inv) (v : Word) : (writeCmd v s).Inv ∧ (writeCmd v s).params = s.params := by
  unfold writeCmd
  split
  · exact ⟨h.setOvr, rfl⟩
  · exact ⟨h.issue v, rfl⟩

theorem writeReg_keeps_inv {s : State} (h : s.Inv) (v : Word) (r : Reg) :
    (writeReg v s r).Inv ∧ (writeReg v s r).params = s.params := by
  cases r with
  | ctrl => exact writeCtrl_keeps_inv h v
  | status => exact ⟨h.writeStatus v, rfl⟩
  | cmd => exact writeCmd_keeps_inv h v
  | bpm => exact ⟨{ h with tempo := clampBpm_range _ }, rfl⟩
  | _ => exact ⟨{ h with }, rfl⟩

/-- While IDLE a register write is performed at its register, and a reserved offset ignores it (R36). -/
theorem writeOffset_idle (offset : Nat) (v : Word) {s : State} (h : s.busy = false) :
    (∃ r, regAt offset = some r ∧ writeOffset offset v s = writeReg v s r) ∨
    (regAt offset = none ∧ writeOffset offset v s = s) := by
  unfold writeOffset
  cases hr : regAt offset with
  | none => simp [h]
  | some r => cases r <;> simp [h, writeReg]

theorem writeOffset_keeps_inv {s : State} (h : s.Inv) (offset : Nat) (v : Word) :
    (writeOffset offset v s).Inv ∧ (writeOffset offset v s).params = s.params := by
  cases hb : s.busy with
  | true =>
    rcases writeOffset_busy_cases offset v s hb with ⟨-, he⟩ | ⟨-, he⟩ | ⟨-, he⟩ | ⟨-, -, -, he⟩ <;> rw [he]
    · exact writeCtrl_keeps_inv h v
    · exact ⟨h.writeStatus v, rfl⟩
    · exact ⟨h.setOvr, rfl⟩
    · exact ⟨h.setWbusy, rfl⟩
  | false =>
    rcases writeOffset_idle offset v hb with ⟨r, -, he⟩ | ⟨-, he⟩ <;> rw [he]
    · exact writeReg_keeps_inv h v r
    · exact ⟨h, rfl⟩

theorem writeMemory_keeps_inv {s : State} (h : s.Inv) {a n : Nat} (v : Word) (hram : RamBlock s.params a n) :
    (writeMemory a n v s).Inv ∧ (writeMemory a n v s).params = s.params := by
  unfold writeMemory
  split
  · exact ⟨h.setWbusy, rfl⟩
  · exact ⟨h.writeBytes (by rwa [bytesOfNat_length]), rfl⟩

theorem hostRead_keeps_inv {s : State} (h : s.Inv) (a n : Nat) : (hostRead a n s).Inv ∧ (hostRead a n s).params = s.params := by
  rcases hostRead_cases a n s with ⟨-, he⟩ | ⟨v, d, hd, he⟩ <;> rw [he]
  · exact ⟨h.setAddrErr.answer 0, rfl⟩
  · exact ⟨{ h.answer v with drawn := Nat.lt_of_lt_of_le h.drawn hd }, rfl⟩

theorem hostWrite_keeps_inv {s : State} (h : s.Inv) (a n : Nat) (v : Word) :
    (hostWrite a n v s).Inv ∧ (hostWrite a n v s).params = s.params := by
  rcases hostWrite_cases a n v s with ⟨-, he⟩ | ⟨offset, -, he⟩ | ⟨htarget, he⟩ <;> rw [he]
  · exact ⟨h.setAddrErr, rfl⟩
  · exact writeOffset_keeps_inv h offset v
  · exact writeMemory_keeps_inv h v (ramBlock_of_hostWrite htarget)

theorem perform_keeps_inv {s : State} (h : s.Inv) (e : BusEvent) : (perform e s).Inv ∧ (perform e s).params = s.params := by
  cases e with
  | read a size => exact hostRead_keeps_inv h _ _
  | write a size v => exact hostWrite_keeps_inv h _ _ v
  | powerOn => exact powerOnReset_keeps_inv h

theorem hostStep_keeps_inv {s : State} (h : s.Inv) : (hostStep s).Inv ∧ (hostStep s).params = s.params := by
  rcases hostStep_cases s with ⟨-, he⟩ | ⟨e, rest, -, he⟩ <;> rw [he]
  · exact ⟨h, rfl⟩
  · have hq : State.Inv { s with queue := rest } := { h with }
    exact perform_keeps_inv hq e.event

theorem step_keeps_inv {s t : State} (h : s.Inv) (hs : step s = .next t) : t.Inv ∧ t.params = s.params := by
  rcases step_cases s with ⟨w, -, -, he⟩ | ⟨-, he⟩ <;> rw [he] at hs
  · exact engineStep_keeps_inv h hs
  · cases hs
    exact hostStep_keeps_inv h

/-! ## STATUS above its flags -/

theorem statusWord_getLsbD_high (s : State) {k : Nat} (h : 8 ≤ k) :
    s.statusWord.getLsbD k = if k < 16 then s.status.errcode.getLsbD (k - 8) else false := by
  rw [statusWord_getLsbD]
  iterate 8 rw [if_neg (by omega)]

/-! ## The registers at their addresses (R21) -/

/-- The registers that store what is written and do nothing else (R27, R29 to R33). -/
def plainRegs : List Reg :=
  [.textLen, .chordCount, .gainV, .gainI, .vbufLen, .vbufSr, .ibufLen, .ibufSr, .mbufLen, .mbufSr]

/-- The registers that ignore a write (R22, R34, R35). -/
def readOnlyRegs : List Reg := [.id, .wavLen, .capText, .capChord, .capSample]

/-- A register's address is an aligned offset of the register block, where the bus finds that register. -/
theorem regAddr_toNat (r : Reg) :
    (regAddr r).toNat < 0x1000 ∧ (regAddr r).toNat % 4 = 0 ∧ regAt (regAddr r).toNat = some r := by
  cases r <;> decide

theorem plainRegs_addresses : plainRegs.map regAddr = [0x00000010, 0x00000018, 0x0000001C, 0x00000020, 0x00000024, 0x00000028,
    0x0000002C, 0x00000030, 0x00000034, 0x00000038] := rfl

theorem readOnlyRegs_addresses :
    readOnlyRegs.map regAddr = [0x00000000, 0x0000003C, 0x00000040, 0x00000044, 0x00000048] := rfl

theorem regAt_reserved {offset : Nat} (h : 0x4C ≤ offset) : regAt offset = none :=
  List.getElem?_eq_none (by simp only [regList, List.length_cons, List.length_nil]; omega)

theorem writeReg_readOnly {r : Reg} (hr : r ∈ readOnlyRegs) (v : Word) (s : State) : writeReg v s r = s := by
  fin_cases hr <;> rfl

/-- A plain register reads back what was written, and every other register reads as before. -/
theorem readReg_writeReg {r : Reg} (hr : r ∈ plainRegs) (v : Word) (s : State) (r' : Reg) :
    readReg (writeReg v s r) r' = if r' = r then v else readReg s r' := by
  fin_cases hr <;> cases r' <;> rfl

theorem readReg_withQueue (s : State) (q : List HostEvent) (r : Reg) : readReg { s with queue := q } r = readReg s r := by
  cases r <;> rfl

theorem writeReg_queue {r : Reg} (hr : r ∈ plainRegs) (v : Word) (s : State) : (writeReg v s r).queue = s.queue := by
  fin_cases hr <;> rfl

end Sys2Proof.Machine

namespace Sys2Proof.Claim

open Sys2Proof.Machine

/-! ## One offered access -/

theorem step_of_offers {s : State} {e : BusEvent} {rest : List HostEvent} (h : offers s e rest) :
    step s = .next (perform e { s with queue := rest }) := by
  obtain ⟨flag, hq, hh⟩ := h
  exact step_of_queue hq hh

theorem step_read_register {s : State} {r : Reg} {rest : List HostEvent} (h : offers s (.read (regAddr r) .four) rest) :
    step s = .next { s with queue := rest, busReads := readReg s r :: s.busReads } := by
  obtain ⟨hlt, halign, hreg⟩ := regAddr_toNat r
  rw [step_of_offers h, perform, AccessSize.bytes, hostRead_register hlt halign hreg, readReg_withQueue]
  rfl

/-- While IDLE a write in REGS is performed at the offset of its address. -/
theorem step_write_register {s : State} {r : Reg} {v : Word} {rest : List HostEvent} (hidle : s.eng = none)
    (h : offers s (.write (regAddr r) .four v) rest) : step s = .next (writeReg v { s with queue := rest } r) := by
  obtain ⟨hlt, halign, hreg⟩ := regAddr_toNat r
  have hbusy : State.busy { s with queue := rest } = false := by rw [State.busy, hidle]; rfl
  rw [step_of_offers h, perform, AccessSize.bytes, hostWrite_register hlt halign]
  rcases writeOffset_idle (regAddr r).toNat v hbusy with ⟨r', hr', he⟩ | ⟨hr', -⟩
  · rw [hreg] at hr'; cases hr'
    rw [he]
  · rw [hreg] at hr'; cases hr'

/-- While IDLE a reserved offset ignores a write (R36). -/
theorem step_write_reserved {s : State} {a v : Word} {rest : List HostEvent} (hidle : s.eng = none) (hlo : 0x4C ≤ a.toNat)
    (hhi : a.toNat ≤ 0xFFC) (halign : a.toNat % 4 = 0) (h : offers s (.write a .four v) rest) :
    step s = .next { s with queue := rest } := by
  have hbusy : State.busy { s with queue := rest } = false := by rw [State.busy, hidle]; rfl
  rw [step_of_offers h, perform, AccessSize.bytes, hostWrite_register (by omega) halign]
  rcases writeOffset_idle a.toNat v hbusy with ⟨r, hr, -⟩ | ⟨-, he⟩
  · rw [regAt_reserved hlo] at hr; cases hr
  · rw [he]

/-! ## The obligations -/

/-- Settles O59: the completion of the word in flight keeps the invariant, and so does every event. -/
theorem stepKeepsTheInvariant : Obligations.StepKeepsTheInvariant := fun _ _ => step_keeps_inv

/-- Settles O58: the reset registers over no written byte and the default parameters. -/
theorem resetMeetsTheInvariant : Obligations.ResetMeetsTheInvariant :=
  resetRegisters_inv (s := State.reset) (by decide) rfl (fun _ hc => nomatch hc) Nat.zero_lt_one

/-- Settles O51: the bits of STATUS, one by one in the low byte, then in the two fields. -/
theorem statusLayout : Obligations.StatusLayout := by
  unfold Obligations.StatusLayout
  intro s
  simp only [statusWord_getLsbD]
  refine ⟨rfl, rfl, rfl, rfl, rfl, rfl, rfl, rfl, ?_, ?_⟩
  · apply BitVec.eq_of_getLsbD_eq
    intro k hk
    rw [BitVec.getLsbD_extractLsb', statusWord_getLsbD_high _ (by omega), if_pos (by omega), Nat.add_sub_cancel_left]
    simp [hk]
  · apply BitVec.eq_of_getLsbD_eq
    intro k hk
    rw [BitVec.getLsbD_extractLsb', statusWord_getLsbD_high _ (by omega), if_neg (by omega)]
    simp

/-- Settles O54: DONE is bit 1 of STATUS, and CTRL reads 1 exactly while IE is set. -/
theorem irqIsDoneAndEnabled : Obligations.IrqIsDoneAndEnabled := by
  unfold Obligations.IrqIsDoneAndEnabled
  refine ⟨fun s => ?_, rfl⟩
  have hctrl : readReg s .ctrl = 1 ↔ s.ctrlIE = true := by
    cases hie : s.ctrlIE <;> simp [readReg, State.ctrlWord, hie]
  rw [hctrl, statusWord_getLsbD, State.irq, Bool.and_eq_true]
  rfl

/-- Settles O46: a BPM write and PTEMPO both store a clamped value. -/
theorem bpmWriteIsClamped : Obligations.BpmWriteIsClamped := by
  unfold Obligations.BpmWriteIsClamped
  refine ⟨fun s v rest hidle hoff => ?_, fun s hlen => ?_, rfl⟩
  · obtain ⟨hlo, hhi⟩ := clampBpm_range v.toNat
    exact ⟨_, step_write_register (r := .bpm) hidle hoff, rfl, clampBpm_toNat _, hlo, hhi, rfl⟩
  · have hok : runOf .ptempo s = .ok { s with bpm := parseTempo s.text } := by
      simp [runOf, runPtempo, textTooLong, hlen]
    obtain ⟨hlo, hhi⟩ : 60 ≤ (parseTempo s.text).toNat ∧ (parseTempo s.text).toNat ≤ 200 := clampBpm_range _
    refine ⟨finishCommand { s with bpm := parseTempo s.text }, ?_, rfl, hlo, hhi⟩
    rw [exec_eq, hok]; rfl

/-- Settles O47: each address is a register's; a plain register takes the value written, a read-only one and a reserved offset
ignore it. -/
theorem plainRegistersReadBack : Obligations.PlainRegistersReadBack := by
  unfold Obligations.PlainRegistersReadBack
  intro s a v rest hidle
  refine ⟨fun ha hoff => ?_, fun ha hoff => ?_⟩
  · rw [← plainRegs_addresses] at ha
    obtain ⟨r, hr, rfl⟩ := List.mem_map.1 ha
    refine ⟨_, step_write_register hidle hoff, ?_, ?_, fun r' hr' => ?_⟩
    · fin_cases hr <;> rfl
    · rw [step_read_register (r := r) ⟨false, writeReg_queue hr _ _, .inr rfl⟩, readReg_writeReg hr, if_pos rfl]
    · rw [readReg_writeReg hr, if_neg fun h => hr' (congrArg regAddr h), readReg_withQueue]
  · rcases ha with ha | ⟨hlo, hhi, halign⟩
    · rw [← readOnlyRegs_addresses] at ha
      obtain ⟨r, hr, rfl⟩ := List.mem_map.1 ha
      rw [step_write_register hidle hoff, writeReg_readOnly hr]
    · exact step_write_reserved hidle hlo hhi halign hoff

end Sys2Proof.Claim
end

section
/-! PROOFS. The bus and the memories (20_memory.md): what a command reads and writes, accesses refused, dropped and performed: O6,
O12, O44, O45, O48, O49 and O60. -/

namespace Sys2Proof.Machine

/-! ## What a command reads -/

/-- A state without what no command reads and the host may change while one runs (R76): CTRL.IE, STATUS, and the model's own record
of the bus. -/
def State.operands (s : State) : State :=
  { s with ctrlIE := false, status := Status.clear, queue := [], busReads := [], draws := 0 }

theorem textTooLong_operands (s : State) : textTooLong s.operands = textTooLong s := rfl

theorem text_operands (s : State) : s.operands.text = s.text := rfl

theorem synthError_operands (s : State) : synthError s.operands = synthError s := rfl

theorem synthSamples_operands (s : State) : synthSamples s.operands = synthSamples s := rfl

theorem mixError_operands (s : State) (x : Wave) : mixError s.operands x = mixError s x := by cases x <;> rfl

theorem mixLength_operands (s : State) (x : Wave) : mixLength s.operands x = mixLength s x := by cases x <;> rfl

theorem mixSamples_operands (s : State) (x : Wave) : mixSamples s.operands x = mixSamples s x := by cases x <;> rfl

theorem len_operands (s : State) (src : Wave) : src.len s.operands = src.len s := by cases src <;> rfl

theorem encodeError_operands (s : State) (src : Wave) : encodeError s.operands src = encodeError s src := by cases src <;> rfl

theorem wavStream_operands (s : State) (src : Wave) : wavStream s.operands src = wavStream s src := by cases src <;> rfl

theorem runPtempo_operands (s : State) :
    (runPtempo s.operands).map State.operands = (runPtempo s).map State.operands := by
  unfold runPtempo
  rw [textTooLong_operands]
  split <;> rfl

theorem runPchord_operands (s : State) :
    (runPchord s.operands).map State.operands = (runPchord s).map State.operands := by
  unfold runPchord
  have hparams : s.operands.params = s.params := rfl
  rw [textTooLong_operands, text_operands, hparams]
  split
  · rfl
  · split <;> rfl

theorem runSynth_operands (s : State) :
    (runSynth s.operands).map State.operands = (runSynth s).map State.operands := by
  unfold runSynth
  rw [synthError_operands, synthSamples_operands]
  split <;> rfl

theorem runMix_operands (x : Wave) (s : State) :
    (runMix x s.operands).map State.operands = (runMix x s).map State.operands := by
  unfold runMix
  rw [mixError_operands, mixLength_operands, mixSamples_operands]
  split <;> rfl

theorem runEncode_operands (src : Wave) (s : State) :
    (runEncode src s.operands).map State.operands = (runEncode src s).map State.operands := by
  unfold runEncode
  rw [encodeError_operands, len_operands, wavStream_operands]
  split <;> rfl

/-- No command reads what `State.operands` leaves out: without it the same error is raised, or the same outputs are written. -/
theorem runOf_operands (i : Instr) (s : State) :
    (runOf i s.operands).map State.operands = (runOf i s).map State.operands := by
  cases i with
  | nop => rfl
  | ptempo => exact runPtempo_operands s
  | pchord => exact runPchord_operands s
  | synth => exact runSynth_operands s
  | mixI => exact runMix_operands .ibuf s
  | mixV => exact runMix_operands .vbuf s
  | encodeM => exact runEncode_operands .mbuf s
  | encodeV => exact runEncode_operands .vbuf s
  | encodeI => exact runEncode_operands .ibuf s

theorem runOf_congr (i : Instr) {s u : State} (h : s.operands = u.operands) :
    (runOf i s).map State.operands = (runOf i u).map State.operands := by
  rw [← runOf_operands i s, h, runOf_operands i u]

/-- Every ENGINE step goes on: no command faults or is refused (R217, R232). -/
theorem engineStep_goes_on (w : Word) (s : State) : ∃ t, engineStep w s = .next t := by
  rcases engineStep_cases w s with ⟨i, -, he⟩ | ⟨-, -, he⟩
  · exact ⟨_, he.trans (exec_eq i s)⟩
  · exact ⟨_, he⟩

/-! ## Registers and their offsets (R21) -/

/-- A register stands at one offset only. -/
theorem regAt_eq_some {offset : Nat} {r : Reg} (h : regAt offset = some r) : offset / 4 = regList.idxOf r := by
  obtain ⟨hlt, hr⟩ := List.getElem?_eq_some_iff.1 h
  have hnodup : regList.Nodup := by decide
  rw [← hr, hnodup.idxOf_getElem]

theorem eq_regAddr_of_regAt {a : Word} {r : Reg} (halign : a.toNat % 4 = 0) (h : regAt a.toNat = some r) : a = regAddr r := by
  have hidx := regAt_eq_some h
  have ha := a.isLt
  apply BitVec.eq_of_toNat_eq
  rw [regAddr, BitVec.toNat_ofNat]
  omega

/-- While BUSY a write of a whole register other than CTRL, STATUS and CMD, or of a reserved offset, is dropped with WBUSY
(R76, R36). -/
theorem writeOffset_busy_other {a : Word} {s : State} (v : Word) (hbusy : s.busy = true) (halign : a.toNat % 4 = 0)
    (hctrl : a ≠ regAddr .ctrl) (hstatus : a ≠ regAddr .status) (hcmd : a ≠ regAddr .cmd) :
    writeOffset a.toNat v s = s.setWbusy := by
  rcases writeOffset_busy_cases a.toNat v s hbusy with ⟨hr, -⟩ | ⟨hr, -⟩ | ⟨hr, -⟩ | ⟨-, -, -, he⟩
  · exact absurd (eq_regAddr_of_regAt halign hr) hctrl
  · exact absurd (eq_regAddr_of_regAt halign hr) hstatus
  · exact absurd (eq_regAddr_of_regAt halign hr) hcmd
  · exact he

/-- While BUSY a CMD write is dropped with OVR (R211). -/
theorem writeOffset_busy_cmd {s : State} (v : Word) (hbusy : s.busy = true) :
    writeOffset (regAddr .cmd).toNat v s = s.setOvr := by
  have hcmd : writeOffset (regAddr .cmd).toNat v s = writeCmd v s := rfl
  rw [hcmd, writeCmd, if_pos hbusy]

/-- A read of a whole register answers its value, at a reserved offset 0 (R36). -/
theorem hostRead_of_lt {a : Nat} (hlt : a < 0x1000) (halign : a % 4 = 0) (s : State) :
    ∃ v, hostRead a 4 s = s.answer v ∧ (∀ r, regAt a = some r → v = readReg s r) ∧ (regAt a = none → v = 0) := by
  cases hreg : regAt a with
  | none => exact ⟨0, hostRead_reserved hlt halign hreg s, by simp⟩
  | some r => exact ⟨readReg s r, hostRead_register hlt halign hreg s, by simp⟩

/-! ## Accesses that are refused, and accesses to memory -/

theorem hostRead_refused {a n : Nat} {s : State} (h : accessTarget s.params false a n = none) :
    hostRead a n s = s.setAddrErr.answer 0 := by
  rw [hostRead, h]

theorem hostWrite_refused {a n : Nat} {s : State} (v : Word) (h : accessTarget s.params true a n = none) :
    hostWrite a n v s = s.setAddrErr := by
  rw [hostWrite, h]

theorem hostWrite_memory {a n : Nat} {s : State} (v : Word) (h : accessTarget s.params true a n = some .memory) :
    hostWrite a n v s = writeMemory a n v s := by
  rw [hostWrite, h]

theorem hostRead_memory {a n : Nat} {s : State} (h : accessTarget s.params false a n = some .memory) :
    hostRead a n s = { s.answer (BitVec.ofNat 32 (natOfBytes (s.seenBytes a n))) with
      draws := if s.readsInFlight a n then s.draws + 1 else s.draws } := by
  rw [hostRead, h]

/-- Outside the running command's output range a read sees the current content (R75). -/
theorem seenBytes_of_not_inFlight {s : State} {a n : Nat} (h : ∀ k, k < n → s.inFlight (a + k) = false) :
    s.seenBytes a n = s.bytesAt a n := by
  refine List.map_congr_left fun k hk => ?_
  rw [State.seenByte, h k (List.mem_range.1 hk)]
  rfl

/-- A read outside the running command's output range uses no draw. -/
theorem readsInFlight_of_not_inFlight {s : State} {a n : Nat} (h : ∀ k, k < n → s.inFlight (a + k) = false) :
    s.readsInFlight a n = false :=
  List.any_eq_false.2 fun k hk => by simp [h k (List.mem_range.1 hk)]

theorem hostRead_memory_of_not_inFlight {a n : Nat} {s : State} (h : accessTarget s.params false a n = some .memory)
    (hout : ∀ k, k < n → s.inFlight (a + k) = false) :
    hostRead a n s = s.answer (BitVec.ofNat 32 (natOfBytes (s.bytesAt a n))) := by
  rw [hostRead_memory h, seenBytes_of_not_inFlight hout, readsInFlight_of_not_inFlight hout]
  rfl

/-- While IDLE no byte is in flight. -/
theorem inFlight_idle {s : State} (h : s.eng = none) (a : Nat) : s.inFlight a = false := by
  have hrange : s.inFlightRange = (0, 0) := by rw [State.inFlightRange, h]
  simp [State.inFlight, hrange]

/-! ## Bytes stored and read back -/

/-- The windows of the writable memories lie apart from PITCH (R61). -/
theorem not_pitch_of_ramAddress {p : Params} (hp : p.legal = true) {a : Nat} (h : ramAddress p a = true) :
    ¬(pitchBase ≤ a ∧ a < pitchBase + 96) := by
  obtain ⟨-, htext, -, hchord, -, -⟩ := legal_caps hp
  obtain ⟨w, hw, hin⟩ := List.any_eq_true.1 h
  simp only [Window.holds, Bool.and_eq_true, decide_eq_true_eq, bne_iff_ne] at hin
  obtain ⟨⟨hlo, hhi⟩, hbase⟩ := hin
  simp only [windows, textBase, ctabBase, pitchBase, vbufBase, ibufBase, mbufBase, wbufBase, List.mem_cons,
    List.not_mem_nil, or_false] at hw hbase ⊢
  rcases hw with rfl | rfl | rfl | rfl | rfl | rfl | rfl <;> simp only at hlo hhi hbase <;> omega

/-- Byte k of a number (R62). -/
theorem byteOfNat_toNat (v k : Nat) : (byteOfNat v k).toNat = v / 256 ^ k % 256 := by
  rw [byteOfNat, BitVec.toNat_ofNat, Nat.shiftRight_eq_div_pow, Nat.pow_mul]

/-- Byte k of a number that was stored outside PITCH. -/
theorem byteAt_writeBytesOfNat {s : State} {a n : Nat} (v : Nat) {k : Nat} (hk : k < n)
    (hp : ¬(pitchBase ≤ a + k ∧ a + k < pitchBase + 96)) :
    (s.writeBytes a (bytesOfNat n v)).byteAt (a + k) = byteOfNat v k := by
  rw [byteAt_writeBytes _ _ _ _ hp, bytesOfNat_length, if_pos (by omega), Nat.add_sub_cancel_left]
  simp [bytesOfNat, hk]

/-- A number that was stored outside PITCH reads back byte by byte. -/
theorem bytesAt_writeBytesOfNat {s : State} {a n : Nat} (v : Nat)
    (hp : ∀ k, k < n → ¬(pitchBase ≤ a + k ∧ a + k < pitchBase + 96)) :
    (s.writeBytes a (bytesOfNat n v)).bytesAt a n = bytesOfNat n v :=
  List.map_congr_left fun k hk => byteAt_writeBytesOfNat v (List.mem_range.1 hk) (hp k (List.mem_range.1 hk))

end Sys2Proof.Machine

namespace Sys2Proof.Claim

open Sys2Proof.Machine

/-! ## Refused accesses (R63, R65 to R69) -/

/-- The model refuses exactly the accesses that the rules refuse. -/
theorem refused_iff {p : Params} (hp : p.legal = true) (isWrite : Bool) (a : Nat) (size : AccessSize) :
    refused p isWrite a size.bytes ↔ accessTarget p isWrite a size.bytes = none := by
  have hparts : populatedParts p = (windows p).map fun w => (w.base, w.size) := rfl
  rw [accessTarget_none_iff hp isWrite size.bytes_pos, refused, populated, hparts]
  simp

/-- An access that is not refused is one of a whole register, or reaches memory. -/
theorem accessTarget_of_not_refused {p : Params} (hp : p.legal = true) {isWrite : Bool} {a : Nat} {size : AccessSize}
    (h : ¬refused p isWrite a size.bytes) :
    (a < 0x1000 ∧ size.bytes = 4 ∧ a % 4 = 0) ∨
    (0x1000 ≤ a ∧ accessTarget p isWrite a size.bytes = some .memory) := by
  rw [refused_iff hp] at h
  obtain ⟨target, htarget⟩ := Option.ne_none_iff_exists'.1 h
  rcases accessTarget_some htarget with ⟨hlt, hsize, halign, -⟩ | ⟨hge, rfl⟩
  · exact .inl ⟨hlt, hsize, halign⟩
  · exact .inr ⟨hge, htarget⟩

/-- What may be written may be read. -/
theorem not_refused_read_of_write {p : Params} {a n : Nat} (h : ¬refused p true a n) : ¬refused p false a n := by
  rintro (hr | hr | hr | ⟨hr, -⟩)
  · exact h (.inl hr)
  · exact h (.inr (.inl hr))
  · exact h (.inr (.inr (.inl hr)))
  · cases hr

/-- An access of a whole register that is not refused is performed at its offset. -/
theorem hostWrite_of_lt {a : Nat} {size : AccessSize} {s : State} (hp : s.params.legal = true)
    (h : ¬refused s.params true a size.bytes) (hlt : a < 0x1000) (v : Word) :
    hostWrite a size.bytes v s = writeOffset a v s := by
  rcases accessTarget_of_not_refused hp h with ⟨-, hsize, halign⟩ | ⟨hge, -⟩
  · rw [hsize, hostWrite_register hlt halign]
  · omega

/-- While BUSY a write that is not refused, and is not one of CTRL, STATUS or CMD, sets WBUSY and does nothing else (R76). -/
theorem hostWrite_busy_other {a : Word} {size : AccessSize} {s : State} (hp : s.params.legal = true) (hbusy : s.busy = true)
    (h : ¬refused s.params true a.toNat size.bytes) (hctrl : a ≠ regAddr .ctrl) (hstatus : a ≠ regAddr .status)
    (hcmd : a ≠ regAddr .cmd) (v : Word) : hostWrite a.toNat size.bytes v s = s.setWbusy := by
  rcases accessTarget_of_not_refused hp h with ⟨hlt, hsize, halign⟩ | ⟨-, htarget⟩
  · rw [hsize, hostWrite_register hlt halign, writeOffset_busy_other v hbusy halign hctrl hstatus hcmd]
  · rw [hostWrite_memory v htarget, writeMemory, if_pos hbusy]

/-- While IDLE a write of memory stores its bytes (R66, R70). -/
theorem step_write_memory_idle {s : State} {a : Word} {size : AccessSize} {v : Word} {rest : List HostEvent} (hidle : s.eng = none)
    (htarget : accessTarget s.params true a.toNat size.bytes = some .memory) (h : offers s (.write a size v) rest) :
    step s = .next (State.writeBytes { s with queue := rest } a.toNat (bytesOfNat size.bytes v.toNat)) := by
  have hbusy : State.busy { s with queue := rest } = false := by rw [State.busy, hidle]; rfl
  rw [step_of_offers h, perform, hostWrite_memory (s := { s with queue := rest }) v htarget, writeMemory, hbusy]
  rfl

/-- While IDLE a read of memory answers the current content (R70). -/
theorem step_read_memory_idle {s : State} {a : Word} {size : AccessSize} {rest : List HostEvent}
    (hqueue : s.queue = promptly (.read a size) :: rest) (hidle : s.eng = none)
    (htarget : accessTarget s.params false a.toNat size.bytes = some .memory) :
    step s = .next { s with
      queue := rest, busReads := BitVec.ofNat 32 (natOfBytes (s.bytesAt a.toNat size.bytes)) :: s.busReads } := by
  rw [step_of_queue hqueue (.inl hidle), perform,
    hostRead_memory_of_not_inFlight (s := { s with queue := rest }) htarget fun k _ => inFlight_idle hidle _]
  rfl

/-! ## What a command writes (R71) -/

/-- A state whose memory is another's after one write reads as before outside the block written. -/
theorem keepsBytesOutside_of_write {s t : State} {base len : Nat} {bytes : List Byte} (hm : t.mem = memWrite s.mem base bytes)
    (hp : t.params = s.params) (hd : t.powerOnDraw = s.powerOnDraw) (hlen : bytes.length = len) :
    keepsBytesOutside s t base len := fun a ha => by
  subst hlen
  rw [byteAt_congr (s := s.writeBytes base bytes) hm hp hd, byteAt_writeBytes_of_not_mem _ _ _ _ ha]

theorem keepsBytesOutside_of_mem_eq {s t : State} (hm : t.mem = s.mem) (hp : t.params = s.params)
    (hd : t.powerOnDraw = s.powerOnDraw) (base len : Nat) : keepsBytesOutside s t base len :=
  fun a _ => byteAt_congr hm hp hd a

/-- `t` differs from `s` in the outputs that R71 gives the command `i`, in STATUS and in ENG, now IDLE, at most. -/
def writesOnlyOutputs (i : Instr) (s t : State) : Prop :=
  keepsBytesOutside s t (outputBytes i s).1 (outputBytes i s).2 ∧
  t = { s with
    status := t.status, eng := none, mem := t.mem
    bpm := if i = .ptempo then t.bpm else s.bpm
    chordCount := if i = .pchord then t.chordCount else s.chordCount
    mbufLen := if i = .mixI ∨ i = .mixV then t.mbufLen else s.mbufLen
    mbufSr := if i = .mixI ∨ i = .mixV then t.mbufSr else s.mbufSr
    wavLen := if i = .encodeM ∨ i = .encodeV ∨ i = .encodeI then t.wavLen else s.wavLen }

/-- A completion with an error writes no output (R13, R232). -/
theorem failCommand_writesOnlyOutputs (i : Instr) (s : State) (e : CmdError) : writesOnlyOutputs i s (failCommand e s) := by
  refine ⟨keepsBytesOutside_of_mem_eq rfl rfl rfl _ _, ?_⟩
  simp only [failCommand_bpm, failCommand_chordCount, failCommand_mbufLen, failCommand_mbufSr, failCommand_wavLen, ite_self]
  rfl

theorem ptempo_writesOnlyOutputs (s : State) : writesOnlyOutputs .ptempo s (complete s (runPtempo s)) := by
  rcases runPtempo_cases s with he | hok
  · rw [he]; exact failCommand_writesOnlyOutputs _ s _
  · rw [hok]; exact ⟨keepsBytesOutside_of_mem_eq rfl rfl rfl _ _, rfl⟩

theorem pchord_writesOnlyOutputs (s : State) : writesOnlyOutputs .pchord s (complete s (runPchord s)) := by
  rcases runPchord_cases s with ⟨e, he⟩ | ⟨-, hok⟩
  · rw [he]; exact failCommand_writesOnlyOutputs _ s e
  · rw [hok]
    exact ⟨keepsBytesOutside_of_write rfl rfl rfl (wordBytes_length _), rfl⟩

theorem synth_writesOnlyOutputs (s : State) : writesOnlyOutputs .synth s (complete s (runSynth s)) := by
  rcases runSynth_cases s with ⟨e, -, he⟩ | ⟨-, hok⟩
  · rw [he]; exact failCommand_writesOnlyOutputs _ s e
  · rw [hok]
    have hlen : (wordBytes (synthSamples s)).length = 4 * s.ibufLen.toNat := by rw [wordBytes_length, synthSamples_length]
    exact ⟨keepsBytesOutside_of_write rfl rfl rfl hlen, rfl⟩

/-- The form of MIX is given by its operand; both write MBUF[0 .. N) (R171, R177). -/
theorem mix_writesOnlyOutputs {i : Instr} {x : Wave} (hi : i = .mixI ∨ i = .mixV) (s : State)
    (hout : outputBytes i s = (mbufBase, 4 * mixLength s x)) : writesOnlyOutputs i s (complete s (runMix x s)) := by
  rcases runMix_cases x s with ⟨e, -, he⟩ | ⟨-, hok⟩
  · rw [he]; exact failCommand_writesOnlyOutputs i s e
  · rw [hok]
    refine ⟨?_, by rcases hi with rfl | rfl <;> rfl⟩
    rw [hout]
    exact keepsBytesOutside_of_write rfl rfl rfl (by rw [wordBytes_length, mixSamples_length])

/-- The form of ENCODE is given by its source; each writes WBUF[0 .. 44 + 2N) (R196). -/
theorem encode_writesOnlyOutputs {i : Instr} {src : Wave} (hi : i = .encodeM ∨ i = .encodeV ∨ i = .encodeI) (s : State)
    (hout : outputBytes i s = (wbufBase, 44 + 2 * (src.len s).toNat)) :
    writesOnlyOutputs i s (complete s (runEncode src s)) := by
  rcases runEncode_cases src s with ⟨e, -, he⟩ | ⟨-, hok⟩
  · rw [he]; exact failCommand_writesOnlyOutputs i s e
  · rw [hok]
    refine ⟨?_, by rcases hi with rfl | rfl | rfl <;> rfl⟩
    rw [hout]
    exact keepsBytesOutside_of_write rfl rfl rfl (wavStream_length s src)

theorem complete_writesOnlyOutputs (i : Instr) (s : State) : writesOnlyOutputs i s (complete s (runOf i s)) := by
  cases i with
  | nop => exact ⟨keepsBytesOutside_of_mem_eq rfl rfl rfl _ _, rfl⟩
  | ptempo => exact ptempo_writesOnlyOutputs s
  | pchord => exact pchord_writesOnlyOutputs s
  | synth => exact synth_writesOnlyOutputs s
  | mixI => exact mix_writesOnlyOutputs (.inl rfl) s rfl
  | mixV =>
    have hself : mixLength s .vbuf = s.vbufLen.toNat := max_self _
    exact mix_writesOnlyOutputs (.inr rfl) s (by rw [hself]; rfl)
  | encodeM => exact encode_writesOnlyOutputs (.inl rfl) s rfl
  | encodeV => exact encode_writesOnlyOutputs (.inr (.inl rfl)) s rfl
  | encodeI => exact encode_writesOnlyOutputs (.inr (.inr rfl)) s rfl

/-! ## Events while a command runs (R76) -/

/-- Short of a reset, an event while a command is in flight reaches neither the command nor anything it reads. -/
theorem perform_operands {s : State} {e : BusEvent} (hbusy : s.busy = true) (he : isReset e = false) :
    (perform e s).operands = s.operands := by
  rcases perform_busy_cases e s hbusy with ⟨ie, st, reads, d, hp, -⟩ | ⟨-, v, rfl, hv⟩ | ⟨-, rfl⟩
  · rw [hp]; rfl
  · have hreset : isReset (.write 0x00000004 .four v) = v.getLsbD 1 := rfl
    rw [hreset, hv] at he
    cases he
  · cases he

theorem eng_eq_of_operands {s u : State} (h : s.operands = u.operands) : s.eng = u.eng :=
  (congrArg State.eng h : s.operands.eng = u.operands.eng)

theorem foldl_perform_operands {w : Word} (events : List BusEvent) (s : State) (heng : s.eng = some w)
    (hev : ∀ e ∈ events, isReset e = false) : (events.foldl (fun u e => perform e u) s).operands = s.operands := by
  induction events generalizing s with
  | nil => rfl
  | cons e rest ih =>
    have hstep : (perform e s).operands = s.operands :=
      perform_operands (by rw [State.busy, heng]; rfl) (hev e List.mem_cons_self)
    rw [List.foldl_cons, ih (perform e s) ((eng_eq_of_operands hstep).trans heng) fun e' he' => hev e' (List.mem_cons_of_mem e he')]
    exact hstep

/-! ## Results of completions -/

theorem sameResult_finishCommand {t u : State} (h : t.operands = u.operands) : sameResult (finishCommand t) (finishCommand u) := by
  have hdone := congrArg finishCommand h
  exact hdone

theorem sameResult_failCommand (e : CmdError) {t u : State} (h : t.operands = u.operands) :
    sameResult (failCommand e t) (failCommand e u) := by
  have hdone := congrArg (failCommand e) h
  exact hdone

/-- Two states with the same operands complete a command with the same result. -/
theorem sameResult_complete (i : Instr) {s u : State} (h : s.operands = u.operands) :
    sameResult (complete s (runOf i s)) (complete u (runOf i u)) := by
  have hrun := runOf_congr i h
  rcases complete_cases s (runOf i s) with ⟨t, hs, hcs⟩ | ⟨e, hs, hcs⟩ <;>
    rcases complete_cases u (runOf i u) with ⟨t', hu, hcu⟩ | ⟨e', hu, hcu⟩ <;>
    rw [hs, hu] at hrun <;> rw [hcs, hcu]
  · exact sameResult_finishCommand (Except.ok.inj hrun)
  · cases hrun
  · cases hrun
  · obtain rfl : e = e' := Except.error.inj hrun
    exact sameResult_failCommand e h

theorem sameResult_engineStep (w : Word) {s u : State} (h : s.operands = u.operands) :
    ∃ t t', engineStep w s = .next t ∧ engineStep w u = .next t' ∧ sameResult t t' := by
  unfold engineStep
  cases decodeWord w with
  | ok i => exact ⟨_, _, exec_eq i s, exec_eq i u, sameResult_complete i h⟩
  | error e => exact ⟨_, _, rfl, rfl, sameResult_failCommand .illegalCmd h⟩

/-! ## The obligations -/

/-- Settles O60: no event short of a reset touches the word in flight or what a command reads, and the result depends on these
alone. -/
theorem resultDependsOnAcceptanceAlone : Obligations.ResultDependsOnAcceptanceAlone := by
  unfold Obligations.ResultDependsOnAcceptanceAlone
  intro s w events heng hev
  have hsame := foldl_perform_operands events s heng hev
  exact ⟨(eng_eq_of_operands hsame).trans heng, sameResult_engineStep w hsame.symm⟩

/-- Settles O12: each command's successful completion writes one block and its own registers, any other completion STATUS and
ENG. -/
theorem commandsWriteOnlyTheirOutputs : Obligations.CommandsWriteOnlyTheirOutputs := by
  unfold Obligations.CommandsWriteOnlyTheirOutputs
  intro i s t h
  rw [exec_eq] at h
  cases h
  exact complete_writesOnlyOutputs i s

/-- Settles O44: what R69 refuses has no target, and an access without a target only sets ADDRERR. -/
theorem refusedAccessOnlySetsAddrErr : Obligations.RefusedAccessOnlySetsAddrErr := by
  unfold Obligations.RefusedAccessOnlySetsAddrErr
  intro s a size v rest hp
  refine ⟨fun href hoff => ?_, fun href hoff => ?_⟩
  · rw [step_of_offers hoff, perform, hostRead_refused (s := { s with queue := rest }) ((refused_iff hp false _ _).1 href)]
    rfl
  · rw [step_of_offers hoff, perform, hostWrite_refused (s := { s with queue := rest }) v ((refused_iff hp true _ _).1 href)]
    rfl

/-- Settles O45: CTRL, STATUS and CMD each at its offset, then everything else. -/
theorem busyWritesAreDropped : Obligations.BusyWritesAreDropped := by
  unfold Obligations.BusyWritesAreDropped
  intro s w a size v rest hp heng href hoff
  have hbusy : State.busy { s with queue := rest } = true := by rw [State.busy, heng]; rfl
  rw [step_of_offers hoff, perform]
  refine ⟨?_, ?_, ?_, fun hctrl hstatus hcmd => ?_⟩
  · rintro rfl
    rw [hostWrite_of_lt (s := { s with queue := rest }) hp href (by decide)]
    rfl
  · rintro rfl
    rw [hostWrite_of_lt (s := { s with queue := rest }) hp href (by decide)]
    rfl
  · rintro rfl
    rw [hostWrite_of_lt (s := { s with queue := rest }) hp href (by decide)]
    exact congrArg _ (writeOffset_busy_cmd v hbusy)
  · rw [hostWrite_busy_other (s := { s with queue := rest }) hp hbusy href hctrl hstatus hcmd]
    rfl

/-- Settles O48: the write stores its bytes outside PITCH and the read, with no byte in flight, answers them. -/
theorem memoryWriteThenRead : Obligations.MemoryWriteThenRead := by
  unfold Obligations.MemoryWriteThenRead
  intro s a size v rest hp hidle hge href hoff
  obtain ⟨hlt, -⟩ | ⟨-, hwrite⟩ := accessTarget_of_not_refused hp href
  · omega
  obtain ⟨hlt, -⟩ | ⟨-, hread⟩ := accessTarget_of_not_refused hp (not_refused_read_of_write href)
  · omega
  have hpitch : ∀ k, k < size.bytes → ¬(pitchBase ≤ a.toNat + k ∧ a.toNat + k < pitchBase + 96) := fun k hk =>
    not_pitch_of_ramAddress hp (ramBlock_of_hostWrite hwrite _ (by omega) (by omega))
  obtain ⟨t, ht⟩ : ∃ t, t = State.writeBytes { s with queue := promptly (.read a size) :: rest } a.toNat
    (bytesOfNat size.bytes v.toNat) := ⟨_, rfl⟩
  have hbytes : t.bytesAt a.toNat size.bytes = bytesOfNat size.bytes v.toNat := by rw [ht, bytesAt_writeBytesOfNat _ hpitch]
  refine ⟨t, ?_, ?_, ?_, fun k hk => ?_, ?_⟩
  · rw [step_write_memory_idle hidle hwrite hoff, ht]
  · rw [ht]; rfl
  · exact keepsBytesOutside_of_write (by rw [ht]; rfl) (by rw [ht]; rfl) (by rw [ht]; rfl) (bytesOfNat_length _ v.toNat)
  · rw [ht, byteAt_writeBytesOfNat _ hk (hpitch k hk), byteOfNat_toNat]
  · rw [step_read_memory_idle (s := t) (by rw [ht]; rfl) (by rw [ht]; exact hidle) (by rw [ht]; exact hread), hbytes,
      natOfBytes_bytesOfNat]

/-- Settles O49: a whole register answers its value or, at a reserved offset, 0; memory answers its bytes. -/
theorem readsAnswerAndChangeNothing : Obligations.ReadsAnswerAndChangeNothing := by
  unfold Obligations.ReadsAnswerAndChangeNothing
  intro s a size rest hp href hoff
  rw [step_of_offers hoff, perform]
  rcases accessTarget_of_not_refused hp href with ⟨hlt, hsize, halign⟩ | ⟨hge, htarget⟩
  · obtain ⟨v, he, hreg, hreserved⟩ := hostRead_of_lt hlt halign { s with queue := rest }
    rw [hsize, he]
    refine ⟨_, v, rfl, rfl, rfl, rfl, fun hge => by omega, fun r hr => ?_, fun hge _ => hreserved (regAt_reserved hge)⟩
    subst hr
    rw [hreg r (regAddr_toNat r).2.2, readReg_withQueue]
  · rw [hostRead_memory (s := { s with queue := rest }) htarget]
    refine ⟨_, _, rfl, rfl, rfl, rfl, fun _ hout => ?_, fun r hr => ?_, fun _ hlt => by omega⟩
    · rw [seenBytes_of_not_inFlight (s := { s with queue := rest }) hout]
      rfl
    · have hlt := (regAddr_toNat r).1
      rw [← hr] at hlt
      omega

/-- Settles O6: a completion goes on, and so does every event. -/
theorem everyStepGoesOn : Obligations.EveryStepGoesOn := by
  unfold Obligations.EveryStepGoesOn
  intro s
  rcases step_cases s with ⟨w, -, -, he⟩ | ⟨-, he⟩
  · rw [he]; exact engineStep_goes_on w s
  · exact ⟨_, he⟩

end Sys2Proof.Claim
end

section
/-! PROOFS. The command word (30_encoding.md) and the words of the PITCH window: O1, O2, O3 and O50. -/

namespace Sys2Proof

/-! ## A word and its fields (R90) -/

/-- The three fields make up the whole word: no bit is lost. -/
theorem wordOf_fieldsOf (w : Word) : wordOf (fieldsOf w) = w := by
  have hhigh : w.extractLsb' 10 22 ++ w.extractLsb' 8 2 = w.extractLsb' 8 24 :=
    BitVec.extractLsb'_append_extractLsb'_eq_extractLsb' rfl
  have hword : w.extractLsb' 8 24 ++ w.extractLsb' 0 8 = w.extractLsb' 0 32 :=
    BitVec.extractLsb'_append_extractLsb'_eq_extractLsb' rfl
  rw [wordOf, fieldsOf, hhigh, hword, BitVec.extractLsb'_eq_self]

theorem fieldsOf_wordOf (f : CommandFields) : fieldsOf (wordOf f) = f := by
  have hsel : (f.rsv ++ f.sel ++ f.op).extractLsb' 8 2 = f.sel := by
    rw [BitVec.extractLsb'_append_eq_of_le le_rfl, Nat.sub_self, BitVec.extractLsb'_append_eq_right]
  have hrsv : (f.rsv ++ f.sel ++ f.op).extractLsb' 10 22 = f.rsv := by
    rw [BitVec.extractLsb'_append_eq_of_le (by decide), BitVec.extractLsb'_append_eq_left]
  rw [wordOf, fieldsOf, BitVec.extractLsb'_append_eq_right, hsel, hrsv]

theorem fieldsOf_eq_iff (w : Word) (f : CommandFields) : fieldsOf w = f ↔ w = wordOf f :=
  ⟨fun h => by rw [← h, wordOf_fieldsOf], fun h => by rw [h, fieldsOf_wordOf]⟩

theorem fieldsOf_op_toNat (w : Word) : (fieldsOf w).op.toNat = w.toNat % 256 := by
  rw [fieldsOf, BitVec.extractLsb'_toNat, Nat.shiftRight_zero]

theorem fieldsOf_sel_toNat (w : Word) : (fieldsOf w).sel.toNat = w.toNat / 256 % 4 := by
  rw [fieldsOf, BitVec.extractLsb'_toNat, Nat.shiftRight_eq_div_pow]

theorem fieldsOf_rsv_toNat (w : Word) : (fieldsOf w).rsv.toNat = w.toNat / 1024 := by
  have hw := w.isLt
  rw [fieldsOf, BitVec.extractLsb'_toNat, Nat.shiftRight_eq_div_pow, Nat.mod_eq_of_lt (by omega)]

/-! ## Well-formed fields (R91, R92, R94) -/

theorem opKnown_iff (op : BitVec 8) :
    opKnown op = true ↔ op = 0x00 ∨ op = 0x01 ∨ op = 0x02 ∨ op = 0x10 ∨ op = 0x20 ∨ op = 0x30 := by
  simp only [opKnown, Bool.or_eq_true, beq_iff_eq, or_assoc]

theorem opKnown_iff_toNat (op : BitVec 8) : opKnown op = true ↔ op.toNat ∈ [0x00, 0x01, 0x02, 0x10, 0x20, 0x30] := by
  simp [opKnown_iff, ← BitVec.toNat_inj]

theorem wellFormed_iff (f : CommandFields) :
    f.wellFormed = true ↔ f.rsv = 0 ∧ opKnown f.op = true ∧ selLegal f.op f.sel = true := by
  simp only [CommandFields.wellFormed, Bool.and_eq_true, beq_iff_eq, and_assoc]

/-- The selects that are illegal for a known operation, as R94 lists them. -/
theorem selLegal_eq_false_iff {op : BitVec 8} (h : opKnown op = true) (sel : BitVec 2) :
    selLegal op sel = false ↔
      (op.toNat ∈ [0x00, 0x01, 0x02, 0x10] ∧ sel.toNat ≠ 0) ∨ (op.toNat = 0x20 ∧ sel.toNat / 2 = 1) ∨
      (op.toNat = 0x30 ∧ sel.toNat = 3) := by
  rcases (opKnown_iff op).1 h with rfl | rfl | rfl | rfl | rfl | rfl <;> revert sel <;> decide

/-- R94's list of what makes fields ill formed. -/
theorem wellFormed_eq_false_iff (f : CommandFields) :
    f.wellFormed = false ↔
      f.op.toNat ∉ [0x00, 0x01, 0x02, 0x10, 0x20, 0x30] ∨ f.rsv.toNat ≠ 0 ∨
      (f.op.toNat ∈ [0x00, 0x01, 0x02, 0x10] ∧ f.sel.toNat ≠ 0) ∨ (f.op.toNat = 0x20 ∧ f.sel.toNat / 2 = 1) ∨
      (f.op.toNat = 0x30 ∧ f.sel.toNat = 3) := by
  have hrsv : f.rsv = 0 ↔ f.rsv.toNat = 0 := BitVec.toNat_inj.symm
  rw [← Bool.not_eq_true, wellFormed_iff, ← opKnown_iff_toNat, hrsv]
  by_cases hop : opKnown f.op = true
  · rw [← selLegal_eq_false_iff hop, ← Bool.not_eq_true]
    tauto
  · simp [hop]

/-! ## Decoding of fields -/

theorem decodeFields_fields (i : Instr) : decodeFields i.fields = .ok i := by cases i <;> rfl

theorem wellFormed_fields (i : Instr) : i.fields.wellFormed = true := by cases i <;> rfl

/-- Well-formed fields are a row of the opcode map. -/
theorem exists_fields_of_wellFormed {f : CommandFields} (h : f.wellFormed = true) : ∃ i : Instr, f = i.fields := by
  obtain ⟨op, sel, rsv⟩ := f
  obtain ⟨hrsv, hop, hsel⟩ := (wellFormed_iff _).1 h
  simp only at hrsv hop hsel
  subst hrsv
  rcases (opKnown_iff op).1 hop with rfl | rfl | rfl | rfl | rfl | rfl
  · exact ⟨.nop, by simpa [selLegal, Instr.fields] using hsel⟩
  · exact ⟨.ptempo, by simpa [selLegal, Instr.fields] using hsel⟩
  · exact ⟨.pchord, by simpa [selLegal, Instr.fields] using hsel⟩
  · exact ⟨.synth, by simpa [selLegal, Instr.fields] using hsel⟩
  · obtain rfl | rfl : sel = 0 ∨ sel = 1 := by simpa [selLegal] using hsel
    exacts [⟨.mixI, rfl⟩, ⟨.mixV, rfl⟩]
  · obtain rfl | rfl | rfl : sel = 0 ∨ sel = 1 ∨ sel = 2 := by simpa [selLegal, or_assoc] using hsel
    exacts [⟨.encodeM, rfl⟩, ⟨.encodeV, rfl⟩, ⟨.encodeI, rfl⟩]

theorem decodeNoSelect_eq_ok {i j : Instr} {sel : BitVec 2} (h : decodeNoSelect j sel = .ok i) : sel = 0 ∧ j = i := by
  unfold decodeNoSelect at h
  split_ifs at h with h0
  exact ⟨h0, Except.ok.inj h⟩

theorem decodeMix_eq_ok {i : Instr} {sel : BitVec 2} (h : decodeMix sel = .ok i) :
    (sel = 0 ∧ .mixI = i) ∨ (sel = 1 ∧ .mixV = i) := by
  unfold decodeMix at h
  split_ifs at h with h0 h1
  · exact .inl ⟨h0, Except.ok.inj h⟩
  · exact .inr ⟨h1, Except.ok.inj h⟩

theorem decodeEncode_eq_ok {i : Instr} {sel : BitVec 2} (h : decodeEncode sel = .ok i) :
    (sel = 0 ∧ .encodeM = i) ∨ (sel = 1 ∧ .encodeV = i) ∨ (sel = 2 ∧ .encodeI = i) := by
  unfold decodeEncode at h
  split_ifs at h with h0 h1 h2
  · exact .inl ⟨h0, Except.ok.inj h⟩
  · exact .inr (.inl ⟨h1, Except.ok.inj h⟩)
  · exact .inr (.inr ⟨h2, Except.ok.inj h⟩)

/-- Fields that decode to a command are that command's row of the opcode map. -/
theorem eq_fields_of_decodeFields {f : CommandFields} {i : Instr} (h : decodeFields f = .ok i) : f = i.fields := by
  obtain ⟨op, sel, rsv⟩ := f
  unfold decodeFields at h
  split_ifs at h with hrsv hop hop hop hop hop hop <;> obtain rfl : rsv = 0 := not_not.1 hrsv <;> obtain rfl := hop
  iterate 4
    · obtain ⟨rfl, rfl⟩ := decodeNoSelect_eq_ok h
      rfl
  · rcases decodeMix_eq_ok h with ⟨rfl, rfl⟩ | ⟨rfl, rfl⟩ <;> rfl
  · rcases decodeEncode_eq_ok h with ⟨rfl, rfl⟩ | ⟨rfl, rfl⟩ | ⟨rfl, rfl⟩ <;> rfl

theorem decodeFields_eq_ok_iff (f : CommandFields) (i : Instr) : decodeFields f = .ok i ↔ f = i.fields :=
  ⟨eq_fields_of_decodeFields, fun h => by rw [h, decodeFields_fields]⟩

/-- Decoding rejects exactly the ill-formed fields. -/
theorem decodeFields_error_iff (f : CommandFields) : (∃ e, decodeFields f = .error e) ↔ f.wellFormed = false := by
  cases hd : decodeFields f with
  | ok i => simp [eq_fields_of_decodeFields hd, wellFormed_fields]
  | error e =>
    have hf : f.wellFormed ≠ true := fun hf => by
      obtain ⟨i, rfl⟩ := exists_fields_of_wellFormed hf
      rw [decodeFields_fields] at hd
      cases hd
    simpa using hf

/-! ## Decoding of words (R91, R94) -/

/-- The opcode map both ways: a word decodes to a command exactly if it is that command's word. -/
theorem decodeWord_eq_ok_iff (w : Word) (i : Instr) : decodeWord w = .ok i ↔ w = encode i := by
  rw [decodeWord, decodeFields_eq_ok_iff, fieldsOf_eq_iff, encode]

theorem decodeWord_error_of_ne_encode {w : Word} (h : ∀ i, w ≠ encode i) : ∃ e, decodeWord w = .error e := by
  cases hd : decodeWord w with
  | error e => exact ⟨e, rfl⟩
  | ok i => exact absurd ((decodeWord_eq_ok_iff w i).1 hd) (h i)

/-- The rejected words, by their bits (R94). -/
theorem decodeWord_error_iff (w : Word) :
    (∃ e, decodeWord w = .error e) ↔
      w.toNat % 256 ∉ [0x00, 0x01, 0x02, 0x10, 0x20, 0x30] ∨ w.toNat / 1024 ≠ 0 ∨
      (w.toNat % 256 ∈ [0x00, 0x01, 0x02, 0x10] ∧ w.toNat / 256 % 4 ≠ 0) ∨
      (w.toNat % 256 = 0x20 ∧ w.toNat / 512 % 2 = 1) ∨ (w.toNat % 256 = 0x30 ∧ w.toNat / 256 % 4 = 3) := by
  have hbit9 : w.toNat / 512 % 2 = w.toNat / 256 % 4 / 2 := by omega
  rw [decodeWord, decodeFields_error_iff, wellFormed_eq_false_iff, fieldsOf_op_toNat, fieldsOf_sel_toNat, fieldsOf_rsv_toNat,
    hbit9]

/-! ## Words and their bytes (R62) -/

theorem byteOfNat_toNat_eq_extractLsb' {n : Nat} (x : BitVec n) (k : Nat) : byteOfNat x.toNat k = x.extractLsb' (8 * k) 8 := rfl

/-- A word's four bytes in address order make the word again. -/
theorem wordOfBytes_extractLsb' (w : Word) :
    wordOfBytes (w.extractLsb' 0 8) (w.extractLsb' 8 8) (w.extractLsb' 16 8) (w.extractLsb' 24 8) = w := by
  have h2 : w.extractLsb' 24 8 ++ w.extractLsb' 16 8 = w.extractLsb' 16 16 :=
    BitVec.extractLsb'_append_extractLsb'_eq_extractLsb' rfl
  have h1 : w.extractLsb' 16 16 ++ w.extractLsb' 8 8 = w.extractLsb' 8 24 :=
    BitVec.extractLsb'_append_extractLsb'_eq_extractLsb' rfl
  have h0 : w.extractLsb' 8 24 ++ w.extractLsb' 0 8 = w.extractLsb' 0 32 :=
    BitVec.extractLsb'_append_extractLsb'_eq_extractLsb' rfl
  rw [wordOfBytes, h2, h1, h0, BitVec.extractLsb'_eq_self]

theorem decodeBytes_bytesOfNat (w : Word) : decodeBytes (bytesOfNat 4 w.toNat) = decodeWord w :=
  congrArg decodeWord (wordOfBytes_extractLsb' w)

theorem decodeBytes_encodeBytes (i : Instr) : decodeBytes (encodeBytes i) = .ok i := by
  rw [encodeBytes, decodeBytes_bytesOfNat, decodeWord_eq_ok_iff]

/-- Byte k of the word that starts at byte j of a longer vector is the vector's byte j + k. -/
theorem byteOfNat_extractLsb' {n : Nat} (x : BitVec n) (j : Nat) {k : Nat} (hk : k < 4) :
    byteOfNat (x.extractLsb' (8 * j) 32).toNat k = byteOfNat x.toNat (j + k) := by
  rw [byteOfNat_toNat_eq_extractLsb', byteOfNat_toNat_eq_extractLsb']
  ext b hb
  have hlt : 8 * k + b < 32 := by omega
  simp [hlt, Nat.mul_add, Nat.add_assoc]

end Sys2Proof

namespace Sys2Proof.Machine

/-! ## The PITCH window (R40, R98) -/

/-- Byte k of entry n of the pitch table, in every state. -/
theorem byteAt_pitch (s : State) {n k : Nat} (hn : n < 12) (hk : k < 8) :
    s.byteAt (pitchBase + 8 * n + k) = byteOfNat (s.pitchHz n).toNat k := by
  have hentry : (pitchBase + 8 * n + k - pitchBase) / 8 = n := by omega
  have hbyte : (pitchBase + 8 * n + k - pitchBase) % 8 = k := by omega
  rw [State.byteAt, if_pos (by omega), pitchByte, hentry, hbyte, State.pitchHz]

/-- The word at byte j of entry n, j = 0 or 4, is bits [8j + 31 : 8j] of the entry. -/
theorem wordAt_pitch (s : State) {n j : Nat} (hn : n < 12) (hj : j ≤ 4) :
    s.wordAt (pitchBase + 8 * n + j) = (s.pitchHz n).extractLsb' (8 * j) 32 :=
  wordAt_of_bytes s _ _ fun k hk => by rw [Nat.add_assoc, byteAt_pitch s hn (by omega), byteOfNat_extractLsb' _ _ hk]

/-! ## ILLEGAL words (R94, R210, R212) -/

/-- An idle ENGINE accepts any word written to CMD. -/
theorem writeOffset_cmd_idle (w : Word) {s : State} (h : s.eng = none) : writeOffset 0x00C w s = issue w s := by
  have hcmd : writeOffset 0x00C w s = writeCmd w s := rfl
  have hidle : s.busy = false := by rw [State.busy, h]; rfl
  rw [hcmd, writeCmd, hidle]
  rfl

theorem engineStep_of_error {w : Word} {e : Illegal} (h : decodeWord w = .error e) (s : State) :
    engineStep w s = .next (failCommand .illegalCmd s) := by
  rw [engineStep, h]
  rfl

end Sys2Proof.Machine

namespace Sys2Proof.Claim

open Sys2Proof.Machine

/-! ## The obligations -/

/-- Settles O1: the nine words are the encodings of the nine commands. -/
theorem decodeIsTheOpcodeMap : Obligations.DecodeIsTheOpcodeMap := by
  unfold Obligations.DecodeIsTheOpcodeMap
  intro w
  refine ⟨decodeWord_eq_ok_iff w .nop, decodeWord_eq_ok_iff w .ptempo, decodeWord_eq_ok_iff w .pchord,
    decodeWord_eq_ok_iff w .synth, decodeWord_eq_ok_iff w .mixI, decodeWord_eq_ok_iff w .mixV,
    decodeWord_eq_ok_iff w .encodeM, decodeWord_eq_ok_iff w .encodeV, decodeWord_eq_ok_iff w .encodeI, fun hw => ?_⟩
  refine decodeWord_error_of_ne_encode fun i hi => hw ?_
  rw [hi]
  cases i <;> decide

/-- Settles O2: decoding rejects the ill-formed fields, whose bits R94 lists; CMD takes any word while IDLE, and the completion of
a rejected one is ILLEGAL_CMD. -/
theorem illegalWordsAreTheListedOnes : Obligations.IllegalWordsAreTheListedOnes := by
  unfold Obligations.IllegalWordsAreTheListedOnes
  intro w
  refine ⟨decodeWord_error_iff w, ?_⟩
  rintro ⟨e, he⟩ s
  exact ⟨fun hidle => by rw [writeOffset_cmd_idle w hidle, issue_eng], engineStep_of_error he s⟩

/-- Settles O3: an encoding's bytes make its word again, which decodes to the command; the words written out are evaluated. -/
theorem writtenOutWordsDecode : Obligations.WrittenOutWordsDecode := by
  unfold Obligations.WrittenOutWordsDecode
  exact ⟨decodeBytes_encodeBytes, by decide⟩

/-- Settles O50: the two words of an entry are its low and its high half. -/
theorem pitchWindowReadsTheTable : Obligations.PitchWindowReadsTheTable := by
  unfold Obligations.PitchWindowReadsTheTable
  have hwords : ∀ (s : State) (n : Nat), n < 12 →
      s.wordAt (0x00003000 + 8 * n) = (s.params.pitch.toList.getD n 0).extractLsb' 0 32 ∧
      s.wordAt (0x00003004 + 8 * n) = (s.params.pitch.toList.getD n 0).extractLsb' 32 32 := fun s n hn => by
    refine ⟨wordAt_pitch s (j := 0) hn (by decide), ?_⟩
    rw [show 0x00003004 + 8 * n = pitchBase + 8 * n + 4 by rw [pitchBase]; omega]
    exact wordAt_pitch s (j := 4) hn le_rfl
  refine ⟨hwords, fun s hentry => ?_⟩
  obtain ⟨hlow, hhigh⟩ := hwords s 9 (by decide)
  rw [hentry] at hlow hhigh
  exact ⟨hlow, hhigh⟩

end Sys2Proof.Claim
end

section
/-! PROOFS. The parser (41_parser.md): characters, tokens, roots and qualities, the tempo, and the two commands: O13 to O22. -/

namespace Sys2Proof.Machine

/-! ## Characters (R111, R117) -/

theorem isDigit_iff (b : Byte) : isDigit b = true ↔ 0x30 ≤ b.toNat ∧ b.toNat ≤ 0x39 := decide_eq_true_iff

/-- The whitespace range of R111, byte by byte. -/
theorem whitespaceRange_iff (b : Byte) :
    (0x09 ≤ b.toNat ∧ b.toNat ≤ 0x0D) ↔ b ∈ ([0x09, 0x0A, 0x0B, 0x0C, 0x0D] : List Byte) := by
  simp only [List.mem_cons, List.not_mem_nil, or_false, ← BitVec.toNat_inj, BitVec.reduceToNat]
  omega

/-! ## Tokens (R112) -/

/-- Non-delimiters extend the token that is being read. -/
theorem tokensFrom_run {run : List Byte} (h : ∀ b ∈ run, isDelimiter b = false) (cur rest : List Byte) :
    tokensFrom cur (run ++ rest) = tokensFrom (cur ++ run) rest := by
  induction run generalizing cur with
  | nil => rw [List.nil_append, List.append_nil]
  | cons b run ih =>
    obtain ⟨hb, hrun⟩ := List.forall_mem_cons.1 h
    rw [List.cons_append, tokensFrom, hb, if_neg Bool.false_ne_true, ih hrun, List.append_assoc, List.singleton_append]

/-- Between tokens, delimiters are skipped. -/
theorem tokensFrom_nil_delimiters {ds : List Byte} (h : ∀ b ∈ ds, isDelimiter b = true) (rest : List Byte) :
    tokensFrom [] (ds ++ rest) = tokensFrom [] rest := by
  induction ds with
  | nil => rfl
  | cons b ds ih =>
    obtain ⟨hb, hds⟩ := List.forall_mem_cons.1 h
    rw [List.cons_append, tokensFrom, if_pos hb, if_pos rfl, ih hds]

/-- Delimiters end the token that is being read. -/
theorem tokensFrom_end {cur ds : List Byte} (hcur : cur ≠ []) (hne : ds ≠ []) (h : ∀ b ∈ ds, isDelimiter b = true)
    (rest : List Byte) : tokensFrom cur (ds ++ rest) = cur :: tokensFrom [] rest := by
  cases ds with
  | nil => exact absurd rfl hne
  | cons b ds =>
    obtain ⟨hb, hds⟩ := List.forall_mem_cons.1 h
    rw [List.cons_append, tokensFrom, if_pos hb, if_neg hcur, tokensFrom_nil_delimiters hds]

/-- A text without a delimiter is one token, if it is not empty. -/
theorem tokens_run {run : List Byte} (h : ∀ b ∈ run, isDelimiter b = false) :
    tokens run = if run = [] then [] else [run] := by
  have hrun := tokensFrom_run h [] []
  rwa [List.append_nil] at hrun

/-- A non-empty run of non-delimiters and the delimiters that follow it, at least one. -/
def IsPart (p : List Byte × List Byte) : Prop :=
  p.1 ≠ [] ∧ (∀ b ∈ p.1, isDelimiter b = false) ∧ p.2 ≠ [] ∧ (∀ b ∈ p.2, isDelimiter b = true)

/-- A run and the delimiters after it are one token. -/
theorem IsPart.tokens_append {p : List Byte × List Byte} (h : IsPart p) (rest : List Byte) :
    tokens (p.1 ++ p.2 ++ rest) = p.1 :: tokens rest := by
  obtain ⟨hne, hrun, hdne, hd⟩ := h
  rw [tokens, List.append_assoc, tokensFrom_run hrun, List.nil_append, tokensFrom_end hne hdne hd, tokens]

/-- A longer run is a run. -/
theorem IsPart.cons {p : List Byte × List Byte} (h : IsPart p) {b : Byte} (hb : isDelimiter b = false) :
    IsPart (b :: p.1, p.2) := by
  obtain ⟨-, hrun, hd⟩ := h
  exact ⟨List.cons_ne_nil _ _, List.forall_mem_cons.2 ⟨hb, hrun⟩, hd⟩

/-- The form of a text that R112 speaks of: leading delimiters, runs each followed by delimiters, perhaps a last run. -/
def Separated (lead last : List Byte) (parts : List (List Byte × List Byte)) : Prop :=
  (∀ b ∈ lead, isDelimiter b = true) ∧ (∀ b ∈ last, isDelimiter b = false) ∧ ∀ p ∈ parts, IsPart p

/-- The text that has such a form. -/
def joined (lead last : List Byte) (parts : List (List Byte × List Byte)) : List Byte :=
  lead ++ parts.flatMap (fun p => p.1 ++ p.2) ++ last

theorem joined_nil_cons (last : List Byte) (p : List Byte × List Byte) (parts : List (List Byte × List Byte)) :
    joined [] last (p :: parts) = p.1 ++ p.2 ++ joined [] last parts := by
  simp [joined]

/-- Leading delimiters are no part of a token. -/
theorem tokens_joined_lead {lead : List Byte} (h : ∀ b ∈ lead, isDelimiter b = true) (last : List Byte)
    (parts : List (List Byte × List Byte)) : tokens (joined lead last parts) = tokens (joined [] last parts) := by
  rw [joined, List.append_assoc]
  exact tokensFrom_nil_delimiters h _

theorem tokens_joined {lead last : List Byte} {parts : List (List Byte × List Byte)} (h : Separated lead last parts) :
    tokens (joined lead last parts) = parts.map Prod.fst ++ (if last = [] then [] else [last]) := by
  obtain ⟨hlead, hlast, hparts⟩ := h
  rw [tokens_joined_lead hlead]
  induction parts with
  | nil => exact tokens_run hlast
  | cons p parts ih =>
    obtain ⟨hp, hrest⟩ := List.forall_mem_cons.1 hparts
    rw [joined_nil_cons, hp.tokens_append, ih hrest, List.map_cons, List.cons_append]

/-- A byte before a separated text joins the delimiters or the run that the text begins with, or is a run of its own. -/
theorem exists_separated (text : List Byte) :
    ∃ lead last parts, Separated lead last parts ∧ text = joined lead last parts := by
  have hnil : ∀ c ∈ ([] : List Byte), isDelimiter c = true := by simp
  induction text with
  | nil => exact ⟨[], [], [], ⟨hnil, by simp, by simp⟩, rfl⟩
  | cons b text ih =>
    obtain ⟨lead, last, parts, ⟨hlead, hlast, hparts⟩, rfl⟩ := ih
    cases hb : isDelimiter b with
    | true => exact ⟨b :: lead, last, parts, ⟨List.forall_mem_cons.2 ⟨hb, hlead⟩, hlast, hparts⟩, rfl⟩
    | false =>
      cases lead with
      | cons d lead =>
        have hpart : IsPart ([b], d :: lead) := ⟨by simp, by simpa using hb, by simp, hlead⟩
        exact ⟨[], last, ([b], d :: lead) :: parts, ⟨hnil, hlast, List.forall_mem_cons.2 ⟨hpart, hparts⟩⟩, by simp [joined]⟩
      | nil =>
        cases parts with
        | nil => exact ⟨[], b :: last, [], ⟨hnil, List.forall_mem_cons.2 ⟨hb, hlast⟩, hparts⟩, rfl⟩
        | cons p parts =>
          obtain ⟨hp, hrest⟩ := List.forall_mem_cons.1 hparts
          exact ⟨[], last, (b :: p.1, p.2) :: parts, ⟨hnil, hlast, List.forall_mem_cons.2 ⟨hp.cons hb, hrest⟩⟩,
            by simp [joined]⟩

/-! ## Roots and qualities (R113 to R116) -/

theorem tokenEntry_eq_none_iff (t : List Byte) : tokenEntry t = none ↔ tokenRoot t = none := Option.map_eq_none_iff

theorem containsMaj_iff (t : List Byte) : containsMaj t = true ↔ [0x6D, 0x61, 0x6A] <:+: t := by
  induction t with
  | nil => simp [containsMaj]
  | cons b rest ih =>
    rw [containsMaj, Bool.or_eq_true, beq_iff_eq, ih, List.infix_cons_iff, List.prefix_iff_eq_take]
    exact or_congr_left eq_comm

theorem tokenMinor_iff (t : List Byte) : tokenMinor t = true ↔ 0x6D ∈ t ∧ ¬[0x6D, 0x61, 0x6A] <:+: t := by
  rw [tokenMinor, Bool.and_eq_true, List.contains_iff_mem, Bool.not_eq_true', ← containsMaj_iff, Bool.not_eq_true]

theorem recognisedChords_eq_nil_iff (text : List Byte) :
    recognisedChords text = [] ↔ ∀ t ∈ tokens text, tokenRoot t = none := by
  simp only [recognisedChords, List.filterMap_eq_nil_iff, tokenEntry_eq_none_iff]

/-- R116: a chord sequence is never empty. -/
theorem chordSequence_ne_nil (text : List Byte) : chordSequence text ≠ [] := by
  rw [chordSequence]
  split
  · decide
  · assumption

/-- R96: with a root in four bits the entry is MINOR in bit 4 over ROOT. -/
theorem chordEntry_toNat {root : Nat} (h : root < 16) (minor : Bool) :
    (chordEntry root minor).toNat = (if minor then 16 else 0) + root := by
  rw [chordEntry, BitVec.toNat_ofNat, Nat.mod_eq_of_lt (by split <;> omega)]

/-! ## The tempo (R117) -/

/-- The first maximal run of digits, from a text that is cut around it. -/
theorem firstDigits_eq {before digits after : List Byte} (hbefore : ∀ b ∈ before, isDigit b = false) (hne : digits ≠ [])
    (hdigits : ∀ b ∈ digits, isDigit b = true) (hafter : ∀ b, after.head? = some b → isDigit b = false) :
    firstDigits (before ++ digits ++ after) = digits := by
  have hskip : (digits ++ after).dropWhile (fun b => !isDigit b) = digits ++ after := by
    cases digits with
    | nil => exact absurd rfl hne
    | cons d digits => exact List.dropWhile_cons_of_neg (by simp [hdigits d])
  have hstop : after.takeWhile isDigit = [] := by
    cases after with
    | nil => rfl
    | cons a after => exact List.takeWhile_cons_of_neg (by simp [hafter a rfl])
  rw [firstDigits, List.append_assoc, List.dropWhile_append_of_pos (by simpa using hbefore), hskip,
    List.takeWhile_append_of_pos hdigits, hstop, List.append_nil]

theorem firstDigits_eq_nil {text : List Byte} (h : ∀ b ∈ text, isDigit b = false) : firstDigits text = [] := by
  rw [firstDigits, List.dropWhile_eq_nil_iff.2 (by simpa using h), List.takeWhile_nil]

@[simp] theorem decimalFrom_nil (acc : Nat) : decimalFrom acc [] = acc := rfl

/- The parentheses keep Lean from trying the equation as a definitional rewrite rule, which does not end in time. -/
@[simp] theorem decimalFrom_cons (acc : Nat) (d : Byte) (rest : List Byte) :
    decimalFrom acc (d :: rest) = decimalFrom (10 * acc + (d.toNat - 0x30)) rest := (rfl)

/-- One digit accumulated with saturation at 201, a value above the tempo's range. -/
def saturate (acc : Nat) (d : Byte) : Nat := min (10 * acc + (d.toNat - 0x30)) 201

theorem saturate_min (acc : Nat) (d : Byte) : saturate (min acc 201) d = min (10 * acc + (d.toNat - 0x30)) 201 := by
  rw [saturate]; omega

/-- Saturating at every digit is saturating the exact number once. -/
theorem foldl_saturate_min (digits : List Byte) (acc : Nat) :
    digits.foldl saturate (min acc 201) = min (decimalFrom acc digits) 201 := by
  induction digits generalizing acc with
  | nil => rfl
  | cons d digits ih => rw [List.foldl_cons, saturate_min, ih, decimalFrom_cons]

theorem foldl_saturate (digits : List Byte) : digits.foldl saturate 0 = min (decimalFrom 0 digits) 201 :=
  foldl_saturate_min digits 0

/-! ## The two commands (R117, R118) -/

theorem textTooLong_iff (s : State) : textTooLong s = true ↔ s.params.textCap < s.textLen.toNat := decide_eq_true_iff

theorem textTooLong_eq_false {s : State} (h : s.textLen.toNat ≤ s.params.textCap) : textTooLong s = false :=
  decide_eq_false (Nat.not_lt.2 h)

theorem runPtempo_of_le {s : State} (h : s.textLen.toNat ≤ s.params.textCap) :
    runPtempo s = .ok { s with bpm := parseTempo s.text } := by
  rw [runPtempo, textTooLong_eq_false h]; rfl

theorem runPtempo_of_lt {s : State} (h : s.params.textCap < s.textLen.toNat) : runPtempo s = .error .lenRange := by
  rw [runPtempo, if_pos ((textTooLong_iff s).2 h)]

theorem runPchord_of_le {s : State} (h : s.textLen.toNat ≤ s.params.textCap)
    (hm : (chordSequence s.text).length ≤ s.params.chordCap) : runPchord s = .ok (writeChords s (chordSequence s.text)) := by
  rw [runPchord, textTooLong_eq_false h, if_neg Bool.false_ne_true, if_neg (Nat.not_lt.2 hm)]

theorem runPchord_of_overflow {s : State} (h : s.textLen.toNat ≤ s.params.textCap)
    (hm : s.params.chordCap < (chordSequence s.text).length) : runPchord s = .error .chordOverflow := by
  rw [runPchord, textTooLong_eq_false h, if_neg Bool.false_ne_true, if_pos hm]

theorem runPchord_of_lt {s : State} (h : s.params.textCap < s.textLen.toNat) : runPchord s = .error .lenRange := by
  rw [runPchord, if_pos ((textTooLong_iff s).2 h)]

/-- What PCHORD writes to CTAB reads back word by word: with m ≤ 1024 entries the block ends before PITCH (R61). -/
theorem wordAt_writeChords (s : State) {seq : List Word} (h : seq.length ≤ 1024) {k : Nat} (hk : k < seq.length) :
    (writeChords s seq).wordAt (ctabBase + 4 * k) = seq[k] := by
  have hctab : ctabBase + 4 * seq.length ≤ pitchBase := by rw [ctabBase, pitchBase]; omega
  calc (writeChords s seq).wordAt (ctabBase + 4 * k)
      = (s.writeBytes ctabBase (wordBytes seq)).wordAt (ctabBase + 4 * k) := wordAt_congr rfl rfl rfl _
    _ = seq[k] := wordAt_writeWords s _ _ _ hk (.inl hctab)

end Sys2Proof.Machine

namespace Sys2Proof.Claim

open Sys2Proof.Machine

/-! ## The 17 root names (R113, R114) -/

theorem alias17_le : ∀ p ∈ alias17, p.2 ≤ 11 := by decide

/-! Each branch of a class function is a row of the table, and its last branch leaves no row. -/

theorem naturalClass_eq_some_iff (b : Byte) (r : Nat) : naturalClass b = some r ↔ ([b], r) ∈ alias17 := by
  unfold naturalClass
  split_ifs <;> simp_all [alias17, eq_comm]

theorem sharpClass_eq_some_iff (b : Byte) (r : Nat) : sharpClass b = some r ↔ ([b, 0x23], r) ∈ alias17 := by
  unfold sharpClass
  split_ifs <;> simp_all [alias17, eq_comm]

theorem flatClass_eq_some_iff (b : Byte) (r : Nat) : flatClass b = some r ↔ ([b, 0x62], r) ∈ alias17 := by
  unfold flatClass
  split_ifs <;> simp_all [alias17, eq_comm]

theorem tokenRoot_eq_some_iff (t : List Byte) (r : Nat) : tokenRoot t = some r ↔ (candidateName t, r) ∈ alias17 := by
  match t with
  | [] => simp [tokenRoot, candidateName, alias17]
  | [t0] => exact naturalClass_eq_some_iff t0 r
  | t0 :: t1 :: _ =>
    rw [tokenRoot, candidateName]
    by_cases hsharp : t1 = 0x23
    · rw [if_pos hsharp, if_pos (.inl hsharp), hsharp, sharpClass_eq_some_iff]
    · by_cases hflat : t1 = 0x62
      · rw [if_neg hsharp, if_pos hflat, if_pos (.inr hflat), hflat, flatClass_eq_some_iff]
      · rw [if_neg hsharp, if_neg hflat, if_neg (not_or.2 ⟨hsharp, hflat⟩), naturalClass_eq_some_iff]

/-- R113: a root is a pitch class. -/
theorem tokenRoot_le {t : List Byte} {r : Nat} (h : tokenRoot t = some r) : r ≤ 11 :=
  alias17_le _ ((tokenRoot_eq_some_iff t r).1 h)

/-! ## The number of a digit run (R117) -/

theorem decimalValue_cons (d : Byte) (digits : List Byte) :
    decimalValue (d :: digits) = (d.toNat - 0x30) * 10 ^ digits.length + decimalValue digits := by
  simp only [decimalValue, List.length_cons, List.range_succ_eq_map, List.map_cons, List.map_map, List.sum_cons,
    List.getD_cons_zero, Nat.add_sub_cancel, Nat.sub_zero]
  congr 2
  refine List.map_congr_left fun k _ => ?_
  rw [Function.comp, List.getD_cons_succ, Nat.succ_eq_add_one, Nat.add_comm k 1, Nat.sub_sub]

theorem decimalFrom_eq (digits : List Byte) (acc : Nat) :
    decimalFrom acc digits = acc * 10 ^ digits.length + decimalValue digits := by
  induction digits generalizing acc with
  | nil => simp [decimalValue]
  | cons d digits ih => rw [decimalFrom_cons, ih, decimalValue_cons, List.length_cons]; ring

theorem decimalFrom_zero (digits : List Byte) : decimalFrom 0 digits = decimalValue digits := by
  rw [decimalFrom_eq, Nat.zero_mul, Nat.zero_add]

/-! ## The commands complete (R212, R232) -/

theorem succeeded_false (st : Status) : succeeded st false = { st with done := true, err := false, errcode := 0 } := by
  rw [succeeded, Bool.or_false]

theorem exec_of_ok {i : Instr} {s t : State} (h : runOf i s = .ok t) :
    exec i s = .next { t with status := succeeded t.status false, eng := none } := by
  rw [exec_eq, h, succeeded_false]; rfl

theorem exec_of_error {i : Instr} {s : State} {e : CmdError} (h : runOf i s = .error e) :
    exec i s = errorCompletion s e.code := by
  rw [exec_eq, h]; rfl

/-- PTEMPO on a text that fits writes the parsed tempo to BPM. -/
theorem exec_ptempo_of_le {s : State} (h : s.textLen.toNat ≤ s.params.textCap) :
    exec .ptempo s = .next { s with bpm := parseTempo s.text, status := succeeded s.status false, eng := none } :=
  exec_of_ok (i := .ptempo) (runPtempo_of_le h)

/-- The tempo of a text that is cut around its first maximal digit run. -/
theorem parseTempo_eq {before digits after : List Byte} (hbefore : ∀ b ∈ before, ¬(0x30 ≤ b.toNat ∧ b.toNat ≤ 0x39))
    (hne : digits ≠ []) (hdigits : ∀ b ∈ digits, 0x30 ≤ b.toNat ∧ b.toNat ≤ 0x39)
    (hafter : ∀ b, after.head? = some b → ¬(0x30 ≤ b.toNat ∧ b.toNat ≤ 0x39)) :
    parseTempo (before ++ digits ++ after) = clampBpm (decimalValue digits) := by
  simp only [← isDigit_iff, Bool.not_eq_true] at hbefore hdigits hafter
  rw [parseTempo, firstDigits_eq hbefore hne hdigits hafter, if_neg hne, decimalFrom_zero]

/-! ## The obligations -/

/-- Settles O14: reading a run, then its delimiters, yields the run; a text is cut byte by byte from its end. -/
theorem tokensAreTheMaximalRuns : Obligations.TokensAreTheMaximalRuns := by
  unfold Obligations.TokensAreTheMaximalRuns
  exact ⟨fun _ _ _ h => tokens_joined h, exists_separated⟩

/-- Settles O15: each of the three kinds of names has its part of the table. -/
theorem rootIsTheClassOfTheCandidateName : Obligations.RootIsTheClassOfTheCandidateName := by
  unfold Obligations.RootIsTheClassOfTheCandidateName
  exact fun t r => ⟨tokenRoot_eq_some_iff t r, (tokenEntry_eq_none_iff t).2⟩

/-- Settles O16: the search for "maj" succeeds exactly where it stands between some bytes before and after it. -/
theorem minorIsAnMWithoutMaj : Obligations.MinorIsAnMWithoutMaj := by
  unfold Obligations.MinorIsAnMWithoutMaj
  intro t
  have hinfix : (∃ before after : List Byte, t = before ++ [0x6D, 0x61, 0x6A] ++ after) ↔ [0x6D, 0x61, 0x6A] <:+: t :=
    exists₂_congr fun _ _ => eq_comm
  rw [tokenMinor_iff, hinfix]

/-- Settles O18: the exact number that the first digit run spells, most significant first, is the sum of its digits' values. -/
theorem ptempoReadsTheFirstDigitRun : Obligations.PtempoReadsTheFirstDigitRun := by
  unfold Obligations.PtempoReadsTheFirstDigitRun
  intro s before digits after hlen htext hbefore hne hdigits hafter
  rw [exec_ptempo_of_le hlen, htext, parseTempo_eq hbefore hne hdigits hafter, clampBpm]

/-- Settles O20: saturation at 201 is not seen after the clamp to 200, and an accumulated value of at most 201 keeps the next one
below 2^12. -/
theorem saturatingTempoAgrees : Obligations.SaturatingTempoAgrees := by
  unfold Obligations.SaturatingTempoAgrees
  intro s before digits after hlen htext hbefore hne hdigits hafter
  refine ⟨_, exec_ptempo_of_le hlen, ?_, fun run d rest hrun => ?_⟩
  · have hbpm : (parseTempo s.text).toNat = min (max (digits.foldl saturate 0) 60) 200 := by
      rw [htext, parseTempo_eq hbefore hne hdigits hafter, clampBpm_toNat, foldl_saturate, decimalFrom_zero]
      omega
    exact hbpm
  · have hacc : run.foldl saturate 0 ≤ 201 := by rw [foldl_saturate]; exact min_le_right _ _
    have hd := hdigits d (by simp [hrun])
    have hnext : 10 * run.foldl saturate 0 + (d.toNat - 0x30) < 2 ^ 12 := by omega
    exact hnext

/-- Settles O21: a root fits ROOT's four bits; the block of m words reads back, and every byte outside it is untouched. -/
theorem pchordWritesTheSequence : Obligations.PchordWritesTheSequence := by
  unfold Obligations.PchordWritesTheSequence
  refine ⟨fun token r hr => ?_, fun s hp hlen hm => ?_⟩
  · have hle : r ≤ 11 := tokenRoot_le hr
    exact ⟨hle, _, by rw [tokenEntry, hr]; rfl, chordEntry_toNat (by omega) _⟩
  · obtain ⟨-, -, -, hcap, -, -⟩ := legal_caps hp
    have hpos : 0 < (chordSequence s.text).length := List.length_pos_iff.2 (chordSequence_ne_nil _)
    refine ⟨_, exec_of_ok (i := .pchord) (runPchord_of_le hlen hm), rfl,
      keepsBytesOutside_of_write rfl rfl rfl (wordBytes_length _), fun k hk => ?_, ?_⟩
    · exact (wordAt_congr rfl rfl rfl _).trans (wordAt_writeChords s (by omega) hk)
    · rw [writeChords_chordCount, BitVec.toNat_ofNat, Nat.mod_eq_of_lt (by omega)]
      exact hpos

/-- Settles O13: the whitespace range is five bytes, the others are listed as they are. -/
theorem delimitersAreTheListedBytes : Obligations.DelimitersAreTheListedBytes := by
  unfold Obligations.DelimitersAreTheListedBytes
  intro b
  simp only [isDelimiter, Bool.or_eq_true, decide_eq_true_eq, beq_iff_eq, whitespaceRange_iff, List.mem_cons,
    List.not_mem_nil, or_false, or_assoc]

/-- Settles O17: no chord is recognised exactly if no token has a root. -/
theorem fallbackWhenNoTokenHasARoot : Obligations.FallbackWhenNoTokenHasARoot := by
  unfold Obligations.FallbackWhenNoTokenHasARoot
  intro text
  refine ⟨fun h => ?_, fun ⟨t, ht, hroot⟩ => ?_, chordSequence_ne_nil text⟩
  · rw [chordSequence, if_pos ((recognisedChords_eq_nil_iff text).2 h), fallbackChords]
  · rw [chordSequence, if_neg fun h => hroot ((recognisedChords_eq_nil_iff text).1 h t ht), recognisedChords]

/-- Settles O19: without a digit there is no run, and 120 lies in the tempo's range. -/
theorem ptempoDefaultsTo120 : Obligations.PtempoDefaultsTo120 := by
  unfold Obligations.PtempoDefaultsTo120
  intro s hlen hnone
  simp only [← isDigit_iff, Bool.not_eq_true] at hnone
  rw [exec_ptempo_of_le hlen, parseTempo, firstDigits_eq_nil hnone, if_pos rfl]
  rfl

/-- Settles O22: the checks in the order of R234. -/
theorem parseCommandsReportErrors : Obligations.ParseCommandsReportErrors := by
  unfold Obligations.ParseCommandsReportErrors
  intro s
  exact ⟨fun hlong => ⟨exec_of_error (i := .ptempo) (runPtempo_of_lt hlong),
      exec_of_error (i := .pchord) (runPchord_of_lt hlong)⟩,
    fun hlen hm => exec_of_error (i := .pchord) (runPchord_of_overflow hlen hm)⟩

end Sys2Proof.Claim
end

section
/-! PROOFS. The synthesizer (42_synthesizer.md): the bounds and the signs of its fixed sequence of operations, and SYNTH itself:
O23, O24 and O26 to O30. -/

namespace Sys2Proof.Machine

/-! ## Bounds that rounding keeps -/

/-- A finite pattern of magnitude at most `b`. -/
def AtMost64 (b : ℚ) (x : F64) : Prop := isFinite64 x = true ∧ |value64 x| ≤ b

/-- A bound that binary64 holds, so that rounding does not leave it. -/
def Held64 (b : ℚ) : Prop := ∃ p < 0x7FF0000000000000, magValue 52 11 p = b

theorem AtMost64.nonneg {b : ℚ} {x : F64} (h : AtMost64 b x) : 0 ≤ b := (abs_nonneg _).trans h.2

theorem rne64_atMost {b : ℚ} (neg : Bool) {num den : ℕ} (hb : Held64 b) (hd : 0 < den) (h : (num : ℚ) / den ≤ b) :
    AtMost64 b (rne64 neg num den) := by
  obtain ⟨p, hp, rfl⟩ := hb
  obtain ⟨hle, hfin, -⟩ := rne64_le (neg := neg) hd hp h
  exact ⟨hfin, by rw [abs_value64 hfin]; exact magValue_mono hle (by omega)⟩

/-- A zero of either sign, as a rounded number. -/
theorem rne64_of_zero (neg : Bool) {num den : ℕ} (hd : 0 < den) (h : (num : ℚ) / den = 0) :
    rne64 neg num den = signed64 neg 0 :=
  rne64_congr (c := 0) hd one_pos (by rw [h, Nat.cast_zero, zero_div])

theorem AtMost64.add {a b c : ℚ} {x y : F64} (hx : AtMost64 a x) (hy : AtMost64 b y) (hc : Held64 c) (h : a + b ≤ c) :
    AtMost64 c (add64 x y) := by
  have hsum : |value64 x + value64 y| ≤ c := (abs_add_le _ _).trans ((add_le_add hx.2 hy.2).trans h)
  rcases add64_finite hx.1 hy.1 with ⟨-, hadd⟩ | ⟨-, num, den, hd, hnd, hadd⟩
  · rw [hadd, ← rne64_of_zero _ (num := 0) one_pos (by simp)]
    exact rne64_atMost _ hc one_pos (by simpa using (abs_nonneg _).trans hsum)
  · rw [hadd]
    exact rne64_atMost _ hc hd (hnd.trans_le hsum)

theorem AtMost64.mul {a b c : ℚ} {x y : F64} (hx : AtMost64 a x) (hy : AtMost64 b y) (hc : Held64 c) (h : a * b ≤ c) :
    AtMost64 c (mul64 x y) := by
  obtain ⟨num, den, hd, hnd, hmul⟩ := mul64_finite hx.1 hy.1
  have hprod : |value64 x * value64 y| ≤ c := by
    rw [abs_mul]; exact (mul_le_mul hx.2 hy.2 (abs_nonneg _) hx.nonneg).trans h
  rw [hmul]
  exact rne64_atMost _ hc hd (hnd.trans_le hprod)

theorem AtMost64.div {a c : ℚ} {x y : F64} (hx : AtMost64 a x) (hy : isFinite64 y = true) (hpos : 0 < value64 y) (hc : Held64 c)
    (h : a ≤ c * value64 y) : AtMost64 c (div64 x y) := by
  obtain ⟨num, den, hd, hnd, hdiv⟩ := div64_finite hx.1 hy hpos.ne'
  have hquot : |value64 x / value64 y| ≤ c := by
    rw [abs_div, abs_of_pos hpos, div_le_iff₀ hpos]; exact hx.2.trans h
  rw [hdiv]
  exact rne64_atMost _ hc hd (hnd.trans_le hquot)

theorem held64_half : Held64 (1 / 2) := ⟨0x3FE0000000000000, by norm_num, by decide +kernel⟩
theorem held64_one : Held64 1 := ⟨0x3FF0000000000000, by norm_num, by decide +kernel⟩
theorem held64_three_halves : Held64 (3 / 2) := ⟨0x3FF8000000000000, by norm_num, by decide +kernel⟩
theorem held64_three : Held64 3 := ⟨0x4008000000000000, by norm_num, by decide +kernel⟩
theorem held64_nine_halves : Held64 (9 / 2) := ⟨0x4012000000000000, by norm_num, by decide +kernel⟩

theorem magValue64_one : magValue 52 11 0x3FF0000000000000 = 1 := by decide +kernel

theorem value64_zero : value64 0 = 0 := by decide +kernel
theorem value64_half : value64 half64 = 1 / 2 := by decide +kernel
theorem value64_norm : value64 norm64 = 9 / 2 := by decide +kernel
theorem value64_ramp : value64 ramp64 = 2000 := by decide +kernel
theorem value64_two : value64 two64 = 2 := by decide +kernel

theorem half64_atMost : AtMost64 (1 / 2) half64 := ⟨by decide, by rw [value64_half]; norm_num⟩

theorem atMost64_zero : AtMost64 0 0 := ⟨by decide, by rw [value64_zero, abs_zero]⟩

/-- A magnitude pattern of at most that of 1.0 is a number of at most 1. -/
theorem atMost64_one_of_mag {x : F64} (h : mag64 x ≤ 0x3FF0000000000000) : AtMost64 1 x := by
  have hfin : isFinite64 x = true := (isFinite64_iff x).2 (by omega)
  exact ⟨hfin, by rw [abs_value64 hfin, ← magValue64_one]; exact magValue_mono h (by norm_num)⟩

/-! ## Signs -/

theorem value64_nonneg {x : F64} (hx : isFinite64 x = true) (hn : neg64 x = false) : 0 ≤ value64 x := by
  rw [value64_eq hx, hn]
  exact mul_nonneg zero_le_one (magValue_nonneg _ _ _)

/-- A sum of two numbers that are not negative is not negative. -/
theorem neg64_add64 {x y : F64} (hx : isFinite64 x = true) (hy : isFinite64 y = true) (hnx : neg64 x = false)
    (hny : neg64 y = false) : neg64 (add64 x y) = false := by
  rcases add64_finite hx hy with ⟨-, hadd⟩ | ⟨-, num, den, -, -, hadd⟩
  · rw [hadd, hnx, hny]; decide
  · rw [hadd, neg64_rne64, decide_eq_false_iff_not, not_lt]
    exact add_nonneg (value64_nonneg hx hnx) (value64_nonneg hy hny)

theorem neg64_zero : neg64 0 = false := by decide

theorem neg64_inf64 (neg : Bool) : neg64 (inf64 neg) = neg := neg64_signed64 (by norm_num)

/-- The sign of a product is the exclusive or of the signs, but for the one NaN pattern. -/
theorem mul64_sign (x y : F64) : mul64 x y = nan64 ∨ neg64 (mul64 x y) = (neg64 x ^^ neg64 y) := by
  unfold mul64
  rcases datum64_cases x with ⟨-, m, p, hdx, -⟩ | ⟨-, hdx⟩ | ⟨-, hdx⟩
  · rcases datum64_cases y with ⟨-, n, q, hdy, -⟩ | ⟨-, hdy⟩ | ⟨-, hdy⟩
    · simp only [hdx, hdy]; exact .inr (neg64_rne64 _ _ _)
    · simp only [hdx, hdy]
      split
      · exact .inl rfl
      · exact .inr (neg64_inf64 _)
    · simp only [hdx, hdy, true_or]
  · rcases datum64_cases y with ⟨-, n, q, hdy, -⟩ | ⟨-, hdy⟩ | ⟨-, hdy⟩
    · simp only [hdx, hdy]
      split
      · exact .inl rfl
      · exact .inr (neg64_inf64 _)
    · simp only [hdx, hdy]; exact .inr (neg64_inf64 _)
    · simp only [hdx, hdy, true_or]
  · simp only [hdx, true_or]

/-- A product of two patterns without a sign has none, be it a number, an infinity or the NaN. -/
theorem neg64_mul64 {x y : F64} (hx : neg64 x = false) (hy : neg64 y = false) : neg64 (mul64 x y) = false := by
  rcases mul64_sign x y with h | h
  · rw [h]; decide
  · rw [h, hx, hy]; rfl

theorem neg64_div64 {x y : F64} (hx : isFinite64 x = true) (hy : isFinite64 y = true) (h0 : value64 y ≠ 0) :
    neg64 (div64 x y) = (neg64 x ^^ neg64 y) := by
  obtain ⟨num, den, -, -, hdiv⟩ := div64_finite hx hy h0
  rw [hdiv, neg64_rne64]

/-- A product with a zero is a zero of the product's sign. -/
theorem mul64_of_zero {x y : F64} (hx : isFinite64 x = true) (hy : isFinite64 y = true) (h : value64 x * value64 y = 0) :
    mul64 x y = signed64 (neg64 x ^^ neg64 y) 0 := by
  obtain ⟨num, den, hd, hnd, hmul⟩ := mul64_finite hx hy
  rw [hmul, rne64_of_zero _ hd (by rw [hnd, h, abs_zero])]

/-! ## Integers, time and the envelope (R145, R147, R148) -/

/-- Integers below 2^53 are exact (R147, R148). -/
theorem nat64_exact {n : ℕ} (h : n < 2 ^ 53) :
    isFinite64 (nat64 n) = true ∧ value64 (nat64 n) = n ∧ neg64 (nat64 n) = false := by
  have hlt : (n : ℚ) * 2 ^ (0 : ℤ) < 2 ^ (1024 : ℤ) := by
    have hn : (n : ℚ) < 2 ^ (53 : ℤ) := by exact_mod_cast h
    rw [zpow_zero, mul_one]
    exact hn.trans (zpow_lt_zpow_right₀ (by norm_num) (by norm_num))
  obtain ⟨hfin, hval, hneg⟩ := rne64_exact (neg := false) (num := n) (den := 1) one_pos (by simp) h (by norm_num) hlt
  exact ⟨hfin, hval.trans (by simp [signOf]), hneg⟩

theorem nat64_zero : nat64 0 = 0 := by decide

/-- t(0) is +0 (R148). -/
theorem sampleTime_zero {rate : ℕ} (h0 : rate ≠ 0) (h : rate < 2 ^ 53) : sampleTime 0 rate = 0 := by
  obtain ⟨hfin, hval, hneg⟩ := nat64_exact h
  have hrate : value64 (nat64 rate) ≠ 0 := by rw [hval]; exact_mod_cast h0
  obtain ⟨num, den, hd, hnd, hdiv⟩ := div64_finite (x := 0) (by decide) hfin hrate
  rw [sampleTime, nat64_zero, hdiv, rne64_of_zero _ hd (by rw [hnd, value64_zero, zero_div, abs_zero]), hneg]
  decide

/-- A ramp of at most 2000 samples stays in [0, 1]. -/
theorem ramp_le {n : ℕ} (h : n ≤ 2000) : (div64 (nat64 n) ramp64).toNat ≤ 0x3FF0000000000000 := by
  obtain ⟨hfin, hval, hneg⟩ := nat64_exact (n := n) (by omega)
  obtain ⟨num, den, hd, hnd, hdiv⟩ := div64_finite hfin (y := ramp64) (by decide) (by rw [value64_ramp]; norm_num)
  have hle : (num : ℚ) / den ≤ magValue 52 11 0x3FF0000000000000 := by
    have hn : (n : ℚ) ≤ 2000 := by exact_mod_cast h
    rw [hnd, hval, value64_ramp, magValue64_one, abs_of_nonneg (by positivity), div_le_one (by norm_num)]
    exact hn
  obtain ⟨hmag, -, hsign⟩ := rne64_le (neg := neg64 (nat64 n) ^^ neg64 ramp64) hd (by norm_num) hle
  rw [← hdiv] at hmag hsign
  have hpos : neg64 (div64 (nat64 n) ramp64) = false := by rw [hsign, hneg]; decide
  rw [neg64, decide_eq_false_iff_not] at hpos
  rw [mag64] at hmag
  omega

/-- The envelope is in [0, 1] at every position of every window (R147). -/
theorem envelope_le (p spc : ℕ) : (envelope p spc).toNat ≤ 0x3FF0000000000000 := by
  unfold envelope
  split
  · exact ramp_le (by omega)
  · split
    · exact ramp_le (by omega)
    · decide

theorem envelope_zero (spc : ℕ) : envelope 0 spc = 0 := by
  rw [envelope, if_pos (by norm_num)]; decide +kernel

theorem envelope_atMost (p spc : ℕ) : AtMost64 1 (envelope p spc) := by
  have h := envelope_le p spc
  exact atMost64_one_of_mag (by unfold mag64; omega)

/-! ## The oscillator bank: bounds (R149 to R151) -/

theorem sinOf_atMost (impl : ℕ) (x : F64) : AtMost64 1 (sinOf impl x) :=
  atMost64_one_of_mag (of_decide_eq_true (Laws.sinOf_limits impl x).2.1)

theorem halfSin_atMost (impl : ℕ) (x : F64) : AtMost64 (1 / 2) (mul64 half64 (sinOf impl x)) :=
  half64_atMost.mul (sinOf_atMost impl x) held64_half (by norm_num)

theorem note_atMost (impl : ℕ) (f t : F64) : AtMost64 (3 / 2) (note impl f t) :=
  (sinOf_atMost impl _).add (halfSin_atMost impl _) held64_three_halves (by norm_num)

/-- The partial sums of three notes: every bound is held, so that rounding does not add up (R150). -/
theorem noteSums_atMost (impl : ℕ) (f1 f3 f5 t : F64) :
    AtMost64 (3 / 2) (add64 0 (note impl f1 t)) ∧ AtMost64 3 (add64 (add64 0 (note impl f1 t)) (note impl f3 t)) ∧
    AtMost64 (9 / 2) (add64 (add64 (add64 0 (note impl f1 t)) (note impl f3 t)) (note impl f5 t)) := by
  have root := atMost64_zero.add (note_atMost impl f1 t) held64_three_halves (by norm_num)
  have third := root.add (note_atMost impl f3 t) held64_three (by norm_num)
  exact ⟨root, third, third.add (note_atMost impl f5 t) held64_nine_halves (by norm_num)⟩

/-- value(i) is at most 1: 4.5 divided by 4.5 (R150). -/
theorem chordValue_atMost (impl : ℕ) (freqs : F64 × F64 × F64) (t : F64) : AtMost64 1 (chordValue impl freqs t) := by
  obtain ⟨-, -, fifth⟩ := noteSums_atMost impl freqs.1 freqs.2.1 freqs.2.2 t
  exact fifth.div (by decide) (by rw [value64_norm]; norm_num) held64_one (by rw [value64_norm]; norm_num)

theorem sampleOut64_atMost {v env : F64} (hv : AtMost64 1 v) (henv : AtMost64 1 env) : AtMost64 (1 / 2) (sampleOut64 v env) :=
  (hv.mul henv held64_one (by norm_num)).mul half64_atMost held64_half (by norm_num)

/-- At the start of a window the sample is a zero with the sign of the value (R154). -/
theorem f64to32_sampleOut64_zero {v : F64} (hv : isFinite64 v = true) :
    f64to32 (sampleOut64 v 0) = if v.getLsbD 63 then 0x80000000 else 0x00000000 := by
  have zero : ∀ neg, isFinite64 (signed64 neg 0) = true ∧ value64 (signed64 neg 0) = 0 ∧ neg64 (signed64 neg 0) = neg ∧
      f64to32 (signed64 neg 0) = if neg then 0x80000000 else 0x00000000 := by decide +kernel
  obtain ⟨zfin, zval, zneg, znarrow⟩ := zero (neg64 v)
  have hfirst : mul64 v 0 = signed64 (neg64 v) 0 := by
    rw [mul64_of_zero hv (by decide) (by rw [value64_zero, mul_zero]), neg64_zero, Bool.xor_false]
  have hsecond : mul64 (signed64 (neg64 v) 0) half64 = signed64 (neg64 v) 0 := by
    have hhalf : neg64 half64 = false := by decide
    rw [mul64_of_zero zfin (by decide) (by rw [zval, zero_mul]), zneg, hhalf, Bool.xor_false]
  rw [sampleOut64, hfirst, hsecond, znarrow, getLsbD_neg64]

/-! ## The oscillator bank at time 0: signs (R154) -/

/-- At time 0 the phase of a frequency without a sign is +0, or the NaN of an overflowed one: SIN has no sign there. -/
theorem neg64_sinOf_start (impl : ℕ) {w : F64} (hw : neg64 w = false) : neg64 (sinOf impl (mul64 w 0)) = false := by
  obtain ⟨-, -, hzero, hnan⟩ := Laws.sinOf_limits impl (mul64 w 0)
  rw [getLsbD_neg64] at hnan
  by_cases hfin : isFinite64 w = true
  · have hphase : mul64 w 0 = 0 := by
      rw [mul64_of_zero hfin (by decide) (by rw [value64_zero, mul_zero]), hw, neg64_zero]; decide
    rw [hzero hphase]; decide
  · apply hnan
    obtain ⟨-, hinf, -, hnan'⟩ := Claim.mulRounds_holds w 0
    by_cases hn : isNaN64 w = true
    · exact (hnan' hn).1
    · exact (hinf (Claim.isInf64_of_not_isNaN64 (Bool.eq_false_iff.2 hn) hfin) (.inl rfl)).1

theorem neg64_note_start (impl : ℕ) {f : F64} (hf : neg64 f = false) : neg64 (note impl f 0) = false := by
  have hphase : ∀ g, neg64 g = false → neg64 (sinOf impl (mul64 (mul64 twoPi g) 0)) = false := fun g hg =>
    neg64_sinOf_start impl (neg64_mul64 (by decide) hg)
  have hoctave : neg64 (mul64 half64 (sinOf impl (mul64 (mul64 twoPi (mul64 two64 f)) 0))) = false :=
    neg64_mul64 (by decide) (hphase _ (neg64_mul64 (by decide) hf))
  exact neg64_add64 (sinOf_atMost impl _).1 (halfSin_atMost impl _).1 (hphase f hf) hoctave

/-- value(0) has no sign (R154). -/
theorem neg64_chordValue_start (impl : ℕ) {f1 f3 f5 : F64} (h1 : neg64 f1 = false) (h3 : neg64 f3 = false)
    (h5 : neg64 f5 = false) : neg64 (chordValue impl (f1, f3, f5) 0) = false := by
  obtain ⟨root, third, fifth⟩ := noteSums_atMost impl f1 f3 f5 0
  have nroot := neg64_add64 atMost64_zero.1 (note_atMost impl f1 0).1 (by decide) (neg64_note_start impl h1)
  have nthird := neg64_add64 root.1 (note_atMost impl f3 0).1 nroot (neg64_note_start impl h3)
  have nfifth := neg64_add64 third.1 (note_atMost impl f5 0).1 nthird (neg64_note_start impl h5)
  have hnorm : neg64 norm64 = false := by decide
  rw [chordValue, neg64_div64 fifth.1 (by decide) (by rw [value64_norm]; norm_num), nfifth, hnorm]
  rfl

/-- R8: no entry of a legal pitch table has a sign, an infinity or a NaN. -/
theorem pitchHz_nonneg {s : State} (hp : s.params.legal = true) (n : ℕ) :
    isFinite64 (s.pitchHz n) = true ∧ neg64 (s.pitchHz n) = false := by
  have hlt : (s.pitchHz n).toNat < 0x7FF0000000000000 := by
    simp only [Params.legal, pitchOk, Bool.and_eq_true, List.all_eq_true] at hp
    obtain ⟨-, hall, -⟩ := hp
    rw [State.pitchHz, List.getD_eq_getElem?_getD]
    cases hn : s.params.pitch.toList[n]? with
    | none => decide
    | some x => exact (of_decide_eq_true (hall x (List.mem_of_getElem? hn))).2
  rw [isFinite64_iff, mag64, neg64, decide_eq_false_iff_not]
  omega

/-- The frequencies of a legal table's chord have no sign (R143). -/
theorem neg64_chordFreqs {s : State} (hp : s.params.legal = true) (n : ℕ) (minor : Bool) :
    neg64 (chordFreqs (s.pitchHz n) minor).1 = false ∧ neg64 (chordFreqs (s.pitchHz n) minor).2.1 = false ∧
    neg64 (chordFreqs (s.pitchHz n) minor).2.2 = false := by
  obtain ⟨hfin, hneg⟩ := pitchHz_nonneg hp n
  have htwo : neg64 two64 = false := by decide
  have hroot : neg64 (div64 (s.pitchHz n) two64) = false := by
    rw [neg64_div64 hfin (by decide) (by rw [value64_two]; norm_num), hneg, htwo]; rfl
  have hthird : neg64 (if minor then rat3 else rat4) = false := by cases minor <;> decide
  exact ⟨hroot, neg64_mul64 hroot hthird, neg64_mul64 hroot (by decide)⟩

/-! ## SYNTH's checks (R152, R234) -/

theorem rateOk_eq_false_iff (r : Word) : rateOk r = false ↔ r.toNat = 0 ∨ 0x80000000 ≤ r.toNat := by
  rw [rateOk, decide_eq_false_iff_not]; omega

theorem entryOk_eq_false_iff (e : Word) : entryOk e = false ↔ 12 ≤ e.toNat % 16 ∨ 32 ≤ e.toNat := by
  rw [entryOk, entryRoot, decide_eq_false_iff_not]; omega

/-- SYNTH's checks, as comparisons of numbers. -/
theorem synthError_eq (s : State) : synthError s =
    if s.params.sampleCap < s.ibufLen.toNat then some .lenRange
    else if s.params.chordCap < s.chordCount.toNat then some .lenRange
    else if s.ibufLen.toNat = 0 then some .zeroLength
    else if s.chordCount.toNat = 0 then some .emptyChords
    else if s.ibufSr.toNat = 0 ∨ 0x80000000 ≤ s.ibufSr.toNat then some .badRate
    else if (List.range s.chordCount.toNat).any (fun k =>
      decide (12 ≤ (s.wordAt (0x00002000 + 4 * k)).toNat % 16 ∨ 32 ≤ (s.wordAt (0x00002000 + 4 * k)).toNat)) then
      some .badChord
    else none := by
  have hlen : (!lenOk s.params s.ibufLen) = true ↔ s.params.sampleCap < s.ibufLen.toNat := by
    rw [Bool.not_eq_true', ← Bool.not_eq_true, lenOk_iff, not_le]
  have hzero : ∀ w : Word, w = 0 ↔ w.toNat = 0 := fun w => BitVec.toNat_inj.symm
  have hrate : (!rateOk s.ibufSr) = true ↔ s.ibufSr.toNat = 0 ∨ 0x80000000 ≤ s.ibufSr.toNat := by
    rw [Bool.not_eq_true', rateOk_eq_false_iff]
  have hentry : ∀ e : Word, (!entryOk e) = decide (12 ≤ e.toNat % 16 ∨ 32 ≤ e.toNat) := fun e => by
    rw [Bool.eq_iff_iff, Bool.not_eq_true', entryOk_eq_false_iff, decide_eq_true_iff]
  simp only [synthError, hlen, hzero, hrate, List.not_all_eq_any_not, hentry]
  rfl

theorem synthError_eq_none_iff (s : State) : synthError s = none ↔ Claim.synthOperandsOk s := by
  have hentries : ¬(List.range s.chordCount.toNat).any (fun k =>
      decide (12 ≤ (s.wordAt (0x00002000 + 4 * k)).toNat % 16 ∨ 32 ≤ (s.wordAt (0x00002000 + 4 * k)).toNat)) = true ↔
      ∀ k, k < s.chordCount.toNat →
        (s.wordAt (0x00002000 + 4 * k)).toNat % 16 ≤ 11 ∧ (s.wordAt (0x00002000 + 4 * k)).toNat < 32 := by
    simp only [List.any_eq_true, List.mem_range, decide_eq_true_eq, not_exists, not_and, not_or, not_le]
    exact forall₂_congr fun k _ => by omega
  rw [Claim.synthOperandsOk, Claim.legalRate, ← hentries, synthError_eq]
  generalize (List.range s.chordCount.toNat).any _ = bad
  split_ifs with hcap hchords hempty hnone hrate hbad
  on_goal 7 => exact iff_of_true rfl ⟨by omega, by omega, by omega, hbad⟩
  on_goal 6 => exact iff_of_false nofun fun ⟨_, _, _, hgood⟩ => hgood hbad
  all_goals exact iff_of_false nofun fun ⟨_, _, _, _⟩ => by omega

/-! ## SYNTH's effect (R152, R212) -/

/-- The state in which SYNTH completes without an error. -/
def synthesized (s : State) : State := finishCommand (s.writeBytes ibufBase (wordBytes (synthSamples s)))

theorem runSynth_of_none {s : State} (h : synthError s = none) :
    runOf .synth s = .ok (s.writeBytes ibufBase (wordBytes (synthSamples s))) := by
  rw [runOf, runSynth, h]

theorem runSynth_of_some {s : State} {e : CmdError} (h : synthError s = some e) : runOf .synth s = .error e := by
  rw [runOf, runSynth, h]

theorem exec_synth_of_none {s : State} (h : synthError s = none) : exec .synth s = .next (synthesized s) := by
  rw [exec_eq, runSynth_of_none h]; rfl

theorem exec_synth_of_some {s : State} {e : CmdError} (h : synthError s = some e) :
    exec .synth s = Claim.errorCompletion s e.code := Claim.exec_of_error (runSynth_of_some h)

theorem synthesized_errcode (s : State) : (synthesized s).status.errcode = 0 := rfl

theorem wordAt_synthesized (s : State) {i : ℕ} (hi : i < s.ibufLen.toNat) :
    (synthesized s).wordAt (0x02000000 + 4 * i) = synthSample s i := by
  have hlen : i < (synthSamples s).length := by rwa [synthSamples_length]
  have hread := wordAt_writeWords s ibufBase (synthSamples s) i hlen (.inr (by decide))
  exact (wordAt_congr rfl rfl rfl _).trans (hread.trans (by simp [synthSamples]))

/-- What `synthValue64` writes out is the model's value(i). -/
theorem synthValue64_eq (s : State) (i : ℕ) : Claim.synthValue64 s i =
    chordValue s.params.sinImpl (chordFreqs (s.pitchHz (entryRoot (chordAt s i))) (entryMinor (chordAt s i)))
      (sampleTime i s.ibufSr.toNat) := rfl

theorem synthOut64_eq (s : State) (i : ℕ) : Claim.synthOut64 s i = sampleOut64 (Claim.synthValue64 s i)
    (envelope (i % samplesPerChord s.ibufSr.toNat s.bpm.toNat) (samplesPerChord s.ibufSr.toNat s.bpm.toNat)) := rfl

theorem synthSample_eq (s : State) (i : ℕ) : synthSample s i = f64to32 (Claim.synthOut64 s i) := rfl

theorem synthValue64_atMost (s : State) (i : ℕ) : AtMost64 1 (Claim.synthValue64 s i) := by
  rw [synthValue64_eq]; exact chordValue_atMost _ _ _

theorem synthOut64_atMost (s : State) (i : ℕ) : AtMost64 (1 / 2) (Claim.synthOut64 s i) :=
  sampleOut64_atMost (synthValue64_atMost s i) (envelope_atMost _ _)

/-- At a chord boundary the sample is a zero with the sign of value(i) (R154). -/
theorem synthSample_boundary {s : State} {i : ℕ} (h : i % samplesPerChord s.ibufSr.toNat s.bpm.toNat = 0) :
    synthSample s i = if (Claim.synthValue64 s i).getLsbD 63 then 0x80000000 else 0x00000000 := by
  rw [synthSample_eq, synthOut64_eq, h, envelope_zero, f64to32_sampleOut64_zero (synthValue64_atMost s i).1]

theorem neg64_synthValue64_zero {s : State} (hp : s.params.legal = true) (hrate : Claim.legalRate s.ibufSr) :
    neg64 (Claim.synthValue64 s 0) = false := by
  obtain ⟨hlo, hhi⟩ := hrate
  obtain ⟨h1, h3, h5⟩ := neg64_chordFreqs hp (entryRoot (chordAt s 0)) (entryMinor (chordAt s 0))
  rw [synthValue64_eq, sampleTime_zero (by omega) (by omega)]
  exact neg64_chordValue_start _ h1 h3 h5

/-! ## What SYNTH reads (R155) -/

/-- Two states give SYNTH the same operands. -/
structure SameSynthOperands (s u : State) : Prop where
  len : u.ibufLen = s.ibufLen
  rate : u.ibufSr = s.ibufSr
  tempo : u.bpm = s.bpm
  count : u.chordCount = s.chordCount
  params : u.params = s.params
  chords : ∀ k, k < s.chordCount.toNat → u.chord k = s.chord k

theorem SameSynthOperands.synthError {s u : State} (h : SameSynthOperands s u) : synthError u = synthError s := by
  have hall : (List.range s.chordCount.toNat).all (fun k => entryOk (u.chord k)) =
      (List.range s.chordCount.toNat).all (fun k => entryOk (s.chord k)) := by
    rw [Bool.eq_iff_iff, List.all_eq_true, List.all_eq_true]
    exact forall₂_congr fun k hk => by rw [h.chords k (List.mem_range.1 hk)]
  simp only [Machine.synthError, h.len, h.rate, h.count, h.params, hall]

/-- The chord of a sample is one of the K entries, wherever there is one (R146). -/
theorem SameSynthOperands.chordAt {s u : State} (h : SameSynthOperands s u) (hK : 0 < s.chordCount.toNat) (i : ℕ) :
    chordAt u i = chordAt s i := by
  rw [Machine.chordAt, Machine.chordAt, h.rate, h.tempo, h.count]
  exact h.chords _ (Nat.mod_lt _ hK)

theorem SameSynthOperands.synthSample {s u : State} (h : SameSynthOperands s u) (hK : 0 < s.chordCount.toNat) (i : ℕ) :
    synthSample u i = synthSample s i := by
  simp only [Machine.synthSample, h.chordAt hK, h.rate, h.tempo, h.params, State.pitchHz]

end Sys2Proof.Machine

namespace Sys2Proof.Claim

open Sys2Proof.Machine

/-! ## The obligations -/

/-- Settles O24: each case is a branch of the definition, and a ramp starts at +0 and ends at 1.0. -/
theorem envelopeHasThreeCases : Obligations.EnvelopeHasThreeCases := by
  unfold Obligations.EnvelopeHasThreeCases
  intro p spc _
  refine ⟨fun hattack => ?_, fun hlate hrelease => ?_, fun hlate hhold => ?_, envelope_zero spc, envelope_le p spc⟩
  · rw [envelope, if_pos hattack, ramp64]
  · rw [envelope, if_neg (by omega), if_pos (by omega), ramp64]
  · rw [envelope, if_neg (by omega), if_neg (by omega), one64]

/-- Settles O26: the block of N words reads back the model's samples, which are the formula by definition. -/
theorem synthWritesTheFormula : Obligations.SynthWritesTheFormula := by
  unfold Obligations.SynthWritesTheFormula
  intro s hok
  have hlen : (wordBytes (synthSamples s)).length = 4 * s.ibufLen.toNat := by rw [wordBytes_length, synthSamples_length]
  refine ⟨_, exec_synth_of_none ((synthError_eq_none_iff s).2 hok), ?_, keepsBytesOutside_of_write rfl rfl rfl hlen,
    fun i hi => ⟨(synthOut64_atMost s i).1, ?_⟩⟩
  · rw [succeeded_false]; rfl
  · rw [wordAt_synthesized s hi, synthSample_eq]

/-- Settles O27: the checks in the order of R234. -/
theorem synthReportsTheFirstError : Obligations.SynthReportsTheFirstError := by
  unfold Obligations.SynthReportsTheFirstError
  intro s
  have herr := synthError_eq s
  split_ifs at herr ⊢
  case neg => exact exec_synth_of_none herr
  all_goals exact exec_synth_of_some herr

/-- Settles O28: every intermediate bound is held by binary64, and the last one by binary32. -/
theorem synthSamplesStayBelowHalf : Obligations.SynthSamplesStayBelowHalf := by
  unfold Obligations.SynthSamplesStayBelowHalf
  intro s hok
  refine ⟨_, exec_synth_of_none ((synthError_eq_none_iff s).2 hok), fun i hi => ?_⟩
  have half : magValue 23 8 0x3F000000 = 1 / 2 := by decide +kernel
  obtain ⟨hfin, hle⟩ := synthOut64_atMost s i
  obtain ⟨hmag, hfin32, -⟩ := f64to32_le hfin (p := 0x3F000000) (by norm_num) (half ▸ hle)
  rw [wordAt_synthesized s hi, synthSample_eq]
  refine ⟨hfin32, ?_, ?_⟩
  · rw [← Bool.not_eq_true, isNaN32_iff]; omega
  · rw [abs_value32 hfin32, ← half]; exact magValue_mono hmag (by norm_num)

/-- Settles O29: the envelope is +0 at a boundary, and no phase at time 0 gives a value with a sign. -/
theorem synthBoundariesAreZero : Obligations.SynthBoundariesAreZero := by
  unfold Obligations.SynthBoundariesAreZero
  intro s hp hok
  have hnone := (synthError_eq_none_iff s).2 hok
  obtain ⟨⟨hpos, -⟩, -, hrate, -⟩ := hok
  refine ⟨_, exec_synth_of_none hnone, ?_, fun i hi hboundary => ?_⟩
  · have hfirst := wordAt_synthesized s (i := 0) hpos
    rw [synthSample_boundary (Nat.zero_mod _), getLsbD_neg64, neg64_synthValue64_zero hp hrate] at hfirst
    exact hfirst
  · rw [wordAt_synthesized s hi, synthSample_boundary hboundary]

/-- Settles O30: neither the checks nor a sample read anything else; where the checks pass there is a chord. -/
theorem synthDependsOnItsOperandsAlone : Obligations.SynthDependsOnItsOperandsAlone := by
  unfold Obligations.SynthDependsOnItsOperandsAlone
  intro s u hlen hrate htempo hcount hparams hchords
  have same : SameSynthOperands s u := ⟨hlen, hrate, htempo, hcount, hparams, hchords⟩
  cases herr : synthError s with
  | some e =>
    refine ⟨_, _, exec_synth_of_some herr, exec_synth_of_some (same.synthError.trans herr), rfl, fun hcode => ?_⟩
    exact absurd hcode e.code_range.1
  | none =>
    obtain ⟨-, ⟨hK, -⟩, -⟩ := (synthError_eq_none_iff s).1 herr
    refine ⟨_, _, exec_synth_of_none herr, exec_synth_of_none (same.synthError.trans herr),
      (synthesized_errcode s).trans (synthesized_errcode u).symm, fun _ i hi => ?_⟩
    rw [wordAt_synthesized u (by rwa [hlen]), wordAt_synthesized s hi, same.synthSample hK]

/-- Settles O23: division rounds down; B is at most 240 times SR, and at least 60. -/
theorem samplesPerChordIsTheFloor : Obligations.SamplesPerChordIsTheFloor := by
  unfold Obligations.SamplesPerChordIsTheFloor
  intro sr bpm hsr hsr' hbpm hbpm'
  unfold samplesPerChord
  refine ⟨Nat.div_mul_le_self _ _, Nat.lt_mul_of_div_lt (Nat.lt_succ_self _) (by omega), ?_, ?_⟩
  · rw [Nat.one_le_div_iff (by omega)]; omega
  · rw [Nat.div_lt_iff_lt_mul (by omega)]; omega

end Sys2Proof.Claim
end

section
/-! PROOFS. The mixer (43_mixer.md): exact products, the limiter, and MIX itself: O31 to O35 and O43. -/

namespace Sys2Proof.Machine

/-! ## Products of samples (R173) -/

/-- A finite sample is a number of 24 bits with an exponent far inside binary64's range. -/
theorem abs_value32_form {x : F32} (hx : isFinite32 x = true) :
    ∃ (m : ℕ) (e : ℤ), |value32 x| = m * 2 ^ e ∧ m < 2 ^ 24 ∧ -149 ≤ e ∧ e ≤ 104 := by
  have hmag := (isFinite32_iff x).1 hx
  rcases datum32_cases x with ⟨-, m, e, -, hv, hm, he, he', -⟩ | ⟨h, -⟩ | ⟨h, -⟩
  · exact ⟨m, e, by rw [abs_value32 hx, hv], hm, he, he'⟩
  · omega
  · omega

/-- 48 bits fit binary64's 53, and the exponents' sum stays in its range: the product of two samples is exact (R173). -/
theorem mul64_f32to64_exact {x g : F32} (hx : isFinite32 x = true) (hg : isFinite32 g = true) :
    isFinite64 (mul64 (f32to64 x) (f32to64 g)) = true ∧
    value64 (mul64 (f32to64 x) (f32to64 g)) = value32 x * value32 g := by
  obtain ⟨hfx, hvx, -⟩ := f32to64_exact hx
  obtain ⟨hfg, hvg, -⟩ := f32to64_exact hg
  obtain ⟨m, p, hm, hm24, hp, hp'⟩ := abs_value32_form hx
  obtain ⟨n, q, hn, hn24, hq, hq'⟩ := abs_value32_form hg
  have hprod : |value64 (f32to64 x) * value64 (f32to64 g)| = ((m * n : ℕ) : ℚ) * 2 ^ (p + q) := by
    rw [hvx, hvg, abs_mul, hm, hn, zpow_add₀ (by norm_num)]
    push_cast
    ring
  have hbits : m * n < 2 ^ 48 :=
    calc m * n < 2 ^ 24 * 2 ^ 24 := Nat.mul_lt_mul'' hm24 hn24
      _ = 2 ^ 48 := by norm_num
  have hrange : ((m * n : ℕ) : ℚ) * 2 ^ (p + q) < 2 ^ (1024 : ℤ) :=
    calc ((m * n : ℕ) : ℚ) * 2 ^ (p + q) < 2 ^ (48 : ℤ) * 2 ^ (p + q) :=
          mul_lt_mul_of_pos_right (by exact_mod_cast hbits) (two_zpow_pos _)
      _ = 2 ^ (48 + (p + q)) := (zpow_add₀ (by norm_num) _ _).symm
      _ ≤ 2 ^ (1024 : ℤ) := zpow_le_zpow_right₀ (by norm_num) (by omega)
  obtain ⟨hfin, hval, -⟩ := mul64_exact hfx hfg hprod (by omega) (by omega) hrange
  exact ⟨hfin, by rw [hval, hvx, hvg]⟩

/-! ## Operations that give an operand back (R12, R179) -/

/-- Rounding the magnitude of a finite pattern with the pattern's sign gives the pattern. -/
theorem rne64_abs_value64 {x : F64} (hx : isFinite64 x = true) {num den : ℕ} (hd : 0 < den)
    (h : (num : ℚ) / den = |value64 x|) : rne64 (neg64 x) num den = x := by
  have hmag := (isFinite64_iff x).1 hx
  rw [rne64, roundMag_exact hd (by omega) (h.trans (abs_value64 hx)), signed64_self]

/-- A finite number other than 0 has the sign of its pattern. -/
theorem value64_neg_iff {x : F64} (hx : isFinite64 x = true) (h0 : value64 x ≠ 0) : value64 x < 0 ↔ neg64 x = true := by
  have hmag := magValue_nonneg 52 11 (mag64 x)
  rw [value64_eq hx] at h0 ⊢
  cases neg64 x with
  | false => simpa [signOf] using hmag
  | true => simpa [signOf] using lt_of_le_of_ne hmag (right_ne_zero_of_mul h0).symm

theorem value64_plusOne : value64 plusOne64 = 1 := by decide +kernel
theorem value64_minusOne : value64 minusOne64 = -1 := by decide +kernel

theorem mul64_plusOne {x : F64} (hx : isFinite64 x = true) : mul64 x plusOne64 = x := by
  obtain ⟨num, den, hd, hnd, hmul⟩ := mul64_finite hx (y := plusOne64) (by decide)
  have hpos : neg64 plusOne64 = false := by decide
  rw [hmul, hpos, Bool.xor_false]
  exact rne64_abs_value64 hx hd (by rw [hnd, value64_plusOne, mul_one])

/-- Adding a zero of a number's own sign gives the number back, zeros included. -/
theorem add64_zero_of_sign {x : F64} (hx : isFinite64 x = true) : add64 x (signed64 (neg64 x) 0) = x := by
  have zero : ∀ neg, isFinite64 (signed64 neg 0) = true ∧ value64 (signed64 neg 0) = 0 := by decide +kernel
  obtain ⟨zfin, zval⟩ := zero (neg64 x)
  rcases add64_finite hx zfin with ⟨h0, hadd⟩ | ⟨h0, num, den, hd, hnd, hadd⟩
  · rw [zval, add_zero] at h0
    rw [hadd, neg64_signed64 (by norm_num), Bool.and_self]
    calc signed64 (neg64 x) 0 = signed64 (neg64 x) (mag64 x) := by rw [(value64_eq_zero hx).1 h0]
      _ = x := signed64_self x
  · rw [zval, add_zero] at h0 hnd hadd
    rw [hadd, Bool.eq_iff_iff.2 (decide_eq_true_iff.trans (value64_neg_iff hx h0))]
    exact rne64_abs_value64 hx hd hnd

/-- At gains 1.0 and +0.0 the second product is a zero of the sample's sign, which leaves the sample as it is (R179). -/
theorem mixSum_self {v : F64} (hv : isFinite64 v = true) : mixSum v plusOne64 v 0 = v := by
  have hzero : mul64 v 0 = signed64 (neg64 v) 0 := by
    rw [mul64_of_zero hv (by decide) (by rw [value64_zero, mul_zero]), neg64_zero, Bool.xor_false]
  rw [mixSum, mul64_plusOne hv, hzero, add64_zero_of_sign hv]

/-! ## The limiter (R174, R175) -/

theorem isNaN64_of_isFinite64 {x : F64} (hx : isFinite64 x = true) : isNaN64 x = false := by
  rw [isFinite64_iff] at hx
  rw [← Bool.not_eq_true, isNaN64_iff]
  omega

/-- The limiter on a finite sum, by the sum's value. -/
theorem mixLimited_of_isFinite64 {x : F64} (hx : isFinite64 x = true) :
    mixLimited x = if value64 x < -1 then minusOne64 else if 1 < value64 x then plusOne64 else x := by
  have hlow : lt64 x minusOne64 = true ↔ value64 x < -1 := by rw [lt64_iff hx (by decide), value64_minusOne]
  have hhigh : lt64 plusOne64 x = true ↔ 1 < value64 x := by rw [lt64_iff (by decide) hx, value64_plusOne]
  rw [mixLimited, isNaN64_of_isFinite64 hx, if_neg Bool.false_ne_true, limit]
  simp only [hlow, hhigh]

theorem mixLimited_minusInf : mixLimited 0xFFF0000000000000 = minusOne64 := by decide
theorem mixLimited_plusInf : mixLimited 0x7FF0000000000000 = plusOne64 := by decide

theorem plusOne64_atMost : AtMost64 1 plusOne64 := ⟨by decide, by rw [value64_plusOne, abs_one]⟩

theorem minusOne64_atMost : AtMost64 1 minusOne64 := ⟨by decide, by rw [value64_minusOne, abs_neg, abs_one]⟩

/-- Whatever the sum, NaN and the infinities included, the limiter answers a number in [-1, 1]. -/
theorem mixLimited_atMost (x : F64) : AtMost64 1 (mixLimited x) := by
  cases hnan : isNaN64 x with
  | true =>
    rw [mixLimited, if_pos hnan]
    exact ⟨atMost64_zero.1, atMost64_zero.2.trans zero_le_one⟩
  | false =>
    by_cases hfin : isFinite64 x = true
    · rw [mixLimited_of_isFinite64 hfin]
      split_ifs with hlow hhigh
      · exact minusOne64_atMost
      · exact plusOne64_atMost
      · exact ⟨hfin, abs_le.2 ⟨not_lt.1 hlow, not_lt.1 hhigh⟩⟩
    · rcases Claim.isInf64_of_not_isNaN64 hnan hfin with rfl | rfl
      · rw [mixLimited_plusInf]; exact plusOne64_atMost
      · rw [mixLimited_minusInf]; exact minusOne64_atMost

theorem magValue32_one : magValue 23 8 0x3F800000 = 1 := by decide +kernel

/-- Narrowing keeps [-1, 1], whose bounds binary32 holds (R176, R179). -/
theorem f64to32_range {y : F64} (h : AtMost64 1 y) :
    isFinite32 (f64to32 y) = true ∧ -1 ≤ value32 (f64to32 y) ∧ value32 (f64to32 y) ≤ 1 := by
  obtain ⟨hmag, hfin, -⟩ := f64to32_le h.1 (p := 0x3F800000) (by norm_num) (magValue32_one ▸ h.2)
  have habs : |value32 (f64to32 y)| ≤ 1 := by
    rw [abs_value32 hfin, ← magValue32_one]; exact magValue_mono hmag (by norm_num)
  exact ⟨hfin, abs_le.1 habs⟩

/-- A binary64 number in [-1, 1] passes the limiter unchanged. -/
theorem mixLimited_of_atMost {x : F64} (h : AtMost64 1 x) : mixLimited x = x := by
  obtain ⟨hlo, hhi⟩ := abs_le.1 h.2
  rw [mixLimited_of_isFinite64 h.1, if_neg (not_lt.2 hlo), if_neg (not_lt.2 hhi)]

/-- Widening a sample whose pattern is at most that of 1.0 gives a number in [-1, 1]. -/
theorem f32to64_atMost_one {w : F32} (h : mag32 w ≤ 0x3F800000) : AtMost64 1 (f32to64 w) := by
  have hfin32 : isFinite32 w = true := (isFinite32_iff w).2 (by omega)
  obtain ⟨hfin, hval, -⟩ := f32to64_exact hfin32
  refine ⟨hfin, ?_⟩
  rw [hval, abs_value32 hfin32, ← magValue32_one]
  exact magValue_mono h (by norm_num)

/-! ## MIX's checks (R177, R234) -/

theorem rateOk_iff (r : Word) : rateOk r = true ↔ Claim.legalRate r := decide_eq_true_iff

theorem mixError_of_long {s : State} {x : Wave}
    (h : s.params.sampleCap < s.vbufLen.toNat ∨ s.params.sampleCap < (x.len s).toNat) : mixError s x = some .lenRange := by
  have hlong : (!lenOk s.params s.vbufLen || !lenOk s.params (x.len s)) = true := by
    rw [Bool.or_eq_true, Bool.not_eq_true', Bool.not_eq_true', ← Bool.not_eq_true, ← Bool.not_eq_true, lenOk_iff, lenOk_iff]
    omega
  rw [mixError, if_pos hlong]

section
variable {s : State} {x : Wave} (hv : s.vbufLen.toNat ≤ s.params.sampleCap) (hx : (x.len s).toNat ≤ s.params.sampleCap)
include hv hx

/-- Past the length check only the rates count. -/
theorem mixError_of_fits : mixError s x =
    if !rateOk s.vbufSr || !rateOk (x.rate s) then some .badRate
    else if s.vbufSr ≠ x.rate s then some .rateMismatch
    else none := by
  rw [mixError, (lenOk_iff _ _).2 hv, (lenOk_iff _ _).2 hx]
  rfl

theorem mixError_of_badRate (h : ¬Claim.legalRate s.vbufSr ∨ ¬Claim.legalRate (x.rate s)) :
    mixError s x = some .badRate := by
  rw [← rateOk_iff, ← rateOk_iff, Bool.not_eq_true, Bool.not_eq_true] at h
  have hbad : (!rateOk s.vbufSr || !rateOk (x.rate s)) = true := by
    rcases h with h | h <;> simp [h]
  rw [mixError_of_fits hv hx, if_pos hbad]

/-- Past the checks of each rate only their difference counts. -/
theorem mixError_of_legalRates (hvr : Claim.legalRate s.vbufSr) (hxr : Claim.legalRate (x.rate s)) :
    mixError s x = if s.vbufSr ≠ x.rate s then some .rateMismatch else none := by
  rw [mixError_of_fits hv hx, (rateOk_iff _).2 hvr, (rateOk_iff _).2 hxr]
  rfl

theorem mixError_eq_none (hvr : Claim.legalRate s.vbufSr) (heq : x.rate s = s.vbufSr) : mixError s x = none := by
  rw [mixError_of_legalRates hv hx hvr (heq.symm ▸ hvr), if_neg (not_not.2 heq.symm)]

end

/-! ## MIX's effect (R176, R177, R212) -/

/-- The state in which MIX completes without an error. -/
def mixedDown (s : State) (x : Wave) : State :=
  finishCommand ({ s.writeBytes mbufBase (wordBytes (mixSamples s x)) with
    mbufLen := BitVec.ofNat 32 (mixLength s x)
    mbufSr := s.vbufSr }.noteNan (mixMetNan s x))

theorem complete_runMix_of_none {s : State} {x : Wave} (h : mixError s x = none) :
    complete s (runMix x s) = mixedDown s x := by
  rw [runMix, h]; rfl

theorem runMix_of_some {s : State} {x : Wave} {e : CmdError} (h : mixError s x = some e) : runMix x s = .error e := by
  rw [runMix, h]

theorem exec_mixI_of_none {s : State} (h : mixError s .ibuf = none) : exec .mixI s = .next (mixedDown s .ibuf) :=
  (exec_eq .mixI s).trans (congrArg _ (complete_runMix_of_none h))

theorem exec_mixV_of_none {s : State} (h : mixError s .vbuf = none) : exec .mixV s = .next (mixedDown s .vbuf) :=
  (exec_eq .mixV s).trans (congrArg _ (complete_runMix_of_none h))

theorem mixedDown_nan (s : State) (x : Wave) : (mixedDown s x).status.nan = (s.status.nan || mixMetNan s x) := rfl

theorem mixedDown_mbufLen (s : State) (x : Wave) : (mixedDown s x).mbufLen = BitVec.ofNat 32 (mixLength s x) := rfl

theorem wordAt_mixedDown (s : State) (x : Wave) {i : ℕ} (hi : i < mixLength s x) :
    (mixedDown s x).wordAt (0x03000000 + 4 * i) = f64to32 (mixLimited (mixSumAt s x i)) := by
  have hlen : i < (mixSamples s x).length := by rwa [mixSamples_length]
  have hread := wordAt_writeWords s mbufBase (mixSamples s x) i hlen (.inr (by decide))
  exact (wordAt_congr rfl rfl rfl _).trans (hread.trans (by simp [mixSamples]))

/-- What `limitedAt` writes out is the model's limiter on the model's sum. -/
theorem limitedAt_eq (s : State) (x : Wave) (i : ℕ) :
    Claim.limitedAt s x.base (x.len s) i = mixLimited (mixSumAt s x i) := rfl

/-- A completed MIX has written the block of N words, its registers and NAN, whichever the instrumental operand is. -/
theorem mixed_mixedDown (s : State) (x : Wave) : Claim.mixed s (mixedDown s x) x.base (x.len s) := by
  refine ⟨rfl, Claim.keepsBytesOutside_of_write rfl rfl rfl ?_, fun i hi => ?_⟩
  · rw [wordBytes_length, mixSamples_length]; rfl
  · rw [wordAt_mixedDown s x hi, limitedAt_eq]

/-- A MIX that completes without an error has stored limited sums, whatever its operands (R179). -/
theorem mix_sample_range {s : State} {x : Wave} (herr : (complete s (runMix x s)).status.err = false) {k : ℕ}
    (hk : k < mixLength s x) :
    isFinite32 ((complete s (runMix x s)).wordAt (0x03000000 + 4 * k)) = true ∧
    -1 ≤ value32 ((complete s (runMix x s)).wordAt (0x03000000 + 4 * k)) ∧
    value32 ((complete s (runMix x s)).wordAt (0x03000000 + 4 * k)) ≤ 1 := by
  cases hmix : mixError s x with
  | some e =>
    rw [runMix_of_some hmix] at herr
    cases herr
  | none =>
    rw [complete_runMix_of_none hmix, wordAt_mixedDown s x hk]
    exact f64to32_range (mixLimited_atMost _)

/-! ## MIX V at gains 1.0 and +0.0 (R179) -/

/-- Below the length the gained sum is the widened sample itself. -/
theorem mixSumAt_self {s : State} (hv : s.gainV = 0x3F800000) (hi : s.gainI = 0x00000000) {i : ℕ} (hlt : i < s.vbufLen.toNat)
    (hfin : isFinite64 (f32to64 (Wave.vbuf.sample s i)) = true) : mixSumAt s .vbuf i = f32to64 (Wave.vbuf.sample s i) := by
  have one : f32to64 0x3F800000 = plusOne64 := by decide +kernel
  have zero : f32to64 0x00000000 = 0 := by decide +kernel
  have hpad : paddedSample s .vbuf i = f32to64 (Wave.vbuf.sample s i) := if_pos hlt
  rw [mixSumAt, hpad, hv, hi, one, zero, mixSum_self hfin]

end Sys2Proof.Machine

namespace Sys2Proof.Claim

open Sys2Proof.Machine

/-! ## The obligations -/

/-- Settles O31: the checks pass, and one lemma says of either operand what the completed state is. -/
theorem mixWritesTheLimitedSums : Obligations.MixWritesTheLimitedSums := by
  unfold Obligations.MixWritesTheLimitedSums
  intro s hlen hrate
  exact ⟨⟨_, exec_mixV_of_none (mixError_eq_none hlen hlen hrate rfl), mixed_mixedDown s .vbuf⟩,
    fun hilen hirate => ⟨_, exec_mixI_of_none (mixError_eq_none hlen hilen hrate hirate), mixed_mixedDown s .ibuf⟩⟩

/-- Settles O32: the checks in the order of R234, for each operand; MIX V compares VBUF_SR with itself. -/
theorem mixReportsTheFirstError : Obligations.MixReportsTheFirstError := by
  unfold Obligations.MixReportsTheFirstError
  intro s
  have mixI : ∀ e, mixError s .ibuf = some e → exec .mixI s = errorCompletion s e.code := fun _ h =>
    exec_of_error (i := .mixI) (runMix_of_some h)
  have mixV : ∀ e, mixError s .vbuf = some e → exec .mixV s = errorCompletion s e.code := fun _ h =>
    exec_of_error (i := .mixV) (runMix_of_some h)
  refine ⟨fun hlong => ⟨mixI .lenRange (mixError_of_long (.inl hlong)), mixV .lenRange (mixError_of_long (.inl hlong))⟩,
    fun hlong => mixI .lenRange (mixError_of_long (.inr hlong)),
    fun hlen hrate => mixV .badRate (mixError_of_badRate hlen hlen (.inl hrate)),
    fun hlen hilen => ⟨fun hrate => mixI .badRate (mixError_of_badRate hlen hilen hrate), fun hvrate hirate hne => ?_⟩⟩
  exact mixI .rateMismatch ((mixError_of_legalRates (x := .ibuf) hlen hilen hvrate hirate).trans (if_pos hne))

/-- Settles O33: the limiter compares values; its answer is in [-1, 1], and narrowing keeps it there. -/
theorem limiterClampsToOne : Obligations.LimiterClampsToOne := by
  unfold Obligations.LimiterClampsToOne
  intro x _
  refine ⟨?_, ?_, fun hfin hlo hhi => mixLimited_of_atMost ⟨hfin, abs_le.2 ⟨hlo, hhi⟩⟩, f64to32_range (mixLimited_atMost x)⟩
  · rintro (rfl | ⟨hfin, hlow⟩)
    · exact mixLimited_minusInf
    · rw [mixLimited_of_isFinite64 hfin, if_pos hlow, minusOne64]
  · rintro (rfl | ⟨hfin, hhigh⟩)
    · exact mixLimited_plusInf
    · rw [mixLimited_of_isFinite64 hfin, if_neg (by linarith), if_pos hhigh, plusOne64]

/-- Settles O34: the last thing that happens to a sum before its store is the limiter. -/
theorem mixedSamplesLieInRange : Obligations.MixedSamplesLieInRange := by
  unfold Obligations.MixedSamplesLieInRange
  intro i s hi
  refine ⟨_, exec_eq i s, fun herr k hk => ?_⟩
  rcases hi with rfl | rfl
  · exact mix_sample_range (x := .ibuf) herr hk
  · exact mix_sample_range (x := .vbuf) herr (lt_max_of_lt_left hk)

/-- Settles O35: the sum is the sample, the limiter passes it, and narrowing takes it back to its pattern. -/
theorem selfMixIsTheIdentity : Obligations.SelfMixIsTheIdentity := by
  unfold Obligations.SelfMixIsTheIdentity
  intro s hlen hrate hgv hgi hunit
  have hlength : mixLength s .vbuf = s.vbufLen.toNat := max_self _
  have hone : ∀ i, i < s.vbufLen.toNat → AtMost64 1 (f32to64 (Wave.vbuf.sample s i)) := fun i hi =>
    f32to64_atMost_one (hunit i hi)
  have hsum : ∀ i, i < s.vbufLen.toNat → mixSumAt s .vbuf i = f32to64 (Wave.vbuf.sample s i) := fun i hi =>
    mixSumAt_self hgv hgi hi (hone i hi).1
  have hmet : mixMetNan s .vbuf = false := List.any_eq_false.2 fun i hi => by
    rw [hlength, List.mem_range] at hi
    rw [hsum i hi, isNaN64_of_isFinite64 (hone i hi).1]
    exact Bool.false_ne_true
  refine ⟨_, exec_mixV_of_none (mixError_eq_none hlen hlen hrate rfl), ?_, ?_, fun i hi => ?_⟩
  · rw [mixedDown_nan, hmet, Bool.or_false]
  · rw [mixedDown_mbufLen, hlength, BitVec.ofNat_toNat, BitVec.setWidth_eq]
  · have hnumber : isNaN32 (Wave.vbuf.sample s i) = false := by
      rw [isNaN32_f32to64, isNaN64_of_isFinite64 (hone i hi).1]
    rw [wordAt_mixedDown s .vbuf (by rwa [hlength]), hsum i hi, mixLimited_of_atMost (hone i hi), f64to32_f32to64 hnumber]
    rfl

/-- Settles O43: two samples of 24 bits have a product of 48, which rounding to 53 leaves as it is. -/
theorem sampleProductsAreExact : Obligations.SampleProductsAreExact := by
  unfold Obligations.SampleProductsAreExact
  exact fun _ _ hx hg => mul64_f32to64_exact hx hg

end Sys2Proof.Claim
end

section
/-! PROOFS. The encoder (44_encoder.md): exact scaling, the quantizer, the stream, and ENCODE itself: O36 to O40. -/

namespace Sys2Proof.Machine

/-! ## Scaling (R191) -/

/-- 32768.0 is a sample itself, widened: scaling is a product of two samples. -/
theorem f32to64_scale : f32to64 0x47000000 = scale64 := by decide +kernel

theorem value32_scale : value32 0x47000000 = 32768 := by decide +kernel

theorem scaleSample_exact {x : F32} (hx : isFinite32 x = true) :
    isFinite64 (scaleSample x) = true ∧ value64 (scaleSample x) = 32768 * value32 x := by
  obtain ⟨hfin, hval⟩ := mul64_f32to64_exact hx (g := 0x47000000) (by decide)
  rw [f32to64_scale] at hfin hval
  exact ⟨hfin, by rw [scaleSample, hval, value32_scale, mul_comm]⟩

theorem scaleSample_of_isNaN32 {x : F32} (hx : isNaN32 x = true) : isNaN64 (scaleSample x) = true := by
  obtain ⟨-, -, -, hnan⟩ := Claim.mulRounds_holds (f32to64 x) scale64
  exact (hnan (by rwa [← Claim.isNaN32_f32to64])).1

/-! ## The quantizer (R192, R193, R197) -/

/-- floor(m · 2^e + 1/2), which the model computes on integers, is Mathlib's rounding, where ties go up. -/
theorem roundHalfUp_eq_round (mag : ℕ) (exp : ℤ) : (roundHalfUp mag exp : ℤ) = round ((mag : ℚ) * 2 ^ exp) := by
  rw [roundHalfUp, two_zpow_split]
  split_ifs with h
  · have hden : (-exp).toNat = 0 := by omega
    rw [hden, pow_zero, div_one, ← round_natCast (α := ℚ)]
    push_cast
    rfl
  · have hnum : exp.toNat = 0 := by omega
    have hfrac : (mag : ℚ) * (2 ^ exp.toNat / 2 ^ (-exp).toNat) + 1 / 2 =
        ((2 * mag + 2 ^ (-exp).toNat : ℕ) : ℚ) / ((2 ^ ((-exp).toNat + 1) : ℕ) : ℚ) := by
      rw [hnum]
      push_cast
      field_simp
      ring
    rw [round_eq, hfrac, Rat.floor_natCast_div_natCast, Int.natCast_ediv]

/-- The quantizer on a finite scaled sample: its magnitude rounded, its sign, the clamp. -/
theorem quantizeScaled_of_isFinite64 {y : F64} (hy : isFinite64 y = true) :
    quantizeScaled y =
      clampInt (if neg64 y then -round |value64 y| else round |value64 y|) (-32768) 32767 := by
  obtain ⟨m, e, hd⟩ := finite_datum hy
  have habs : |value64 y| = (m : ℚ) * 2 ^ e := by
    rw [value64_fin hd, abs_mul, abs_signOf, one_mul, abs_of_nonneg (mul_nonneg (Nat.cast_nonneg m) (two_zpow_pos e).le)]
  simp only [quantizeScaled, hd]
  rw [habs, ← roundHalfUp_eq_round, signedInt]

theorem quantizeScaled_of_nonneg {y : F64} (hy : isFinite64 y = true) (h : 0 ≤ value64 y) :
    quantizeScaled y = clampInt (round (value64 y)) (-32768) 32767 := by
  rw [quantizeScaled_of_isFinite64 hy, abs_of_nonneg h]
  rcases h.eq_or_lt with h0 | hpos
  · -- -0.0 gives the integer that +0.0 gives
    rw [← h0, round_zero, neg_zero, ite_self]
  · rw [if_neg fun hneg => h.not_gt ((value64_neg_iff hy hpos.ne').2 hneg)]

theorem quantizeScaled_of_neg {y : F64} (hy : isFinite64 y = true) (h : value64 y < 0) :
    quantizeScaled y = clampInt (-round (-value64 y)) (-32768) 32767 := by
  rw [quantizeScaled_of_isFinite64 hy, abs_of_neg h, if_pos ((value64_neg_iff hy h.ne).1 h)]

/-- Before the clamp the quantizer is within a half of the scaled sample. -/
theorem exists_near_quantizeScaled {y : F64} (hy : isFinite64 y = true) :
    ∃ k : ℤ, |value64 y - k| ≤ 1 / 2 ∧ quantizeScaled y = clampInt k (-32768) 32767 := by
  rcases le_or_gt 0 (value64 y) with h | h
  · exact ⟨_, abs_sub_round _, quantizeScaled_of_nonneg hy h⟩
  · refine ⟨_, le_of_eq_of_le ?_ (abs_sub_round (-value64 y)), quantizeScaled_of_neg hy h⟩
    rw [← abs_neg, neg_sub, Int.cast_neg, neg_sub_left, neg_add']

/-- Between the clamp's lower bound and one past its upper bound the clamp moves an integer by at most 1. -/
theorem clampInt_near {v : ℚ} {k : ℤ} (hk : |v - k| ≤ 1 / 2) (hv : |v| ≤ 32768) :
    |(clampInt k (-32768) 32767 : ℚ) - v| ≤ 1 := by
  rw [abs_le] at hk hv ⊢
  obtain ⟨hklo, hkhi⟩ := hk
  obtain ⟨hvlo, hvhi⟩ := hv
  have hlow : -32769 < k := by
    have : (-32769 : ℚ) < k := by linarith
    exact_mod_cast this
  have hhigh : k < 32769 := by
    have : (k : ℚ) < 32769 := by linarith
    exact_mod_cast this
  rcases (Int.le_of_lt_add_one hhigh : k ≤ 32768).eq_or_lt with rfl | hlt
  · have hclamp : clampInt 32768 (-32768) 32767 = 32767 := rfl
    rw [hclamp]
    push_cast at hklo ⊢
    exact ⟨by linarith, by linarith⟩
  · have hclamp : clampInt k (-32768) 32767 = k := by rw [clampInt]; omega
    rw [hclamp]
    exact ⟨by linarith, by linarith⟩

theorem quantize_near {x : F32} (hx : isFinite32 x = true) (hlo : -1 ≤ value32 x) (hhi : value32 x ≤ 1) :
    |(quantize x : ℚ) - 32768 * value32 x| ≤ 1 := by
  obtain ⟨hfin, hval⟩ := scaleSample_exact hx
  obtain ⟨k, hk, hq⟩ := exists_near_quantizeScaled hfin
  rw [hval] at hk
  rw [quantize, hq]
  exact clampInt_near hk (abs_le.2 ⟨by linarith, by linarith⟩)

/-! ## ENCODE's checks (R196, R234) -/

/-- ENCODE's checks, as comparisons of numbers. -/
theorem encodeError_eq (s : State) (src : Wave) : encodeError s src =
    if s.params.sampleCap < (src.len s).toNat then some .lenRange
    else if (src.len s).toNat = 0 then some .zeroLength
    else if rateOk (src.rate s) then none
    else some .badRate := by
  have hlen : (!lenOk s.params (src.len s)) = true ↔ s.params.sampleCap < (src.len s).toNat := by
    rw [Bool.not_eq_true', ← Bool.not_eq_true, lenOk_iff, not_le]
  have hzero : src.len s = 0 ↔ (src.len s).toNat = 0 := BitVec.toNat_inj.symm
  simp only [encodeError, hlen, hzero]
  cases rateOk (src.rate s) <;> rfl

theorem encodeError_eq_none {s : State} {src : Wave} (h : Claim.encodeOperandsOk s (src.len s) (src.rate s)) :
    encodeError s src = none := by
  obtain ⟨⟨hpos, hlen⟩, hrate⟩ := h
  rw [encodeError_eq, if_neg (by omega), if_neg (by omega), if_pos ((rateOk_iff _).2 hrate)]

theorem runEncode_of_some {s : State} {src : Wave} {e : CmdError} (h : encodeError s src = some e) :
    runEncode src s = .error e := by
  rw [runEncode, h]

/-- The form of ENCODE with a given source (R92). -/
def encodeOf : Wave → Instr
  | .mbuf => .encodeM
  | .vbuf => .encodeV
  | .ibuf => .encodeI

theorem runOf_encodeOf (src : Wave) (s : State) : runOf (encodeOf src) s = runEncode src s := by cases src <;> rfl

theorem exec_encodeOf_of_some {s : State} {src : Wave} {e : CmdError} (h : encodeError s src = some e) :
    exec (encodeOf src) s = Claim.errorCompletion s e.code :=
  Claim.exec_of_error ((runOf_encodeOf src s).trans (runEncode_of_some h))

/-! ## Pieces of a stream -/

theorem bytesAt_congr {s t : State} (hm : t.mem = s.mem) (hp : t.params = s.params) (hd : t.powerOnDraw = s.powerOnDraw)
    (a n : ℕ) : t.bytesAt a n = s.bytesAt a n :=
  List.map_congr_left fun k _ => byteAt_congr hm hp hd (a + k)

/-- A piece of a block that was written behind PITCH reads back. -/
theorem bytesAt_writeBytes (s : State) {base : ℕ} {bytes : List Byte} {off n : ℕ} (hn : n ≤ bytes.length - off)
    (hp : pitchBase + 96 ≤ base) : (s.writeBytes base bytes).bytesAt (base + off) n = (bytes.drop off).take n := by
  refine List.ext_getElem (by simp [State.bytesAt, hn]) fun k hk _ => ?_
  have hkn : k < n := by simpa [State.bytesAt] using hk
  have hread : ((s.writeBytes base bytes).bytesAt (base + off) n)[k] = (s.writeBytes base bytes).byteAt (base + off + k) := by
    simp [State.bytesAt]
  rw [hread, List.getElem_take, List.getElem_drop, byteAt_writeBytes _ _ _ _ (by omega), if_pos (by omega),
    Nat.add_assoc, Nat.add_sub_cancel_left, List.getD_eq_getElem]

/-- A block of pieces, cut at the end of the first i pieces, goes on with piece i. -/
theorem take_drop_flatten {α : Type} {pieces : List (List α)} {i : ℕ} {piece : List α} (h : pieces[i]? = some piece) :
    (pieces.flatten.drop ((pieces.map List.length).take i).sum).take piece.length = piece := by
  obtain ⟨hi, rfl⟩ := List.getElem?_eq_some_iff.1 h
  have hcut := pieces.drop_take_succ_flatten_eq_getElem i hi
  rwa [List.sum_take_succ _ i (by simpa), List.getElem_map, List.drop_take, Nat.add_sub_cancel_left] at hcut

/-- The thirteen fields of the header for N samples at rate R (R194). -/
def headerPieces (n r : ℕ) : List (List Byte) :=
  [[0x52, 0x49, 0x46, 0x46], bytesOfNat 4 (36 + 2 * n), [0x57, 0x41, 0x56, 0x45], [0x66, 0x6D, 0x74, 0x20],
    bytesOfNat 4 16, bytesOfNat 2 1, bytesOfNat 2 1, bytesOfNat 4 r, bytesOfNat 4 (2 * r), bytesOfNat 2 2, bytesOfNat 2 16,
    [0x64, 0x61, 0x74, 0x61], bytesOfNat 4 (2 * n)]

theorem wavHeader_eq_flatten (n r : ℕ) : wavHeader n r = (headerPieces n r).flatten := by
  have riff : bytesOfNat 4 0x46464952 = [0x52, 0x49, 0x46, 0x46] := by decide
  have wave : bytesOfNat 4 0x45564157 = [0x57, 0x41, 0x56, 0x45] := by decide
  have fmt : bytesOfNat 4 0x20746D66 = [0x66, 0x6D, 0x74, 0x20] := by decide
  have data : bytesOfNat 4 0x61746164 = [0x64, 0x61, 0x74, 0x61] := by decide
  simp only [wavHeader, riff, wave, fmt, data, headerPieces, List.flatten_cons, List.flatten_nil, List.append_nil,
    List.append_assoc]

/-- How many bytes the fields of the header have (R194). -/
def headerWidths : List ℕ := [4, 4, 4, 4, 4, 2, 2, 4, 4, 2, 2, 4, 4]

theorem map_length_headerPieces (n r : ℕ) : (headerPieces n r).map List.length = headerWidths := by
  simp [headerPieces, headerWidths]

theorem headerPieces_length (n r : ℕ) : (headerPieces n r).length = 13 := rfl

/-- The stream's pieces: the fields of the header, then two bytes for each sample (R195). -/
def wavPieces (s : State) (src : Wave) : List (List Byte) :=
  headerPieces (src.len s).toNat (src.rate s).toNat ++ (waveSamples s src).map sampleBytes

theorem wavStream_eq_flatten (s : State) (src : Wave) : wavStream s src = (wavPieces s src).flatten := by
  rw [wavStream, wavHeader_eq_flatten, wavPieces, List.flatten_append, List.flatMap_def]

theorem map_length_wavPieces (s : State) (src : Wave) :
    (wavPieces s src).map List.length = headerWidths ++ List.replicate (src.len s).toNat 2 := by
  have hlen : ∀ x, (sampleBytes x).length = 2 := fun x => bytesOfNat_length 2 _
  rw [wavPieces, List.map_append, map_length_headerPieces, List.map_map, ← waveSamples_length s src, ← List.map_const']
  exact congrArg _ (List.map_congr_left fun x _ => hlen x)

/-- Field i of the header, and where it begins. -/
theorem wavPieces_field (s : State) (src : Wave) {i : ℕ} (hi : i < 13) :
    (wavPieces s src)[i]? = (headerPieces (src.len s).toNat (src.rate s).toNat)[i]? ∧
    (((wavPieces s src).map List.length).take i).sum = (headerWidths.take i).sum := by
  rw [map_length_wavPieces, List.take_append_of_le_length hi.le]
  exact ⟨List.getElem?_append_left hi, rfl⟩

/-- Sample i's piece, and where it begins. -/
theorem wavPieces_sample (s : State) (src : Wave) {i : ℕ} (hi : i < (src.len s).toNat) :
    (wavPieces s src)[13 + i]? = some (sampleBytes (src.sample s i)) ∧
    (((wavPieces s src).map List.length).take (13 + i)).sum = 44 + 2 * i := by
  constructor
  · rw [wavPieces, List.getElem?_append_right (by rw [headerPieces_length]; omega), headerPieces_length,
      Nat.add_sub_cancel_left]
    simp [waveSamples, hi]
  · have hwidths : headerWidths.length = 13 := rfl
    rw [map_length_wavPieces, ← hwidths, List.take_length_add_append, List.sum_append, List.take_replicate,
      Nat.min_eq_left hi.le, List.sum_replicate, smul_eq_mul, Nat.mul_comm]
    rfl

/-! ## ENCODE's effect (R194 to R196, R212) -/

/-- The state in which ENCODE completes without an error. -/
def encodedFrom (s : State) (src : Wave) : State :=
  finishCommand ({ s.writeBytes wbufBase (wavStream s src) with
    wavLen := BitVec.ofNat 32 (44 + 2 * (src.len s).toNat) }.noteNan (encodeMetNan s src))

theorem exec_encodeOf_of_none {s : State} {src : Wave} (h : encodeError s src = none) :
    exec (encodeOf src) s = .next (encodedFrom s src) := by
  rw [exec_eq, runOf_encodeOf, runEncode, h]; rfl

/-- Each piece of the stream stands in WBUF after the pieces before it. -/
theorem bytesAt_encodedFrom {s : State} {src : Wave} {i off : ℕ} {piece : List Byte} (hpiece : (wavPieces s src)[i]? = some piece)
    (hoff : (((wavPieces s src).map List.length).take i).sum = off) :
    (encodedFrom s src).bytesAt (0x04000000 + off) piece.length = piece := by
  have hcut := take_drop_flatten hpiece
  rw [hoff, ← wavStream_eq_flatten] at hcut
  have hlen : piece.length ≤ (wavStream s src).length - off := by
    rw [← List.length_drop, ← hcut]
    exact List.length_take_le' _ _
  calc (encodedFrom s src).bytesAt (0x04000000 + off) piece.length
      = (s.writeBytes wbufBase (wavStream s src)).bytesAt (wbufBase + off) piece.length := bytesAt_congr rfl rfl rfl _ _
    _ = piece := (bytesAt_writeBytes s hlen (by decide)).trans hcut

/-- Field i of the header stands in WBUF after the fields before it (R194). -/
theorem bytesAt_encodedFrom_field {s : State} {src : Wave} (i : ℕ) {piece : List Byte} (hi : i < 13)
    (h : (headerPieces (src.len s).toNat (src.rate s).toNat)[i]? = some piece) :
    (encodedFrom s src).bytesAt (0x04000000 + (headerWidths.take i).sum) piece.length = piece := by
  obtain ⟨hpiece, hoff⟩ := wavPieces_field s src hi
  exact bytesAt_encodedFrom (hpiece.trans h) hoff

/-- A field that holds a number reads as this number, if it fits. -/
theorem natOfBytes_encodedFrom_field {s : State} {src : Wave} (i : ℕ) {n v : ℕ} (hi : i < 13)
    (h : (headerPieces (src.len s).toNat (src.rate s).toNat)[i]? = some (bytesOfNat n v)) (hv : v < 256 ^ n) :
    natOfBytes ((encodedFrom s src).bytesAt (0x04000000 + (headerWidths.take i).sum) n) = v := by
  have hread := bytesAt_encodedFrom_field i hi h
  rw [bytesOfNat_length] at hread
  rw [hread, natOfBytes_bytesOfNat, Nat.mod_eq_of_lt hv]

/-- Sample i stands after the header and the samples before it (R195). -/
theorem natOfBytes_encodedFrom_sample {s : State} {src : Wave} {i : ℕ} (hi : i < (src.len s).toNat) :
    natOfBytes ((encodedFrom s src).bytesAt (0x0400002C + 2 * i) 2) =
      (BitVec.ofInt 16 (quantize (src.sample s i))).toNat := by
  obtain ⟨hpiece, hoff⟩ := wavPieces_sample s src hi
  have hread := bytesAt_encodedFrom hpiece hoff
  rw [sampleBytes, bytesOfNat_length, ← Nat.add_assoc] at hread
  exact (congrArg natOfBytes hread).trans ((natOfBytes_bytesOfNat _ _).trans (Nat.mod_eq_of_lt (BitVec.isLt _)))

theorem encodeMetNan_eq (s : State) (src : Wave) : encodeMetNan s src =
    (List.range (src.len s).toNat).any (fun i => isNaN64 (scaleSample (src.sample s i))) := by
  rw [encodeMetNan, waveSamples, List.any_map]; rfl

theorem encodedFrom_eq (s : State) (src : Wave) : encodedFrom s src = { s with
    mem := (encodedFrom s src).mem
    wavLen := BitVec.ofNat 32 (44 + 2 * (src.len s).toNat)
    status := Claim.succeeded s.status
      ((List.range (src.len s).toNat).any (fun i => isNaN64 (scaleSample (src.sample s i))))
    eng := none } := by
  rw [← encodeMetNan_eq]; rfl

/-- A completed ENCODE has written the stream, WAV_LEN and NAN, whichever the source is: with at most 2^22 samples and a legal rate
every number of the header fits its field. -/
theorem encoded_encodedFrom {s : State} {src : Wave} (hp : s.params.legal = true)
    (h : Claim.encodeOperandsOk s (src.len s) (src.rate s)) :
    Claim.encoded s (encodedFrom s src) src.base (src.len s) (src.rate s) := by
  obtain ⟨-, -, -, -, -, hcap⟩ := legal_caps hp
  obtain ⟨⟨-, hlen⟩, -, hrate⟩ := h
  exact ⟨encodedFrom_eq s src, Claim.keepsBytesOutside_of_write rfl rfl rfl (wavStream_length s src),
    bytesAt_encodedFrom_field 0 (by decide) rfl,
    natOfBytes_encodedFrom_field 1 (by decide) rfl (by omega),
    bytesAt_encodedFrom_field 2 (by decide) rfl,
    bytesAt_encodedFrom_field 3 (by decide) rfl,
    natOfBytes_encodedFrom_field 4 (by decide) rfl (by omega),
    natOfBytes_encodedFrom_field 5 (by decide) rfl (by omega),
    natOfBytes_encodedFrom_field 6 (by decide) rfl (by omega),
    natOfBytes_encodedFrom_field 7 (by decide) rfl (by omega),
    natOfBytes_encodedFrom_field 8 (by decide) rfl (by omega),
    natOfBytes_encodedFrom_field 9 (by decide) rfl (by omega),
    natOfBytes_encodedFrom_field 10 (by decide) rfl (by omega),
    bytesAt_encodedFrom_field 11 (by decide) rfl,
    natOfBytes_encodedFrom_field 12 (by decide) rfl (by omega),
    fun i hi => natOfBytes_encodedFrom_sample hi⟩

end Sys2Proof.Machine

namespace Sys2Proof.Claim

open Sys2Proof.Machine

/-! ## The obligations -/

/-- Settles O36: scaling is a product of two samples, which is exact; the infinities are computed. -/
theorem scalingIsExact : Obligations.ScalingIsExact := by
  unfold Obligations.ScalingIsExact
  intro x
  refine ⟨fun hx => scaleSample_exact hx, ?_, ?_, fun hx => scaleSample_of_isNaN32 hx⟩
  · rintro rfl; decide
  · rintro rfl; decide

/-- Settles O37: the model's integer rounding is floor(|y| + 1/2), and each sign has its case. -/
theorem quantizerRoundsHalfAway : Obligations.QuantizerRoundsHalfAway := by
  unfold Obligations.QuantizerRoundsHalfAway
  intro y
  refine ⟨fun hy h => ?_, fun hy h => ?_, ?_, ?_, fun hy => ?_⟩
  · rw [quantizeScaled_of_nonneg hy h, round_eq, clampInt]
  · rw [quantizeScaled_of_neg hy h, round_eq, clampInt]
  · rintro rfl; decide
  · rintro rfl; decide
  · rw [quantizeScaled, datum64_of_isNaN64 hy]

/-- Settles O38: rounding errs by at most 1/2 of a step, and the clamp, which only 32768 meets, by at most 1 in all. -/
theorem quantizerRoundTrip : Obligations.QuantizerRoundTrip := by
  unfold Obligations.QuantizerRoundTrip
  intro x hx hlo hhi
  calc |(quantize x : ℚ) / 32768 - value32 x| = |(quantize x : ℚ) - 32768 * value32 x| / 32768 := by
        rw [← Nat.abs_ofNat (R := ℚ) 32768, ← abs_div, Nat.abs_ofNat, sub_div, mul_div_cancel_left₀ _ (by norm_num)]
    _ ≤ 1 / 32768 := by gcongr; exact quantize_near hx hlo hhi

/-- Settles O39: one lemma says of every source that the checks pass and what the completed state is. -/
theorem encodeWritesTheStream : Obligations.EncodeWritesTheStream := by
  unfold Obligations.EncodeWritesTheStream
  intro s hp
  have form : ∀ src : Wave, encodeOperandsOk s (src.len s) (src.rate s) →
      ∃ t, exec (encodeOf src) s = .next t ∧ encoded s t src.base (src.len s) (src.rate s) := fun src h =>
    ⟨_, exec_encodeOf_of_none (encodeError_eq_none h), encoded_encodedFrom hp h⟩
  exact ⟨form .mbuf, form .vbuf, form .ibuf⟩

/-- Settles O40: the checks in the order of R234, for whichever source the form names. -/
theorem encodeReportsTheFirstError : Obligations.EncodeReportsTheFirstError := by
  unfold Obligations.EncodeReportsTheFirstError
  intro s i len rate hi
  obtain ⟨src, rfl, rfl, rfl⟩ : ∃ src : Wave, i = encodeOf src ∧ len = src.len s ∧ rate = src.rate s := by
    simp only [List.mem_cons, Prod.mk.injEq, List.not_mem_nil, or_false] at hi
    rcases hi with h | h | h
    exacts [⟨.mbuf, h⟩, ⟨.vbuf, h⟩, ⟨.ibuf, h⟩]
  refine ⟨fun hlong => exec_encodeOf_of_some (e := .lenRange) ?_, fun hlen hzero => exec_encodeOf_of_some (e := .zeroLength) ?_,
    fun hlen hpos hrate => exec_encodeOf_of_some (e := .badRate) ?_⟩
  · rw [encodeError_eq, if_pos hlong]
  · rw [encodeError_eq, if_neg (not_lt.2 hlen), if_pos hzero]
  · rw [encodeError_eq, if_neg (not_lt.2 hlen), if_neg hpos, if_neg ((rateOk_iff _).not.2 hrate)]

end Sys2Proof.Claim
end

section
/-! PROOFS. Control (45_control.md): a command's steps up to its end, the writes of CTRL, STATUS and CMD, and NOP: O4, O7 to O10, O52
and O53. -/

namespace Sys2Proof.Machine

/-! ## A command in flight (R212, R217, R272) -/

/-- With the completion due, the step is the ENGINE's. -/
theorem step_of_engineFirst {s : State} {w : Word} (heng : s.eng = some w) (hfirst : s.engineFirst = true) :
    step s = engineStep w s := by
  rw [step, advance, heng]
  exact if_pos hfirst

theorem engineStep_of_ok {w : Word} {i : Instr} (h : decodeWord w = .ok i) (s : State) : engineStep w s = exec i s := by
  rw [engineStep, h]

/-- The word that is offered is in flight (R210). -/
theorem offerWord_eng (w : Word) (s : State) : (offerWord w s).eng = some w := rfl

/-- The completion of the word that is offered comes before whatever event is next. -/
theorem offerWord_engineFirst (w : Word) (s : State) : (offerWord w s).engineFirst = true := by
  unfold offerWord State.engineFirst
  rw [issue_queue]
  cases s.queue with
  | nil => rfl
  | cons e rest => rfl

/-- Every completion, with an error or without, leaves the ENGINE idle (R212, R232). -/
theorem complete_eng (s : State) (r : Except CmdError State) : (complete s r).eng = none := by
  rcases complete_cases s r with ⟨t, -, h⟩ | ⟨e, -, h⟩ <;> rw [h]
  · exact finishCommand_eng t
  · exact failCommand_eng e s

theorem engineStep_ends (w : Word) (s : State) : ∃ t, engineStep w s = .next t ∧ t.eng = none := by
  rcases engineStep_cases w s with ⟨i, -, h⟩ | ⟨e, -, h⟩
  · exact ⟨_, h.trans (exec_eq i s), complete_eng s _⟩
  · exact ⟨_, h, failCommand_eng _ s⟩

theorem softReset_eng (s : State) : (softReset s).eng = none := rfl

theorem powerOnReset_eng (s : State) : (powerOnReset s).eng = none := rfl

/-- An event while a command is in flight abandons it, or leaves it in flight with the events still to come (R76, R263, R271). -/
theorem perform_busy_eng (e : BusEvent) {s : State} (hbusy : s.busy = true) :
    (perform e s).eng = none ∨ ((perform e s).eng = s.eng ∧ (perform e s).queue = s.queue) := by
  rcases perform_busy_cases e s hbusy with ⟨ie, st, reads, d, h, -⟩ | ⟨h, -⟩ | ⟨h, -⟩ <;> rw [h]
  · exact .inr ⟨rfl, rfl⟩
  · exact .inl (softReset_eng s)
  · exact .inl (powerOnReset_eng s)

/-- A step while a command is in flight ends the command, or uses up one event: with no event left the completion is due. -/
theorem step_ends_or_uses_event {s : State} {w : Word} (heng : s.eng = some w) :
    ∃ t, step s = .next t ∧ (t.eng = none ∨ (t.eng = some w ∧ ∃ e, s.queue = e :: t.queue)) := by
  rcases step_cases s with ⟨w', -, -, hstep⟩ | ⟨hwait, hstep⟩
  · obtain ⟨t, ht, hidle⟩ := engineStep_ends w' s
    exact ⟨t, hstep.trans ht, .inl hidle⟩
  · refine ⟨_, hstep, ?_⟩
    rcases hostStep_cases s with ⟨hqueue, -⟩ | ⟨e, rest, hqueue, hhost⟩
    · simp [heng, State.engineFirst, hqueue] at hwait
    · have hbusy : State.busy { s with queue := rest } = true := by rw [State.busy, heng]; rfl
      rw [hhost]
      rcases perform_busy_eng e.event hbusy with hidle | ⟨hkept, hrest⟩
      · exact .inl hidle
      · exact .inr ⟨hkept.trans heng, e, by rw [hrest, hqueue]⟩

/-- A run takes its first step, then the rest. -/
theorem run_succ_of_step {M : Host.Core} {s t : M.State} (h : M.step s = .next t) (k : Nat) : M.run (k + 1) s = M.run k t := by
  rw [Host.Core.run, h]

/-- R217, R272: each event before the completion takes one step, and the completion one more. -/
theorem run_reaches_idle (queue : List HostEvent) (s : State) (w : Word) (hqueue : s.queue = queue) (heng : s.eng = some w) :
    ∃ k, k ≤ queue.length + 1 ∧ ∃ t, core.run k s = .next t ∧ t.eng = none := by
  induction queue generalizing s with
  | nil =>
    obtain ⟨t, hstep, hidle | ⟨-, e, he⟩⟩ := step_ends_or_uses_event heng
    · exact ⟨1, le_rfl, t, run_succ_of_step (M := core) hstep 0, hidle⟩
    · rw [hqueue] at he; cases he
  | cons e rest ih =>
    obtain ⟨t, hstep, hidle | ⟨hkept, e', he⟩⟩ := step_ends_or_uses_event heng
    · exact ⟨1, Nat.succ_le_succ (Nat.zero_le _), t, run_succ_of_step (M := core) hstep 0, hidle⟩
    · have hrest : t.queue = rest := (List.cons.inj (he.symm.trans hqueue)).2
      obtain ⟨k, hk, u, hrun, hidle⟩ := ih t hrest hkept
      exact ⟨k + 1, Nat.succ_le_succ hk, u, (run_succ_of_step (M := core) hstep k).trans hrun, hidle⟩

/-! ## The registers that are written idle or busy (R214, R215) -/

theorem writeOffset_ctrl (v : Word) (s : State) : writeOffset (regAddr .ctrl).toNat v s = writeCtrl v s := rfl

theorem writeOffset_status (v : Word) (s : State) : writeOffset (regAddr .status).toNat v s = writeStatus v s := rfl

/-- R214, bit by bit: the flags are bits 1 to 6. -/
theorem writeStatus_statusWord (v : Word) (s : State) (k : Nat) : (writeStatus v s).statusWord.getLsbD k =
    (s.statusWord.getLsbD k && !(decide (1 ≤ k ∧ k ≤ 6) && v.getLsbD k)) := by
  by_cases hflag : 1 ≤ k ∧ k ≤ 6
  · obtain ⟨hlo, hhi⟩ := hflag
    rw [statusWord_getLsbD, statusWord_getLsbD]
    interval_cases k <;> simp [writeStatus]
  · have hkept : (writeStatus v s).statusWord.getLsbD k = s.statusWord.getLsbD k := by
      obtain rfl | rfl | hhigh : k = 0 ∨ k = 7 ∨ 8 ≤ k := by omega
      · rw [statusWord_getLsbD, statusWord_getLsbD]; rfl
      · rw [statusWord_getLsbD, statusWord_getLsbD]; rfl
      · rw [statusWord_getLsbD_high _ hhigh, statusWord_getLsbD_high _ hhigh]; rfl
    rw [hkept, decide_eq_false hflag, Bool.false_and, Bool.not_false, Bool.and_true]

theorem writeCtrl_of_srst {v : Word} (h : v.getLsbD 1 = true) (s : State) : writeCtrl v s = softReset s := if_pos h

theorem writeCtrl_of_not_srst {v : Word} (h : v.getLsbD 1 = false) (s : State) :
    writeCtrl v s = { s with ctrlIE := v.getLsbD 0 } := by
  rw [writeCtrl, h]
  rfl

/-- STATUS reads 0 with every field clear and the ENGINE idle (R24, R43). -/
theorem statusWord_eq_zero {s : State} (hstatus : s.status = Status.clear) (heng : s.eng = none) : s.statusWord = 0 := by
  rw [State.statusWord, State.busy, hstatus, heng]
  decide

/-- R261: a soft reset, idle or busy, leaves every register at its reset value. -/
theorem softReset_registersReset (s : State) : Claim.registersReset (softReset s) :=
  ⟨rfl, statusWord_eq_zero rfl rfl, rfl, rfl, rfl, rfl, rfl, rfl, rfl, rfl, rfl, rfl, rfl, rfl, rfl, rfl⟩

/-- R236, R261: a soft reset takes irq down. -/
theorem softReset_irq (s : State) : (softReset s).irq = false := rfl

/-! ## NOP (R213) -/

theorem finishCommand_eq_succeeded (s : State) :
    finishCommand s = { s with status := Claim.succeeded s.status false, eng := none } := by
  rw [finishCommand, Claim.succeeded, Bool.or_false]

theorem exec_nop (s : State) : exec .nop s = .next (finishCommand s) := exec_eq .nop s

end Sys2Proof.Machine

namespace Sys2Proof.Claim

open Sys2Proof.Machine

/-! ## One offered register write -/

/-- Idle or busy, a write of a whole register is performed at the register's offset. -/
theorem step_write_at_register {s : State} {r : Reg} {v : Word} {rest : List HostEvent}
    (h : offers s (.write (regAddr r) .four v) rest) :
    step s = .next (writeOffset (regAddr r).toNat v { s with queue := rest }) := by
  obtain ⟨hlt, halign, -⟩ := regAddr_toNat r
  rw [step_of_offers h, perform, AccessSize.bytes, hostWrite_register hlt halign]

/-! ## The obligations -/

/-- Settles O7, by induction on the pending events. -/
theorem everyCommandEnds : Obligations.EveryCommandEnds := by
  unfold Obligations.EveryCommandEnds
  intro s w heng
  exact run_reaches_idle s.queue s w rfl heng

/-- Settles O8: the idle ENGINE issues the word; BUSY and irq follow from ENG and DONE. -/
theorem idleCmdWriteIsAccepted : Obligations.IdleCmdWriteIsAccepted := by
  unfold Obligations.IdleCmdWriteIsAccepted
  intro s w rest hidle hoff
  refine ⟨issue w { s with queue := rest }, ?_, rfl, ?_, rfl⟩
  · exact (step_write_at_register (r := .cmd) hoff).trans (congrArg _ (writeOffset_cmd_idle w hidle))
  · rw [statusWord_getLsbD]; rfl

/-- Settles O52: the write clears flags in STATUS alone. -/
theorem statusWriteClearsOnes : Obligations.StatusWriteClearsOnes := by
  unfold Obligations.StatusWriteClearsOnes
  intro s v rest hoff
  refine ⟨writeStatus v { s with queue := rest }, ?_, rfl, fun k _ => ?_⟩
  · rw [step_write_at_register (r := .status) hoff, writeOffset_status]
  · exact writeStatus_statusWord v { s with queue := rest } k

/-- Settles O53: bit 1 of the value decides between the soft reset and the write of IE. -/
theorem ctrlWriteSetsIeOrResets : Obligations.CtrlWriteSetsIeOrResets := by
  unfold Obligations.CtrlWriteSetsIeOrResets
  intro s v rest hoff
  refine ⟨writeCtrl v { s with queue := rest }, ?_, rfl, fun hsrst => ?_, fun hsrst => ?_⟩
  · rw [step_write_at_register (r := .ctrl) hoff, writeOffset_ctrl]
  · rw [writeCtrl_of_srst hsrst]
    exact ⟨softReset_registersReset _, rfl, softReset_irq _⟩
  · rw [writeCtrl_of_not_srst hsrst]
    exact ⟨rfl, rfl⟩

/-- Settles O4: with the completion due the step is the ENGINE's, and the ENGINE's step of a command is exec. -/
theorem stepRunsTheDecodedCommand : Obligations.StepRunsTheDecodedCommand := by
  unfold Obligations.StepRunsTheDecodedCommand
  refine ⟨?_, fun s w hw => ?_⟩
  · rintro s w i ⟨heng, hfirst⟩ hdecode
    rw [step_of_engineFirst heng hfirst, engineStep_of_ok hdecode]
  · rw [State.withFetchWord, Nat.mod_eq_of_lt hw]
    exact ⟨offerWord_eng _ s, offerWord_engineFirst _ s⟩

/-- Settles O9: the busy ENGINE drops the word and sets OVR. -/
theorem busyCmdWriteIsDropped : Obligations.BusyCmdWriteIsDropped := by
  unfold Obligations.BusyCmdWriteIsDropped
  intro s w v rest heng hoff
  have hbusy : State.busy { s with queue := rest } = true := by rw [State.busy, heng]; rfl
  rw [step_write_at_register (r := .cmd) hoff, writeOffset_busy_cmd v hbusy]
  rfl

/-- Settles O10: NOP computes nothing, so its completion is all it does. -/
theorem nopOnlyCompletes : Obligations.NopOnlyCompletes := by
  unfold Obligations.NopOnlyCompletes
  intro s
  rw [exec_nop, finishCommand_eq_succeeded]

end Sys2Proof.Claim
end

section
/-! PROOFS. Errors (60_exceptions.md): what a completion with ERR has done, and the completion of an ILLEGAL word: O5 and O11. -/

namespace Sys2Proof.Machine

/-! ## Error codes (R231) -/

/-- No error has the code NONE. -/
theorem CmdError.code_ne_zero (e : CmdError) : e.code ≠ 0 := by cases e <;> decide

/-! ## Completion with an error (R232) -/

theorem failCommand_eq_failed (e : CmdError) (s : State) :
    failCommand e s = { s with status := Claim.failed s.status e.code, eng := none } := rfl

/-- A completion shows ERR only where the command raised an error: one without an error clears it. -/
theorem complete_of_err {s : State} {r : Except CmdError State} (herr : (complete s r).status.err = true) :
    ∃ e, complete s r = failCommand e s := by
  rcases complete_cases s r with ⟨t, -, hfin⟩ | ⟨e, -, hfail⟩
  · rw [hfin, finishCommand_status] at herr
    exact absurd herr Bool.false_ne_true
  · exact ⟨e, hfail⟩

/-- BUSY reads 0 while the ENGINE is idle (R24). -/
theorem statusWord_busy_of_idle {s : State} (h : s.eng = none) : s.statusWord.getLsbD 0 = false := by
  rw [statusWord_getLsbD, if_pos rfl, State.busy, h]
  rfl

/-! ## ENCODE without a source (R94, R233) -/

/-- ENCODE with SRC = 3 selects no source. -/
theorem decodeWord_encode_src3 : decodeWord 0x00000330 = .error .illegalSelect := by decide

end Sys2Proof.Machine

namespace Sys2Proof.Claim

open Sys2Proof.Machine

/-! ## The obligations -/

/-- With its completion due, an ILLEGAL word ends in the error completion, and no register is looked at. -/
theorem step_completes_illegal {s : State} {w : Word} {e : Illegal} (hdue : completes s w)
    (hdecode : decodeWord w = .error e) : step s = errorCompletion s 0x01 := by
  obtain ⟨heng, hfirst⟩ := hdue
  calc step s = engineStep w s := step_of_engineFirst heng hfirst
    _ = .next (failCommand .illegalCmd s) := engineStep_of_error hdecode s
    _ = errorCompletion s 0x01 := congrArg _ (failCommand_eq_failed .illegalCmd s)

/-- Settles O5: decoding fails before any check is made, and it fails on ENCODE with SRC = 3. -/
theorem stepCompletesAnIllegalWord : Obligations.StepCompletesAnIllegalWord := by
  unfold Obligations.StepCompletesAnIllegalWord
  exact ⟨fun _ _ _ => step_completes_illegal, fun _ hdue => step_completes_illegal hdue decodeWord_encode_src3⟩

/-- Settles O11: every completion with ERR set is the error completion of some code, whatever the command. -/
theorem failedCommandChangesOnlyStatus : Obligations.FailedCommandChangesOnlyStatus := by
  unfold Obligations.FailedCommandChangesOnlyStatus
  intro i s t h herr
  rw [exec_eq] at h
  cases h
  obtain ⟨e, hfail⟩ := complete_of_err herr
  rw [hfail]
  exact ⟨e, failCommand_eq_failed e s, e.code_ne_zero, statusWord_busy_of_idle (failCommand_eng e s)⟩

end Sys2Proof.Claim
end

section
/-! PROOFS. Reset (70_reset_and_hazards.md): what the registers read after it, and which memory bytes it keeps: O55 to O57. -/

namespace Sys2Proof.Machine

/-! ## The registers (R261) -/

/-- A soft reset that finds the ENGINE idle only resets the registers. -/
theorem resetRegisters_registersReset (s : State) : Claim.registersReset (resetRegisters s) :=
  softReset_registersReset { s with eng := none }

/-- What the nineteen registers read after any reset: the parameters decide ID and the capacities, and nothing else does. -/
theorem readReg_of_registersReset {t : State} (h : Claim.registersReset t) :
    regList.map (readReg t) =
      [t.params.ipId, 0, 0, 0, 0, 120, 0, 0x3F800000, 0x3F800000, 0, 24000, 0, 24000, 0, 24000, 0,
        BitVec.ofNat 32 t.params.textCap, BitVec.ofNat 32 t.params.chordCap, BitVec.ofNat 32 t.params.sampleCap] := by
  obtain ⟨hie, hstatus, hcmd, -, htext, hbpm, hchords, hgainV, hgainI, hvlen, hilen, hmlen, hvsr, hisr, hmsr, hwav⟩ := h
  have hctrl : t.ctrlWord = 0 := by rw [State.ctrlWord, hie]; rfl
  simp only [regList, List.map_cons, List.map_nil, readReg, hctrl, hstatus, hcmd, htext, hbpm, hchords, hgainV, hgainI,
    hvlen, hilen, hmlen, hvsr, hisr, hmsr, hwav]

/-- The machine after power-on is one that a reset of the registers leaves as it is. -/
theorem resetRegisters_reset : resetRegisters State.reset = State.reset := rfl

/-- R260: the reset input resets the registers as SRST does. -/
theorem powerOnReset_registersReset (s : State) : Claim.registersReset (powerOnReset s) :=
  resetRegisters_registersReset { s with mem := [], powerOnDraw := s.draws, draws := s.draws + 1 }

theorem powerOnReset_params (s : State) : (powerOnReset s).params = s.params := rfl

/-! ## The memory that a soft reset keeps (R263) -/

theorem softReset_of_idle {s : State} (h : s.eng = none) : softReset s = resetRegisters s := by
  rw [softReset, State.busy, h]
  rfl

theorem softReset_of_busy {s : State} {w : Word} (h : s.eng = some w) :
    softReset s = resetRegisters (abandonOutput s) := by
  rw [softReset, State.busy, h]
  rfl

theorem softReset_params (s : State) : (softReset s).params = s.params := by
  cases h : s.eng with
  | none => rw [softReset_of_idle h]; rfl
  | some w => rw [softReset_of_busy h]; rfl

theorem inFlightRange_of_idle {s : State} (h : s.eng = none) : s.inFlightRange = (0, 0) := by
  rw [State.inFlightRange, h]

theorem inFlightRange_of_ok {s : State} {w : Word} {i : Instr} (h : s.eng = some w) (hdecode : decodeWord w = .ok i) :
    s.inFlightRange = outputRange i s := by
  simp only [State.inFlightRange, h, hdecode]

theorem inFlightRange_of_error {s : State} {w : Word} {e : Illegal} (h : s.eng = some w)
    (hdecode : decodeWord w = .error e) : s.inFlightRange = (0, 0) := by
  simp only [State.inFlightRange, h, hdecode]

/-- Idle or busy, a soft reset changes no byte but those that the word in flight may be writing. -/
theorem softReset_keepsBytesOutside (s : State) :
    Claim.keepsBytesOutside s (softReset s) s.inFlightRange.1 s.inFlightRange.2 := by
  cases h : s.eng with
  | none =>
    rw [softReset_of_idle h]
    exact Claim.keepsBytesOutside_of_mem_eq rfl rfl rfl _ _
  | some w =>
    rw [softReset_of_busy h]
    exact Claim.keepsBytesOutside_of_write rfl rfl rfl (freeBytes_length _ _ _)

/-- With nothing to write in flight, a soft reset changes no byte. -/
theorem softReset_byteAt {s : State} (h : s.inFlightRange = (0, 0)) (a : Nat) : (softReset s).byteAt a = s.byteAt a := by
  have hkeeps := softReset_keepsBytesOutside s
  rw [h] at hkeeps
  exact hkeeps a (by omega)

/-! ## The model's output ranges lie in those of R71 -/

theorem pchordCount_le (s : State) : pchordCount s ≤ (chordSequence s.text).length := by
  unfold pchordCount
  split
  · exact Nat.zero_le _
  · exact le_rfl

/-- The range in flight starts where R71's does and is no longer: it is cut at the end of the populated part. -/
theorem outputRange_within_outputBytes (i : Instr) (s : State) :
    (outputRange i s).1 = (Claim.outputBytes i s).1 ∧ (outputRange i s).2 ≤ (Claim.outputBytes i s).2 := by
  cases i with
  | nop => exact ⟨rfl, le_rfl⟩
  | ptempo => exact ⟨rfl, le_rfl⟩
  | pchord => exact ⟨rfl, Nat.mul_le_mul_left 4 ((min_le_left _ _).trans (pchordCount_le s))⟩
  | synth => exact ⟨rfl, Nat.mul_le_mul_left 4 (min_le_left _ _)⟩
  | mixI => exact ⟨rfl, Nat.mul_le_mul_left 4 (min_le_left _ _)⟩
  | mixV =>
    have hself : mixLength s .vbuf = s.vbufLen.toNat := max_self _
    exact ⟨rfl, Nat.mul_le_mul_left 4 ((min_le_left _ _).trans hself.le)⟩
  | encodeM => exact ⟨rfl, Nat.add_le_add_left (Nat.mul_le_mul_left 2 (min_le_left _ _)) 44⟩
  | encodeV => exact ⟨rfl, Nat.add_le_add_left (Nat.mul_le_mul_left 2 (min_le_left _ _)) 44⟩
  | encodeI => exact ⟨rfl, Nat.add_le_add_left (Nat.mul_le_mul_left 2 (min_le_left _ _)) 44⟩

/-! ## PITCH (R40) -/

/-- A byte of PITCH is a function of the parameters alone. -/
theorem byteAt_pitch_congr {s t : State} (hp : t.params = s.params) {a : Nat} (hlo : pitchBase ≤ a)
    (hhi : a < pitchBase + 96) : t.byteAt a = s.byteAt a := by
  rw [State.byteAt, State.byteAt, if_pos ⟨hlo, hhi⟩, if_pos ⟨hlo, hhi⟩, hp]

end Sys2Proof.Machine

namespace Sys2Proof.Claim

open Sys2Proof.Machine

/-- What is kept outside a block is kept outside every longer one from the same base. -/
theorem keepsBytesOutside_mono {s t : State} {base len len' : Nat} (h : keepsBytesOutside s t base len)
    (hlen : len ≤ len') : keepsBytesOutside s t base len' :=
  fun a ha => h a (by omega)

/-- R263: an abandoned command costs no byte outside the outputs that R71 gives it. -/
theorem softReset_keepsBytesOutside_outputBytes {s : State} {w : Word} {i : Instr} (heng : s.eng = some w)
    (hdecode : decodeWord w = .ok i) :
    keepsBytesOutside s (softReset s) (outputBytes i s).1 (outputBytes i s).2 := by
  have hkeeps := softReset_keepsBytesOutside s
  obtain ⟨hbase, hlen⟩ := outputRange_within_outputBytes i s
  rw [inFlightRange_of_ok heng hdecode, hbase] at hkeeps
  exact keepsBytesOutside_mono hkeeps hlen

/-! ## The obligations -/

/-- Settles O56: the step is the soft reset, which rewrites the range of the word in flight alone; that range is empty while
IDLE and for an ILLEGAL word. -/
theorem softResetAbandonsTheCommand : Obligations.SoftResetAbandonsTheCommand := by
  unfold Obligations.SoftResetAbandonsTheCommand
  intro s v rest hsrst hoff
  have hstep : step s = .next (softReset { s with queue := rest }) := by
    rw [step_write_at_register (r := .ctrl) hoff, writeOffset_ctrl, writeCtrl_of_srst hsrst]
  refine ⟨_, hstep, softReset_registersReset _, softReset_irq _, softReset_params _, fun hidle => ?_,
    fun w i heng hdecode => ?_, fun w e heng hdecode => ?_⟩
  · exact softReset_byteAt (s := { s with queue := rest }) (inFlightRange_of_idle hidle)
  · exact softReset_keepsBytesOutside_outputBytes (s := { s with queue := rest }) heng hdecode
  · exact softReset_byteAt (s := { s with queue := rest }) (inFlightRange_of_error heng hdecode)

/-- Settles O57: the step is the power-on reset, which drops every written byte and leaves PITCH to the parameters. -/
theorem powerOnResetsEverything : Obligations.PowerOnResetsEverything := by
  unfold Obligations.PowerOnResetsEverything
  intro s rest hoff
  exact ⟨powerOnReset { s with queue := rest }, step_of_offers hoff, powerOnReset_registersReset _, rfl, rfl,
    fun _ hlo hhi => byteAt_pitch_congr (powerOnReset_params { s with queue := rest }) hlo hhi⟩

/-- Settles O55: the machine starts reset, and its parameters are the default ones. -/
theorem resetValues : Obligations.ResetValues := by
  unfold Obligations.ResetValues
  have hreset : registersReset State.reset := resetRegisters_reset ▸ resetRegisters_registersReset State.reset
  exact ⟨hreset, readReg_of_registersReset hreset⟩

end Sys2Proof.Claim
end
